-- ==== Sys2Proof/Word.lean ====
section
/-! DEFINITION. The word types of the machine (spec/00_scope.md R5, R7). -/

namespace Sys2Proof

/-- A `u8`: a general register, a timer, a byte of memory (00_scope.md R5, R7). -/
abbrev Byte := BitVec 8

/-- A `u16`: the program counter, the index register, a stack entry, an instruction word
(00_scope.md R5, R7). -/
abbrev Word := BitVec 16

/-- A `u12`: the operand `nnn`, a byte address (00_scope.md R10, 30_encoding.md R92). -/
abbrev Addr12 := BitVec 12

/-- The index of a general register, 0 to 15: every value names a register (30_encoding.md R92). -/
abbrev RegIdx := Fin 16

end Sys2Proof
end

