-- ==== Sys2Proof/Syntax.lean ====
section
/-! DEFINITION. The instructions: one constructor for each of the 34 rows of spec/30_encoding.md R100
(spec/opcode_table.json), in the table's order, with the operands of spec/00_scope.md R10. -/

namespace Sys2Proof

/-- An instruction: the opcode identifier and operand tuple of 30_encoding.md R93. `x` and `y` are register
indices, `nn` an immediate byte, `nnn` a 12-bit address, `n` a row count. -/
inductive Instr where
  /-- 1. `00E0` CLS, clear screen (45_display.md R190). -/
  | cls
  /-- 2. `00EE` RET, return (40_control_transfer.md R121). -/
  | ret
  /-- 3. `1NNN` JP nnn, jump (40_control_transfer.md R122). -/
  | jp (nnn : Addr12)
  /-- 4. `2NNN` CALL nnn, call (40_control_transfer.md R123). -/
  | call (nnn : Addr12)
  /-- 5. `3XNN` SE Vx, nn, skip if equal (41_skips.md R131). -/
  | seImm (x : RegIdx) (nn : Byte)
  /-- 6. `4XNN` SNE Vx, nn, skip if not equal (41_skips.md R132). -/
  | sneImm (x : RegIdx) (nn : Byte)
  /-- 7. `5XY0` SE Vx, Vy, skip if equal (41_skips.md R133). -/
  | seReg (x y : RegIdx)
  /-- 8. `6XNN` LD Vx, nn, load immediate (42_immediate.md R141). -/
  | ldImm (x : RegIdx) (nn : Byte)
  /-- 9. `7XNN` ADD Vx, nn, add immediate (42_immediate.md R142). -/
  | addImm (x : RegIdx) (nn : Byte)
  /-- 10. `8XY0` LD Vx, Vy, register copy (43_alu.md R151). -/
  | ldReg (x y : RegIdx)
  /-- 11. `8XY1` OR Vx, Vy (43_alu.md R153). -/
  | orReg (x y : RegIdx)
  /-- 12. `8XY2` AND Vx, Vy (43_alu.md R154). -/
  | andReg (x y : RegIdx)
  /-- 13. `8XY3` XOR Vx, Vy (43_alu.md R155). -/
  | xorReg (x y : RegIdx)
  /-- 14. `8XY4` ADD Vx, Vy (43_alu.md R158). -/
  | addReg (x y : RegIdx)
  /-- 15. `8XY5` SUB Vx, Vy (43_alu.md R159). -/
  | subReg (x y : RegIdx)
  /-- 16. `8XY6` SHR Vx, shift right by one; `y` is decoded and ignored (43_alu.md R160). -/
  | shr (x y : RegIdx)
  /-- 17. `8XY7` SUBN Vx, Vy, reverse subtract (43_alu.md R161). -/
  | subnReg (x y : RegIdx)
  /-- 18. `8XYE` SHL Vx, shift left by one; `y` is decoded and ignored (43_alu.md R162). -/
  | shl (x y : RegIdx)
  /-- 19. `9XY0` SNE Vx, Vy, skip if not equal (41_skips.md R134). -/
  | sneReg (x y : RegIdx)
  /-- 20. `ANNN` LD I, nnn, load address (44_index_memory.md R171). -/
  | ldI (nnn : Addr12)
  /-- 21. `BNNN` JP V0, nnn, jump with offset (40_control_transfer.md R126). -/
  | jpV0 (nnn : Addr12)
  /-- 22. `CXNN` RND Vx, nn, random AND (42_immediate.md R144). -/
  | rnd (x : RegIdx) (nn : Byte)
  /-- 23. `DXYN` DRW Vx, Vy, n, draw sprite; `n` is a count of rows, 0 to 15 (45_display.md R192). -/
  | drw (x y : RegIdx) (n : Nat)
  /-- 24. `EX9E` SKP Vx, skip if the key is pressed (46_keypad_timers.md R201). -/
  | skp (x : RegIdx)
  /-- 25. `EXA1` SKNP Vx, skip if the key is not pressed (46_keypad_timers.md R202). -/
  | sknp (x : RegIdx)
  /-- 26. `FX07` LD Vx, DT, get delay timer (46_keypad_timers.md R203). -/
  | ldVxDT (x : RegIdx)
  /-- 27. `FX0A` LD Vx, K, wait for a key (46_keypad_timers.md R204). -/
  | ldVxK (x : RegIdx)
  /-- 28. `FX15` LD DT, Vx, set delay timer (46_keypad_timers.md R205). -/
  | ldDTVx (x : RegIdx)
  /-- 29. `FX18` LD ST, Vx, set sound timer (46_keypad_timers.md R206). -/
  | ldSTVx (x : RegIdx)
  /-- 30. `FX1E` ADD I, Vx, add to index (44_index_memory.md R173). -/
  | addI (x : RegIdx)
  /-- 31. `FX29` LD F, Vx, load font address (44_index_memory.md R175). -/
  | ldF (x : RegIdx)
  /-- 32. `FX33` LD B, Vx, store BCD (44_index_memory.md R176). -/
  | ldB (x : RegIdx)
  /-- 33. `FX55` LD [I], Vx, register dump (44_index_memory.md R178). -/
  | dump (x : RegIdx)
  /-- 34. `FX65` LD Vx, [I], register load (44_index_memory.md R180). -/
  | load (x : RegIdx)
  deriving DecidableEq, Repr, Inhabited

end Sys2Proof
end

