-- ==== Sys2Proof/WellFormed.lean ====
section
/-! DEFINITION. Which terms of `Instr` are instructions. Register indices, immediate bytes and addresses carry
their bounds in their types (spec/30_encoding.md R92: every value of these fields is an operand); the one operand
that is a plain number, the row count of `DRW`, is checked here. -/

namespace Sys2Proof

/-- The row count of `DRW` is a `u4`: 0 to 15 (30_encoding.md R92, 45_display.md R191). -/
def rowCountOk (n : Nat) : Bool := decide (n ≤ 15)

/-- The well-formed instructions: those some instruction word stands for (log entry 10). -/
def Instr.wellFormed : Instr → Bool
  | .cls | .ret => true
  | .jp _ | .call _ | .ldI _ | .jpV0 _ => true
  | .seImm _ _ | .sneImm _ _ | .ldImm _ _ | .addImm _ _ | .rnd _ _ => true
  | .seReg _ _ | .sneReg _ _ | .ldReg _ _ => true
  | .orReg _ _ | .andReg _ _ | .xorReg _ _ => true
  | .addReg _ _ | .subReg _ _ | .shr _ _ | .subnReg _ _ | .shl _ _ => true
  | .drw _ _ n => rowCountOk n
  | .skp _ | .sknp _ => true
  | .ldVxDT _ | .ldVxK _ | .ldDTVx _ | .ldSTVx _ => true
  | .addI _ | .ldF _ | .ldB _ | .dump _ | .load _ => true

end Sys2Proof
end

