-- ==== Sys2Proof/Decode.lean ====
section
/-! DEFINITION. The decoder, total on every word and on any bytes, then the encoder, both from the encoding
tables of spec/30_encoding.md (R91 formats, R100 to R106 opcode map), and the table R100 itself. -/

namespace Sys2Proof

/-- Why a word is no instruction: the family whose secondary dispatch rejects it (30_encoding.md R108). -/
inductive Illegal where
  /-- Family 0x0, not 0x00E0 and not 0x00EE (R102; `0NNN` among them). -/
  | family0
  /-- `5XYn` with `n ≠ 0` (R106). -/
  | family5
  /-- `8XYn` with `n` in 0x8 to 0xD or 0xF (R103). -/
  | family8
  /-- `9XYn` with `n ≠ 0` (R106). -/
  | family9
  /-- `EXnn` with `nn` not 0x9E or 0xA1 (R104). -/
  | familyE
  /-- `FXnn` with `nn` none of the nine codes of R105. -/
  | familyF
  deriving DecidableEq, Repr, Inhabited

/-- Why bytes are no instruction. -/
inductive DecodeError where
  /-- Fewer than the two bytes of an instruction (R90). -/
  | truncated
  /-- The word of the first two bytes is illegal (R108). -/
  | illegal (why : Illegal)
  deriving DecidableEq, Repr, Inhabited

/-- `w[15:12]`, the family (R91, R93). -/
def fieldOp (w : Word) : Nat := (w.extractLsb' 12 4).toNat

/-- `x = w[11:8]` (R91). -/
def fieldX (w : Word) : RegIdx := (w.extractLsb' 8 4).toFin

/-- `y = w[7:4]` (R91). -/
def fieldY (w : Word) : RegIdx := (w.extractLsb' 4 4).toFin

/-- `n = w[3:0]`, the row count or a secondary code (R91). -/
def fieldN (w : Word) : Nat := (w.extractLsb' 0 4).toNat

/-- `nn = w[7:0]`, the immediate byte or a secondary code (R91). -/
def fieldNN (w : Word) : Byte := w.extractLsb' 0 8

/-- `nnn = w[11:0]` (R91). -/
def fieldNNN (w : Word) : Addr12 := w.extractLsb' 0 12

/-- Family 0x0: the whole word is matched (R102). -/
def decodeFamily0 (w : Word) : Except Illegal Instr :=
  match w.toNat with
  | 0x00E0 => .ok .cls
  | 0x00EE => .ok .ret
  | _ => .error .family0

/-- Family 0x5: the low nibble must be 0 (R106). -/
def decodeFamily5 (w : Word) : Except Illegal Instr :=
  match fieldN w with
  | 0x0 => .ok (.seReg (fieldX w) (fieldY w))
  | _ => .error .family5

/-- Family 0x8: register copy and ALU, by the low nibble (R103). -/
def decodeFamily8 (w : Word) : Except Illegal Instr :=
  match fieldN w with
  | 0x0 => .ok (.ldReg (fieldX w) (fieldY w))
  | 0x1 => .ok (.orReg (fieldX w) (fieldY w))
  | 0x2 => .ok (.andReg (fieldX w) (fieldY w))
  | 0x3 => .ok (.xorReg (fieldX w) (fieldY w))
  | 0x4 => .ok (.addReg (fieldX w) (fieldY w))
  | 0x5 => .ok (.subReg (fieldX w) (fieldY w))
  | 0x6 => .ok (.shr (fieldX w) (fieldY w))
  | 0x7 => .ok (.subnReg (fieldX w) (fieldY w))
  | 0xE => .ok (.shl (fieldX w) (fieldY w))
  | _ => .error .family8

/-- Family 0x9: the low nibble must be 0 (R106). -/
def decodeFamily9 (w : Word) : Except Illegal Instr :=
  match fieldN w with
  | 0x0 => .ok (.sneReg (fieldX w) (fieldY w))
  | _ => .error .family9

/-- Family 0xE: key tests, by the low byte (R104). -/
def decodeFamilyE (w : Word) : Except Illegal Instr :=
  match (fieldNN w).toNat with
  | 0x9E => .ok (.skp (fieldX w))
  | 0xA1 => .ok (.sknp (fieldX w))
  | _ => .error .familyE

/-- Family 0xF: timers, key wait, index, font, BCD, register block, by the low byte (R105). -/
def decodeFamilyF (w : Word) : Except Illegal Instr :=
  match (fieldNN w).toNat with
  | 0x07 => .ok (.ldVxDT (fieldX w))
  | 0x0A => .ok (.ldVxK (fieldX w))
  | 0x15 => .ok (.ldDTVx (fieldX w))
  | 0x18 => .ok (.ldSTVx (fieldX w))
  | 0x1E => .ok (.addI (fieldX w))
  | 0x29 => .ok (.ldF (fieldX w))
  | 0x33 => .ok (.ldB (fieldX w))
  | 0x55 => .ok (.dump (fieldX w))
  | 0x65 => .ok (.load (fieldX w))
  | _ => .error .familyF

/-- `Decode(w)`: the instruction a word stands for, or why it is illegal, total on all 65536 words
(R93, R94, R101). The last arm is family 0xF: `w[15:12]` is four bits. -/
def decodeWord (w : Word) : Except Illegal Instr :=
  match fieldOp w with
  | 0x0 => decodeFamily0 w
  | 0x1 => .ok (.jp (fieldNNN w))
  | 0x2 => .ok (.call (fieldNNN w))
  | 0x3 => .ok (.seImm (fieldX w) (fieldNN w))
  | 0x4 => .ok (.sneImm (fieldX w) (fieldNN w))
  | 0x5 => decodeFamily5 w
  | 0x6 => .ok (.ldImm (fieldX w) (fieldNN w))
  | 0x7 => .ok (.addImm (fieldX w) (fieldNN w))
  | 0x8 => decodeFamily8 w
  | 0x9 => decodeFamily9 w
  | 0xA => .ok (.ldI (fieldNNN w))
  | 0xB => .ok (.jpV0 (fieldNNN w))
  | 0xC => .ok (.rnd (fieldX w) (fieldNN w))
  | 0xD => .ok (.drw (fieldX w) (fieldY w) (fieldN w))
  | 0xE => decodeFamilyE w
  | _ => decodeFamilyF w

/-- The word of two consecutive bytes: the byte at the lower address is the high byte (20_memory.md R66). -/
def wordOfBytes (hi lo : Byte) : Word := hi ++ lo

/-- The two bytes of a word as memory holds it, lowest address first (20_memory.md R66). -/
def bytesOfWord (w : Word) : Byte × Byte := (w.extractLsb' 8 8, w.extractLsb' 0 8)

/-- The instruction at the head of a list of bytes, with the bytes after it (R90: always two bytes). -/
def decode : List Byte → Except DecodeError (Instr × List Byte)
  | hi :: lo :: rest =>
    match decodeWord (wordOfBytes hi lo) with
    | .ok i => .ok (i, rest)
    | .error why => .error (.illegal why)
  | _ => .error .truncated

/-- For the host: the instruction the decoder reads from an instruction whose bits are `w`, its one 16-bit word
stored as the hardware stores it, high byte first. -/
def decodeTableWord (nbits w : Nat) : Option Instr :=
  let bytes := bytesOfWord (BitVec.ofNat 16 (w % 2 ^ nbits))
  match decode [bytes.1, bytes.2] with
  | .ok (i, _) => some i
  | .error _ => none

/-! ### The encoder: a word of each format (R91), then the word of each instruction (R100) -/

/-- Format NNN: `op` in bits 15 to 12, `nnn` in bits 11 to 0 (R91). -/
def wordNNN (op : Nat) (nnn : Addr12) : Word := BitVec.ofNat 16 (op * 0x1000 + nnn.toNat)

/-- Format XNN: `op`, `x` in bits 11 to 8, `nn` in bits 7 to 0 (R91). -/
def wordXNN (op : Nat) (x : RegIdx) (nn : Byte) : Word :=
  BitVec.ofNat 16 (op * 0x1000 + x.val * 0x100 + nn.toNat)

/-- Formats XY and XYN: `op`, `x` in bits 11 to 8, `y` in bits 7 to 4, a code or `n` in bits 3 to 0 (R91). -/
def wordXYN (op : Nat) (x y : RegIdx) (n : Nat) : Word :=
  BitVec.ofNat 16 (op * 0x1000 + x.val * 0x100 + y.val * 0x10 + n)

/-- Format X: `op`, `x` in bits 11 to 8, the secondary code in bits 7 to 0 (R91). -/
def wordX (op : Nat) (x : RegIdx) (code : Nat) : Word :=
  BitVec.ofNat 16 (op * 0x1000 + x.val * 0x100 + code)

/-- The instruction word of a well-formed instruction (R100). -/
def encode : Instr → Word
  | .cls => 0x00E0
  | .ret => 0x00EE
  | .jp nnn => wordNNN 0x1 nnn
  | .call nnn => wordNNN 0x2 nnn
  | .seImm x nn => wordXNN 0x3 x nn
  | .sneImm x nn => wordXNN 0x4 x nn
  | .seReg x y => wordXYN 0x5 x y 0x0
  | .ldImm x nn => wordXNN 0x6 x nn
  | .addImm x nn => wordXNN 0x7 x nn
  | .ldReg x y => wordXYN 0x8 x y 0x0
  | .orReg x y => wordXYN 0x8 x y 0x1
  | .andReg x y => wordXYN 0x8 x y 0x2
  | .xorReg x y => wordXYN 0x8 x y 0x3
  | .addReg x y => wordXYN 0x8 x y 0x4
  | .subReg x y => wordXYN 0x8 x y 0x5
  | .shr x y => wordXYN 0x8 x y 0x6
  | .subnReg x y => wordXYN 0x8 x y 0x7
  | .shl x y => wordXYN 0x8 x y 0xE
  | .sneReg x y => wordXYN 0x9 x y 0x0
  | .ldI nnn => wordNNN 0xA nnn
  | .jpV0 nnn => wordNNN 0xB nnn
  | .rnd x nn => wordXNN 0xC x nn
  | .drw x y n => wordXYN 0xD x y n
  | .skp x => wordX 0xE x 0x9E
  | .sknp x => wordX 0xE x 0xA1
  | .ldVxDT x => wordX 0xF x 0x07
  | .ldVxK x => wordX 0xF x 0x0A
  | .ldDTVx x => wordX 0xF x 0x15
  | .ldSTVx x => wordX 0xF x 0x18
  | .addI x => wordX 0xF x 0x1E
  | .ldF x => wordX 0xF x 0x29
  | .ldB x => wordX 0xF x 0x33
  | .dump x => wordX 0xF x 0x55
  | .load x => wordX 0xF x 0x65

/-! ### The opcode table R100 as data -/

/-- A row of R100: its fixed bits and which bits are fixed. -/
structure OpcodeRow where
  bits : Word
  mask : Word
  deriving DecidableEq, Repr, Inhabited

/-- A word selects a row when `w & mask = match` (R94). -/
def OpcodeRow.selects (r : OpcodeRow) (w : Word) : Bool := w &&& r.mask == r.bits

/-- The row of R100 that an instruction stands in. -/
def Instr.row : Instr → OpcodeRow
  | .cls => ⟨0x00E0, 0xFFFF⟩
  | .ret => ⟨0x00EE, 0xFFFF⟩
  | .jp _ => ⟨0x1000, 0xF000⟩
  | .call _ => ⟨0x2000, 0xF000⟩
  | .seImm _ _ => ⟨0x3000, 0xF000⟩
  | .sneImm _ _ => ⟨0x4000, 0xF000⟩
  | .seReg _ _ => ⟨0x5000, 0xF00F⟩
  | .ldImm _ _ => ⟨0x6000, 0xF000⟩
  | .addImm _ _ => ⟨0x7000, 0xF000⟩
  | .ldReg _ _ => ⟨0x8000, 0xF00F⟩
  | .orReg _ _ => ⟨0x8001, 0xF00F⟩
  | .andReg _ _ => ⟨0x8002, 0xF00F⟩
  | .xorReg _ _ => ⟨0x8003, 0xF00F⟩
  | .addReg _ _ => ⟨0x8004, 0xF00F⟩
  | .subReg _ _ => ⟨0x8005, 0xF00F⟩
  | .shr _ _ => ⟨0x8006, 0xF00F⟩
  | .subnReg _ _ => ⟨0x8007, 0xF00F⟩
  | .shl _ _ => ⟨0x800E, 0xF00F⟩
  | .sneReg _ _ => ⟨0x9000, 0xF00F⟩
  | .ldI _ => ⟨0xA000, 0xF000⟩
  | .jpV0 _ => ⟨0xB000, 0xF000⟩
  | .rnd _ _ => ⟨0xC000, 0xF000⟩
  | .drw _ _ _ => ⟨0xD000, 0xF000⟩
  | .skp _ => ⟨0xE09E, 0xF0FF⟩
  | .sknp _ => ⟨0xE0A1, 0xF0FF⟩
  | .ldVxDT _ => ⟨0xF007, 0xF0FF⟩
  | .ldVxK _ => ⟨0xF00A, 0xF0FF⟩
  | .ldDTVx _ => ⟨0xF015, 0xF0FF⟩
  | .ldSTVx _ => ⟨0xF018, 0xF0FF⟩
  | .addI _ => ⟨0xF01E, 0xF0FF⟩
  | .ldF _ => ⟨0xF029, 0xF0FF⟩
  | .ldB _ => ⟨0xF033, 0xF0FF⟩
  | .dump _ => ⟨0xF055, 0xF0FF⟩
  | .load _ => ⟨0xF065, 0xF0FF⟩

/-- One instruction of each of the 34 rows, in the table's order. -/
def rowSamples : List Instr :=
  [.cls, .ret, .jp 0, .call 0, .seImm 0 0, .sneImm 0 0, .seReg 0 0, .ldImm 0 0, .addImm 0 0] ++
  [.ldReg 0 0, .orReg 0 0, .andReg 0 0, .xorReg 0 0, .addReg 0 0, .subReg 0 0, .shr 0 0] ++
  [.subnReg 0 0, .shl 0 0, .sneReg 0 0, .ldI 0, .jpV0 0, .rnd 0 0, .drw 0 0 0, .skp 0, .sknp 0] ++
  [.ldVxDT 0, .ldVxK 0, .ldDTVx 0, .ldSTVx 0, .addI 0, .ldF 0, .ldB 0, .dump 0, .load 0]

/-- The 34 rows of R100, in order. -/
def opcodeRows : List OpcodeRow := rowSamples.map Instr.row

end Sys2Proof
end

