-- ==== Sys2Proof/Config.lean ====
section
/-! DEFINITION. The parameters of spec/00_scope.md R5: the sizes the document fixes, and the values it
leaves open, each an opaque constant that no proof can look into. -/

namespace Sys2Proof

/-- What a model calls the end of a run, `END_OF_RUN` (00_scope.md R5, 70_reset_and_hazards.md R284): the
quit request, or the first cycle at which `PC` holds the address of a `JP` to itself. -/
inductive EndOfRun where
  | quitRequest
  | selfJump
  deriving DecidableEq, Repr, Inhabited

namespace Config

/-- `MEMSIZE` (R5). -/
def memSize : Nat := 4096

/-- `STACKDEPTH` (R5). -/
def stackDepth : Nat := 16

/-- `FBW` (R5). -/
def fbWidth : Nat := 64

/-- `FBH` (R5). -/
def fbHeight : Nat := 32

/-- `ENTRY`: the reset value of the program counter and the load address (R5). -/
def entry : Nat := 0x200

/-- `FONTBASE` (R5). -/
def fontBase : Nat := 0

/-- `GLYPHSIZE` (R5). -/
def glyphSize : Nat := 5

/-- `MAXIMAGE`, the longest program image (R5). -/
def maxImage : Nat := 3584

/-- FREE VALUE. `keys_i` of cycle number `n`: any 16 bits (10_state.md R42, 93_implementation_defined.md
U12; log entry 2). -/
opaque keysIn : Nat → BitVec 16

/-- FREE VALUE. `quit_i` of cycle number `n` (10_state.md R42, U12; log entry 2). -/
opaque quitIn : Nat → Bool

/-- FREE VALUE. `TICK_SCHEDULE`: `tick_i` of cycle number `n` (R5, 60_exceptions.md R242, U2; log entry 2). -/
opaque tickSchedule : Nat → Bool

/-- FREE VALUE. `RND_SOURCE`: `rnd_i` of cycle number `n` (R5, 42_immediate.md R144, U1; log entry 2). -/
opaque rndSource : Nat → Byte

/-- `CLOCKS_PER_CYCLE` (R5, 70_reset_and_hazards.md R283, U11): no rule depends on it and nothing reads it
(log entry 11). -/
opaque clocksPerCycle : Nat

/-- `END_OF_RUN` (R5, 70_reset_and_hazards.md R284): left open (log entry 11). -/
opaque endOfRun : EndOfRun

end Config
end Sys2Proof
end

