-- ==== Sys2Proof/Machine/State.lean ====
section
/-! DEFINITION. The state of the machine as plain data: everything spec/10_state.md R20 lists, the outputs of the
last cycle, and the model's own carrier of the free inputs; and the state right after reset (R50). -/

namespace Sys2Proof.Machine

/-- The run state (10_state.md R37). -/
inductive RunState where
  | running
  | halted
  deriving DecidableEq, Repr, Inhabited

/-- The faults of the machine (60_exceptions.md R230). Each halts the machine in a NEXT state. -/
inductive FaultKind where
  /-- Code 1: the word fetched is no instruction. -/
  | decodeFault
  /-- Code 2: `CALL` with 16 entries on the stack. -/
  | stackOverflow
  /-- Code 3: `RET` with an empty stack. -/
  | stackUnderflow
  /-- Code 4: an address above 0xFFF reached memory. -/
  | addressOutOfRange
  /-- Code 5: `SKP` or `SKNP` with a key number above 15. -/
  | keyIndexOutOfRange
  /-- Code 6: the program image is too long; raised by reset only. -/
  | loadFault
  deriving DecidableEq, Repr, Inhabited

/-- The fault record (10_state.md R38, 60_exceptions.md R230; its shape: log entry 8). -/
structure FaultRecord where
  /-- Which fault; its code is `FaultKind.code`. -/
  kind : FaultKind
  /-- `fault.pc`: the address of the instruction. -/
  pc   : Word
  /-- `fault.word`: the instruction word, where one was fetched. -/
  word : Option Word
  /-- `fault.addr`: the offending address, key number or image length, where there is one. -/
  addr : Option Nat
  deriving DecidableEq, Repr, Inhabited

/-- The four inputs of a cycle (60_exceptions.md R221, 10_state.md R42 to R44). -/
structure CycleInput where
  /-- `keys_i`: bit `j` is 1 when key `j` is pressed. -/
  keys : BitVec 16
  /-- `quit_i`. -/
  quit : Bool
  /-- `tick_i`. -/
  tick : Bool
  /-- `rnd_i`. -/
  rnd  : Byte
  deriving DecidableEq, Repr, Inhabited

/-- Memory: the bytes that differ from the reset contents, by address (10_state.md R39, 20_memory.md R60). -/
abbrev Memory := List Host.Cell

/-- The canonical form of memory: addresses strictly rising, none above 0xFFF, and no entry equal to what an
unlisted address reads as. -/
abbrev Memory.wf (m : Memory) : Prop :=
  m.Pairwise (fun c d => c.1 < d.1) ∧ ∀ c ∈ m, c.1 ≤ 0xFFF ∧ c.2 ≠ resetByte c.1

/-- The state of the machine (10_state.md R20). -/
structure State where
  /-- `V[0]` to `V[15]` (R21); `V[15]` is the flag register `VF` (R22). -/
  v        : Vector Byte 16
  /-- `PC` (R24). -/
  pc       : Word
  /-- `I` (R28). -/
  i        : Word
  /-- `SP`, 0 to 16 (R30). -/
  sp       : Fin 17
  /-- `S[0]` to `S[15]` (R31). -/
  stack    : Vector Word 16
  /-- `DT` (R32). -/
  dt       : Byte
  /-- `ST` (R33). -/
  st       : Byte
  /-- `K`: bit `j` is `K[j]` (R34). -/
  k        : BitVec 16
  /-- `FB[row][col]` (R35). -/
  fb       : Vector (Vector Bool 64) 32
  /-- `dirty` (R36). -/
  dirty    : Bool
  /-- `run` (R37). -/
  run      : RunState
  /-- `fault`, none for code 0 (R38). -/
  fault    : Option FaultRecord
  /-- `M` (R39). -/
  mem      : Memory
  /-- `present_o` of the last cycle (R46; log entry 4). -/
  presentO : Bool
  /-- `tone_o` of the last cycle (R47; log entry 4). -/
  toneO    : Bool
  /-- The model's own: the inputs of the coming cycles, first first; beyond them they are free (log entry 2). -/
  feed     : List CycleInput
  /-- The model's own: the number of running cycles begun, which makes each free value fresh (log entry 2). -/
  cycle    : Nat
  deriving DecidableEq, Repr, Inhabited

/-- Why a step stops without a next state: never. Every fault of the spec is a next state in which the machine is
halted (60_exceptions.md R232, R224; log entry 6), so this type is empty and no step can end in a fault of the
model (safe: nothing is left out by it). -/
inductive Fault where
  deriving DecidableEq, Repr

/-- Why a step gives no meaning. -/
inductive Refusal where
  /-- Raised by an arm of `exec` whose instruction has no meaning yet: no arm raises it (safe). -/
  | notModelled (mnemonic : String)
  deriving DecidableEq, Repr, Inhabited

/-- The outcome of an instruction or a step. -/
abbrev Result := Host.Outcome State Fault Refusal

end Sys2Proof.Machine

namespace Sys2Proof

/-- FREE VALUE. What a faulting cycle leaves in everything but `run` and the fault record: unspecified
(60_exceptions.md R233, 93_implementation_defined.md U3). Any state, for any cycle number and any state the cycle
had reached (log entry 5). -/
opaque Config.stateAfterFault : Nat → Machine.State → Machine.State

end Sys2Proof

namespace Sys2Proof.Machine

/-- The machine right after reset with an empty program image (10_state.md R50, 70_reset_and_hazards.md R270;
the fields `presentO` and `toneO`: log entry 4, `feed` and `cycle`: log entry 3). -/
def State.reset : State where
  v        := Vector.replicate 16 0
  pc       := 0x200
  i        := 0
  sp       := 0
  stack    := Vector.replicate 16 0
  dt       := 0
  st       := 0
  k        := 0
  fb       := Vector.replicate 32 (Vector.replicate 64 false)
  dirty    := false
  run      := .running
  fault    := none
  mem      := []
  presentO := false
  toneO    := false
  feed     := []
  cycle    := 0

end Sys2Proof.Machine
end

