-- ==== Sys2Proof/Machine/Ops.lean ====
section
/-! DEFINITION. The named operations over memory and registers, each with its special behaviour in one place, and
the raising of a fault (spec/60_exceptions.md R232). The machine has no return from a fault (R235). -/

namespace Sys2Proof.Machine

/-! ### Memory (20_memory.md R60 to R64) -/

/-- The byte at an address: the listed one, else the reset contents. -/
def Memory.read : Memory → Nat → Byte
  | [], a => resetByte a
  | (b, v) :: rest, a => if a = b then v else Memory.read rest a

/-- Put an entry in its place, or in the place of the one it replaces. -/
def Memory.insert : Memory → Nat → Byte → Memory
  | [], a, v => [(a, v)]
  | (b, u) :: rest, a, v =>
    if a < b then (a, v) :: (b, u) :: rest
    else if a = b then (a, v) :: rest
    else (b, u) :: Memory.insert rest a v

/-- Take out the entries of an address. -/
def Memory.erase (m : Memory) (a : Nat) : Memory := m.filter (fun c => c.1 != a)

/-- Write a byte, keeping the canonical form: writing the reset contents takes the entry out. -/
def Memory.write (m : Memory) (a : Nat) (v : Byte) : Memory :=
  if v = resetByte a then m.erase a else m.insert a v

/-- Write bytes at successive addresses. -/
def Memory.writeBytes : Memory → Nat → List Byte → Memory
  | m, _, [] => m
  | m, a, v :: rest => Memory.writeBytes (m.write a v) (a + 1) rest

/-- The canonical form of any list of cells: each address from its first entry, addresses above 0xFFF dropped. -/
def Memory.normalize (m : Memory) : Memory :=
  m.foldr (fun c acc => if c.1 ≤ 0xFFF then acc.write c.1 c.2 else acc) []

/-- `MemRead(addr, 1)`: the byte, or the address of an `AddressOutOfRange` (20_memory.md R62). -/
def State.memRead (s : State) (a : Nat) : Except Nat Byte :=
  if a ≤ 0xFFF then .ok (s.mem.read a) else .error a

/-- `MemWrite(addr, 1, v)`: the new state, or the address of an `AddressOutOfRange` (20_memory.md R63). No
address is protected (R64). -/
def State.memWrite (s : State) (a : Nat) (v : Byte) : Except Nat State :=
  if a ≤ 0xFFF then .ok { s with mem := s.mem.write a v } else .error a

/-- `MemWrite` of bytes at `a`, `a + 1`, …, in ascending order; the addresses do not wrap (20_memory.md R69, R71). -/
def State.memWriteBytes : State → Nat → List Byte → Except Nat State
  | s, _, [] => .ok s
  | s, a, v :: rest =>
    match s.memWrite a v with
    | .ok t => t.memWriteBytes (a + 1) rest
    | .error e => .error e

/-! ### Registers (10_state.md R21 to R33) -/

/-- `V[r]` (R21): no register is hardwired. -/
def State.reg (s : State) (r : RegIdx) : Byte := s.v[r.val]

/-- `V[r] <- b`. -/
def State.setReg (s : State) (r : RegIdx) (b : Byte) : State := { s with v := s.v.set r.val b }

/-- `PC <- a`, all 16 bits (R24). -/
def State.setPc (s : State) (a : Word) : State := { s with pc := a }

/-- `PC <- (PC + 2) mod 65536` (00_scope.md R12). -/
def State.advance (s : State) : State := s.setPc (s.pc + 2)

/-- `PC <- (PC + 4) mod 65536` (41_skips.md R130). -/
def State.skip (s : State) : State := s.setPc (s.pc + 4)

/-- The skip of 41_skips.md R130: by 4 if the condition holds, else by 2. -/
def State.skipIf (s : State) (cond : Bool) : State := if cond then s.skip else s.advance

/-- `I <- a`, all 16 bits (R28). -/
def State.setI (s : State) (a : Word) : State := { s with i := a }

/-- `I <- (I + 1) mod 65536` (R29). -/
def State.incI (s : State) : State := s.setI (s.i + 1)

/-- `DT <- b` (R32). -/
def State.setDt (s : State) (b : Byte) : State := { s with dt := b }

/-- `ST <- b` (R33). -/
def State.setSt (s : State) (b : Byte) : State := { s with st := b }

/-! ### The call stack (10_state.md R30, R31) -/

/-- `S[SP] <- PC ; SP <- SP + 1`, or none when the stack is full (40_control_transfer.md R123). -/
def State.push (s : State) : Option State :=
  if h : s.sp.val < 16 then
    some { s with stack := s.stack.set s.sp.val s.pc, sp := ⟨s.sp.val + 1, Nat.succ_lt_succ h⟩ }
  else none

/-- `SP <- SP − 1`, then `S[SP]`, or none when the stack is empty (40_control_transfer.md R121). The entry stays
in the array. -/
def State.pop (s : State) : Option (Word × State) :=
  if h : 0 < s.sp.val then
    some (s.stack[s.sp.val - 1]'(by have := s.sp.isLt; omega),
      { s with sp := ⟨s.sp.val - 1, by have := s.sp.isLt; omega⟩ })
  else none

/-! ### The framebuffer (10_state.md R35, R36) -/

/-- `FB[row][col]`. -/
def State.pixel (s : State) (row : Fin 32) (col : Fin 64) : Bool := s.fb[row.val][col.val]

/-- `FB[row][col] <- b`. -/
def State.setPixel (s : State) (row : Fin 32) (col : Fin 64) (b : Bool) : State :=
  { s with fb := s.fb.set row.val (s.fb[row.val].set col.val b) }

/-- Every pixel 0 (45_display.md R190). -/
def State.clearFb (s : State) : State := { s with fb := Vector.replicate 32 (Vector.replicate 64 false) }

/-- `dirty <- 1` (R36). -/
def State.markDirty (s : State) : State := { s with dirty := true }

/-! ### The inputs of the cycle (10_state.md R41 to R44) -/

/-- The values on the input ports in this cycle: the next of `feed`, and where `feed` is empty the free values of
Config for this cycle number (log entry 2). -/
def State.portsIn (s : State) : CycleInput :=
  match s.feed with
  | inp :: _ => inp
  | [] => ⟨Config.keysIn s.cycle, Config.quitIn s.cycle, Config.tickSchedule s.cycle, Config.rndSource s.cycle⟩

/-- This cycle's inputs are used up (log entry 2). -/
def State.consumeInput (s : State) : State := { s with feed := s.feed.tail, cycle := s.cycle + 1 }

/-! ### Taking a fault (60_exceptions.md R230, R232, R233) -/

/-- What `raise F(info)` does in the cycle of the instruction at `PC`: `fault` is written, `run <- Halted`, and the
cycle ends with nothing presented and no tone (R232). Everything else is unspecified (R233): the free value
`Config.stateAfterFault`, its memory put in canonical form (log entry 5). -/
def State.raise (s : State) (kind : FaultKind) (word : Option Word) (addr : Option Nat) : State :=
  let free := Config.stateAfterFault s.cycle s
  { free with
    mem      := free.mem.normalize
    run      := .halted
    fault    := some ⟨kind, s.pc, word, addr⟩
    presentO := false
    toneO    := false
    feed     := s.feed
    cycle    := s.cycle }

/-- `raise` in the pseudocode of the instruction `i` in state `s`: the word recorded is `i`'s own (log entry 8). -/
def State.raiseIn (s : State) (i : Instr) (kind : FaultKind) (addr : Option Nat) : Result :=
  .next (s.raise kind (some (encode i)) addr)

/-- The end of an instruction that accesses memory: the state it reached, with `PC` advanced, or the
`AddressOutOfRange` of its first failing access, raised in the state `s` it began in. -/
def State.finishAccess (s : State) (i : Instr) : Except Nat State → Result
  | .ok t => .next t.advance
  | .error a => s.raiseIn i .addressOutOfRange (some a)

end Sys2Proof.Machine
end

