-- ==== Sys2Proof/Machine/Operands.lean ====
section
/-! DEFINITION. The operand forms (spec/30_encoding.md R92): registers, immediate bytes and absolute addresses need
no computation but zero extension; here are the forms that compute something from a register. -/

namespace Sys2Proof.Machine

/-- `VF`, the flag register (10_state.md R22). -/
def vf : RegIdx := 15

/-- `V0`, the implicit offset register of `JP V0, nnn` (10_state.md R21). -/
def v0 : RegIdx := 0

/-- `zext_16(nnn)`, an absolute address (30_encoding.md R92). -/
def absAddr (nnn : Addr12) : Word := nnn.setWidth 16

/-- `zext_16` of a register, as an offset to an address. -/
def offsetOf (b : Byte) : Word := b.setWidth 16

/-- The 16 indices in ascending order, of registers and of keys. -/
def allIdx : List RegIdx := [0, 1, 2, 3, 4, 5, 6, 7] ++ [8, 9, 10, 11, 12, 13, 14, 15]

/-- The registers `0` to `x`, in ascending order: the operand of the register-block instructions
(44_index_memory.md R178, R180). -/
def regsUpTo (x : RegIdx) : List RegIdx := allIdx.take (x.val + 1)

/-- The address of glyph number `b`, `b * 5`, at most 1275; `b` is not masked (44_index_memory.md R175). -/
def glyphAddr (b : Byte) : Word := BitVec.ofNat 16 (b.toNat * Config.glyphSize)

/-- The hundreds, tens and ones digits, each a binary byte (44_index_memory.md R176). -/
def bcdDigits (b : Byte) : List Byte :=
  [BitVec.ofNat 8 (b.toNat / 100), BitVec.ofNat 8 (b.toNat / 10 % 10), BitVec.ofNat 8 (b.toNat % 10)]

/-- The row of the top edge of a sprite, `V[y] mod 32` (45_display.md R192). -/
def spriteTop (b : Byte) : Nat := b.toNat % 32

/-- The column of the left edge of a sprite, `V[x] mod 64` (45_display.md R192). -/
def spriteLeft (b : Byte) : Nat := b.toNat % 64

/-- Column `c` of a sprite row is bit `7 − c`: the most significant bit is leftmost (45_display.md R191). -/
def spriteBit (b : Byte) (c : Nat) : Bool := b.getLsbD (7 - c)

/-- The lowest-numbered key that is down (46_keypad_timers.md R204). -/
def firstKey (k : BitVec 16) : Option RegIdx := allIdx.find? (fun j => k.getLsbD j.val)

end Sys2Proof.Machine
end

