-- ==== Sys2Proof/Machine/Flags.lean ====
section
/-! DEFINITION. The values written to the flag register `VF`, and the order in which result and flag are written
(spec/10_state.md R22, spec/43_alu.md R152). The collision flag of `DRW` is written in Machine/Display.lean. -/

namespace Sys2Proof.Machine

/-- A flag as a register value: 1 or 0. -/
def flagByte (b : Bool) : Byte := if b then 1 else 0

/-- The carry out of bit 7 of `a + b`: the exact sum exceeds 255 (43_alu.md R158). -/
def carryFlag (a b : Byte) : Byte := flagByte (decide (a.toNat + b.toNat > 255))

/-- No borrow in `a − b`: the minuend is strictly greater (43_alu.md R159, R161). -/
def noBorrowFlag (a b : Byte) : Byte := flagByte (decide (a.toNat > b.toNat))

/-- The bit a right shift by one shifts out (43_alu.md R160). -/
def lowBitFlag (a : Byte) : Byte := flagByte (a.getLsbD 0)

/-- The bit a left shift by one shifts out (43_alu.md R162). -/
def highBitFlag (a : Byte) : Byte := flagByte (a.getLsbD 7)

/-- The result to `V[x]`, and the flag to `VF` last, so that with `x = 15` the flag remains (43_alu.md R152). -/
def State.setResultFlag (s : State) (x : RegIdx) (result flag : Byte) : State :=
  (s.setReg x result).setReg vf flag

end Sys2Proof.Machine
end

