-- ==== Sys2Proof/Machine/Alu.lean ====
section
/-! DEFINITION. Register-register ALU instructions (spec/43_alu.md). -/

namespace Sys2Proof.Machine

/-- `LD Vx, Vy` (R151). -/
def execLdReg (x y : RegIdx) (s : State) : Result := .next (s.setReg x (s.reg y)).advance

/-- `OR Vx, Vy` (R153): `VF` is not touched. -/
def execOrReg (x y : RegIdx) (s : State) : Result := .next (s.setReg x (s.reg x ||| s.reg y)).advance

/-- `AND Vx, Vy` (R154): `VF` is not touched. -/
def execAndReg (x y : RegIdx) (s : State) : Result := .next (s.setReg x (s.reg x &&& s.reg y)).advance

/-- `XOR Vx, Vy` (R155): `VF` is not touched. -/
def execXorReg (x y : RegIdx) (s : State) : Result := .next (s.setReg x (s.reg x ^^^ s.reg y)).advance

/-- `ADD Vx, Vy` (R158). -/
def execAddReg (x y : RegIdx) (s : State) : Result :=
  .next (s.setResultFlag x (s.reg x + s.reg y) (carryFlag (s.reg x) (s.reg y))).advance

/-- `SUB Vx, Vy` (R159): `V[x] − V[y]`. -/
def execSubReg (x y : RegIdx) (s : State) : Result :=
  .next (s.setResultFlag x (s.reg x - s.reg y) (noBorrowFlag (s.reg x) (s.reg y))).advance

/-- `SHR Vx` (R160): `y` is ignored. -/
def execShr (x _y : RegIdx) (s : State) : Result :=
  .next (s.setResultFlag x (s.reg x >>> 1) (lowBitFlag (s.reg x))).advance

/-- `SUBN Vx, Vy` (R161): `V[y] − V[x]`. -/
def execSubnReg (x y : RegIdx) (s : State) : Result :=
  .next (s.setResultFlag x (s.reg y - s.reg x) (noBorrowFlag (s.reg y) (s.reg x))).advance

/-- `SHL Vx` (R162): `y` is ignored. -/
def execShl (x _y : RegIdx) (s : State) : Result :=
  .next (s.setResultFlag x (s.reg x <<< 1) (highBitFlag (s.reg x))).advance

end Sys2Proof.Machine
end

