-- ==== Sys2Proof/Machine/Control.lean ====
section
/-! DEFINITION. Control transfer (spec/40_control_transfer.md). -/

namespace Sys2Proof.Machine

/-- `RET` (R121): pop the address of the `CALL` and add 2, or `StackUnderflow`. -/
def execRet (s : State) : Result :=
  match s.pop with
  | some (a, t) => .next (t.setPc (a + 2))
  | none => s.raiseIn .ret .stackUnderflow none

/-- `JP nnn` (R122). -/
def execJp (nnn : Addr12) (s : State) : Result := .next (s.setPc (absAddr nnn))

/-- `CALL nnn` (R123): push the address of the `CALL` itself, or `StackOverflow`. -/
def execCall (nnn : Addr12) (s : State) : Result :=
  match s.push with
  | some t => .next (t.setPc (absAddr nnn))
  | none => s.raiseIn (.call nnn) .stackOverflow none

/-- `JP V0, nnn` (R126): the sum is not truncated to 12 bits. -/
def execJpV0 (nnn : Addr12) (s : State) : Result :=
  .next (s.setPc (offsetOf (s.reg v0) + absAddr nnn))

end Sys2Proof.Machine
end

