-- ==== Sys2Proof/Machine/Display.lean ====
section
/-! DEFINITION. Display instructions (spec/45_display.md). The loops of `DRW` read `V[x]` and `V[y]` at each use, as
the pseudocode of R192 does (R193). -/

namespace Sys2Proof.Machine

/-- `CLS` (R190). -/
def execCls (s : State) : Result := .next s.clearFb.markDirty.advance

/-- Flip a pixel; if it was 1 it is now 0, and `VF <- 1` (R192). -/
def State.flipPixel (s : State) (row : Fin 32) (col : Fin 64) : State :=
  let t := s.setPixel row col (!s.pixel row col)
  if t.pixel row col then t else t.setReg vf 1

/-- The columns `c` of one sprite row `b` on screen row `row`: a 1 bit flips the pixel at
`(V[x] mod 64) + c`, and a column of 64 or more ends the row (R192, R194). -/
def drawCols (x : RegIdx) (row : Fin 32) (b : Byte) : List Nat → State → State
  | [], s => s
  | c :: cs, s =>
    if spriteBit b c then
      if h : spriteLeft (s.reg x) + c < 64 then
        drawCols x row b cs (s.flipPixel row ⟨spriteLeft (s.reg x) + c, h⟩)
      else s
    else drawCols x row b cs s

/-- The columns of a sprite row in ascending order. -/
def spriteCols : List Nat := [0, 1, 2, 3, 4, 5, 6, 7]

/-- The next `k` rows of the sprite, the first of them row `r`: a target row of 32 or more ends the sprite without
reading its byte; else the byte at `I + r` is read and drawn (R192). -/
def drawRows (x y : RegIdx) : Nat → Nat → State → Except Nat State
  | 0, _, s => .ok s
  | k + 1, r, s =>
    if h : spriteTop (s.reg y) + r < 32 then
      match s.memRead (s.i.toNat + r) with
      | .ok b => drawRows x y k (r + 1) (drawCols x ⟨spriteTop (s.reg y) + r, h⟩ b spriteCols s)
      | .error a => .error a
    else .ok s

/-- `DRW Vx, Vy, n` (R192): `VF` is cleared first, and the framebuffer is marked dirty. -/
def execDrw (x y : RegIdx) (n : Nat) (s : State) : Result :=
  s.finishAccess (.drw x y n) ((drawRows x y n 0 (s.setReg vf 0)).map State.markDirty)

end Sys2Proof.Machine
end

