-- ==== Sys2Proof/Machine/Immediate.lean ====
section
/-! DEFINITION. Register-immediate instructions (spec/42_immediate.md). -/

namespace Sys2Proof.Machine

/-- `LD Vx, nn` (R141). -/
def execLdImm (x : RegIdx) (nn : Byte) (s : State) : Result := .next (s.setReg x nn).advance

/-- `ADD Vx, nn` (R142): wraps modulo 256, no flag. -/
def execAddImm (x : RegIdx) (nn : Byte) (s : State) : Result := .next (s.setReg x (s.reg x + nn)).advance

/-- `RND Vx, nn` (R144): the byte on `rnd_i` in this cycle, a free value, and the mask. -/
def execRnd (x : RegIdx) (nn : Byte) (s : State) : Result := .next (s.setReg x (s.portsIn.rnd &&& nn)).advance

end Sys2Proof.Machine
end

