-- ==== Sys2Proof/Machine/IndexMemory.lean ====
section
/-! DEFINITION. Index register and memory instructions (spec/44_index_memory.md). -/

namespace Sys2Proof.Machine

/-- `LD I, nnn` (R171). -/
def execLdI (nnn : Addr12) (s : State) : Result := .next (s.setI (absAddr nnn)).advance

/-- `ADD I, Vx` (R173): wraps modulo 65536, no flag. -/
def execAddI (x : RegIdx) (s : State) : Result := .next (s.setI (s.i + offsetOf (s.reg x))).advance

/-- `LD F, Vx` (R175). -/
def execLdF (x : RegIdx) (s : State) : Result := .next (s.setI (glyphAddr (s.reg x))).advance

/-- `LD B, Vx` (R176): the three digits at `I`, `I + 1`, `I + 2`; `I` is not changed. -/
def execLdB (x : RegIdx) (s : State) : Result :=
  s.finishAccess (.ldB x) (s.memWriteBytes s.i.toNat (bcdDigits (s.reg x)))

/-- The loop of `LD [I], Vx`: store each register at `I` and advance `I` (R178). -/
def dumpRegs : List RegIdx → State → Except Nat State
  | [], s => .ok s
  | r :: rest, s =>
    match s.memWrite s.i.toNat (s.reg r) with
    | .ok t => dumpRegs rest t.incI
    | .error a => .error a

/-- `LD [I], Vx` (R178). -/
def execDump (x : RegIdx) (s : State) : Result := s.finishAccess (.dump x) (dumpRegs (regsUpTo x) s)

/-- The loop of `LD Vx, [I]`: load each register from `I` and advance `I` (R180). -/
def loadRegs : List RegIdx → State → Except Nat State
  | [], s => .ok s
  | r :: rest, s =>
    match s.memRead s.i.toNat with
    | .ok b => loadRegs rest (s.setReg r b).incI
    | .error a => .error a

/-- `LD Vx, [I]` (R180). -/
def execLoad (x : RegIdx) (s : State) : Result := s.finishAccess (.load x) (loadRegs (regsUpTo x) s)

end Sys2Proof.Machine
end

