-- ==== Sys2Proof/Machine/KeypadTimers.lean ====
section
/-! DEFINITION. Keypad and timer instructions (spec/46_keypad_timers.md). They see the latch `K` and the timers as
this cycle's tick has not yet changed them (R200). -/

namespace Sys2Proof.Machine

/-- `SKP Vx` (R201): the whole of `V[x]` is the key number; above 15 it is a fault (R207). -/
def execSkp (x : RegIdx) (s : State) : Result :=
  if (s.reg x).toNat > 15 then s.raiseIn (.skp x) .keyIndexOutOfRange (some (s.reg x).toNat)
  else .next (s.skipIf (s.k.getLsbD (s.reg x).toNat))

/-- `SKNP Vx` (R202): as `SKP`, for a key that is not pressed. -/
def execSknp (x : RegIdx) (s : State) : Result :=
  if (s.reg x).toNat > 15 then s.raiseIn (.sknp x) .keyIndexOutOfRange (some (s.reg x).toNat)
  else .next (s.skipIf (!s.k.getLsbD (s.reg x).toNat))

/-- `LD Vx, DT` (R203). -/
def execLdVxDT (x : RegIdx) (s : State) : Result := .next (s.setReg x s.dt).advance

/-- `LD Vx, K` (R204): with no key down nothing is written and `PC` stays. -/
def execLdVxK (x : RegIdx) (s : State) : Result :=
  match firstKey s.k with
  | some j => .next (s.setReg x (BitVec.ofNat 8 j.val)).advance
  | none => .next s

/-- `LD DT, Vx` (R205). -/
def execLdDTVx (x : RegIdx) (s : State) : Result := .next (s.setDt (s.reg x)).advance

/-- `LD ST, Vx` (R206). -/
def execLdSTVx (x : RegIdx) (s : State) : Result := .next (s.setSt (s.reg x)).advance

end Sys2Proof.Machine
end

