-- ==== Sys2Proof/Machine/Cycle.lean ====
section
/-! DEFINITION. The machine cycle, phase by phase (spec/60_exceptions.md R221). -/

namespace Sys2Proof.Machine

/-- Phase 1, the keypad: all 16 bits of `keys_i` are copied into `K` (R222). -/
def State.sampleKeys (s : State) : State := { s with k := s.portsIn.keys }

/-- The rest of a cycle with `quit_i = 1`: the machine halts; no fetch, no tick, nothing presented, no tone, no
fault (R223). -/
def State.quitCycle (s : State) : State :=
  { s with run := .halted, presentO := false, toneO := false }.consumeInput

/-- A cycle of a halted machine changes no state, ignores its inputs and drives `present_o` and `tone_o` low
(R224; log entry 9). -/
def State.haltedCycle (s : State) : State := { s with presentO := false, toneO := false }

/-- `MemRead(PC, 2)`: the instruction word, big-endian, or the address of an `AddressOutOfRange`
(20_memory.md R66). -/
def State.fetch (s : State) : Except Nat Word :=
  match s.memRead s.pc.toNat with
  | .error a => .error a
  | .ok hi =>
    match s.memRead (s.pc.toNat + 1) with
    | .error a => .error a
    | .ok lo => .ok (wordOfBytes hi lo)

/-- A timer tick of one timer: down by 1, and 0 stays 0 (R241). -/
def tickByte (b : Byte) : Byte := if b = 0 then 0 else b - 1

/-- Phase 3: both timers tick when `tick_i = 1` (R241). -/
def State.tickTimers (s : State) : State :=
  if s.portsIn.tick then { s with dt := tickByte s.dt, st := tickByte s.st } else s

/-- Phase 4: `present_o <- dirty ; dirty <- 0` (R244). -/
def State.present (s : State) : State := { s with presentO := s.dirty, dirty := false }

/-- Phase 5: `tone_o` is 1 if `ST ≠ 0` after the tick (R245). -/
def State.tone (s : State) : State := { s with toneO := s.st != 0 }

/-- What follows phase 2: phases 3, 4 and 5, unless a fault ended the cycle (R221, R232). -/
def State.endCycle (s : State) : State :=
  match s.run with
  | .running => s.tickTimers.present.tone.consumeInput
  | .halted => s.consumeInput

/-- Phase 2: fetch, decode and perform one instruction (R225), a fetch that fails and an illegal word being faults
of the cycle (20_memory.md R66, 30_encoding.md R108), and then the rest of the cycle. -/
def State.execCycle (s : State) : Result :=
  match s.fetch with
  | .error a => .next (s.raise .addressOutOfRange none (some a)).endCycle
  | .ok w =>
    match decodeWord w with
    | .error _ => .next (s.raise .decodeFault (some w) none).endCycle
    | .ok i =>
      match exec i s with
      | .next t => .next t.endCycle
      | .fault f => .fault f
      | .refused r => .refused r

/-- One cycle (R221), its events in the order of R234. -/
def State.runCycle (s : State) : Result :=
  match s.run with
  | .halted => .next s.haltedCycle
  | .running => if s.portsIn.quit then .next s.sampleKeys.quitCycle else s.sampleKeys.execCycle

/-! ### An instruction placed for the very next cycle -/

/-- The inputs of a cycle in which nothing happens outside (95_test_vectors.md: `keys_i = 0`, `quit_i = 0`,
`tick_i = 0`, `rnd_i = 0`). -/
def CycleInput.quiet : CycleInput := ⟨0, false, false, 0⟩

/-- No quit in the coming cycle: the head of `feed` with `quit_i = 0`, or a quiet cycle where `feed` is empty
(log entry 12). -/
def State.withoutQuit (s : State) : State :=
  { s with feed :=
      match s.feed with
      | [] => [CycleInput.quiet]
      | inp :: rest => { inp with quit := false } :: rest }

/-- An instruction word stored at `PC`, high byte first (20_memory.md R66). -/
def State.storeWordAtPc (s : State) (w : Word) : State :=
  let bytes := bytesOfWord w
  match s.memWriteBytes s.pc.toNat [bytes.1, bytes.2] with
  | .ok t => t
  | .error _ => s

end Sys2Proof.Machine
end

