-- ==== Sys2Proof/Machine/Step.lean ====
section
/-! DEFINITION. One step of the machine is one cycle (spec/60_exceptions.md R220, R221). -/

namespace Sys2Proof.Machine

/-- One step: one machine cycle (60_exceptions.md R221). -/
def step : State → Host.Outcome State Fault Refusal := fun s => s.runCycle

/-- For the host: the state with an instruction word stored at `PC` and the machine ready to run it in the very next
cycle: running, no fault recorded, and no quit request in that cycle (log entry 12). Where `PC` is above 0xFFE no
word can stand there and memory stays as it is. -/
def State.withFetchWord (s : State) (nbits w : Nat) : State :=
  ({ s with run := .running, fault := none }.storeWordAtPc (BitVec.ofNat 16 (w % 2 ^ nbits))).withoutQuit

end Sys2Proof.Machine
end

