-- ==== Sys2Proof/Machine/Ports.lean ====
section
/-! DEFINITION. The output ports that are views of the state (spec/10_state.md R46, R48); `present_o` and `tone_o`
are the fields `presentO` and `toneO`. -/

namespace Sys2Proof.Machine

/-- `fault.code` (60_exceptions.md R230, decision D18). -/
def FaultKind.code : FaultKind → Nat
  | .decodeFault => 1
  | .stackOverflow => 2
  | .stackUnderflow => 3
  | .addressOutOfRange => 4
  | .keyIndexOutOfRange => 5
  | .loadFault => 6

/-- `fault.code` of a state, 0 for none (10_state.md R38). -/
def State.faultCode (s : State) : Nat :=
  match s.fault with
  | none => 0
  | some f => f.kind.code

/-- `halted_o` (10_state.md R48). -/
def State.haltedO (s : State) : Bool := s.run == .halted

/-- `fault_o` (10_state.md R48). -/
def State.faultO (s : State) : Option FaultRecord := s.fault

/-- `fb_o`: bit `row * 64 + col` is pixel `(row, col)` (10_state.md R46). -/
def State.fbO (s : State) : BitVec 2048 :=
  (BitVec.ofBoolListLE
    ((List.finRange 2048).map fun p => s.pixel ⟨p.val / 64, by omega⟩ ⟨p.val % 64, by omega⟩)).setWidth 2048

end Sys2Proof.Machine
end

