-- ==== Sys2Proof/Machine/Reset.lean ====
section
/-! DEFINITION. Reset with a program image (spec/70_reset_and_hazards.md R270 to R276). Reset is not part of a
cycle: the embedding application asserts it (spec/60_exceptions.md R250; log entry 13). -/

namespace Sys2Proof.Machine

/-- Reset with an image (R270): every field at its reset value, the image in memory from 0x200 (R271, R275); an
image of more than 3584 bytes is a `LoadFault`, nothing is loaded, and the machine is halted from the start (R276). -/
def State.resetWith (image : List Byte) : State :=
  if image.length ≤ Config.maxImage then
    { State.reset with mem := Memory.writeBytes [] Config.entry image }
  else
    { State.reset with
      run := .halted
      fault := some ⟨.loadFault, BitVec.ofNat 16 Config.entry, none, some image.length⟩ }

/-- Reset asserted in the state `s` (R250: at any time): nothing of `s` survives but the model's own count of cycles
and the inputs to come. -/
def State.assertReset (s : State) (image : List Byte) : State :=
  { State.resetWith image with feed := s.feed, cycle := s.cycle }

end Sys2Proof.Machine
end

