-- ==== Sys2Proof/Safety.lean ====
section
/-! DEFINITION. What counts as a safe state and as the end of a run, in the terms claims use. -/

namespace Sys2Proof.Machine

/-- The invariant of the machine (10_state.md R27, R52): memory is in canonical form; and while the machine runs no
fault is recorded, `dirty` is 0 between cycles, every live stack entry is an address a `CALL` can be fetched from, and
`PC` is at most 0x10FE. (The ranges of `V`, `DT`, `ST`, `I`, `SP` and the pixels are in the types.) -/
abbrev State.Inv (s : State) : Prop :=
  s.mem.wf ∧
  (s.run = .running →
    s.fault = none ∧ s.dirty = false ∧ s.pc.toNat ≤ 0x10FE ∧
    ∀ j : Fin 16, j.val < s.sp.val → s.stack[j.val].toNat ≤ 0xFFE)

/-- The machine is about to run the instruction word `w`: it is running, no quit is requested in this cycle, and the two
bytes at `PC`, the high byte first, are `w` (20_memory.md R66). -/
def State.AboutToRun (s : State) (w : Word) : Prop :=
  s.run = .running ∧ s.portsIn.quit = false ∧ s.pc.toNat ≤ 0xFFE ∧
  (s.mem.read s.pc.toNat).toNat * 256 + (s.mem.read (s.pc.toNat + 1)).toNat = w.toNat

/-- The machine is halted with this fault record, with nothing presented and no tone (60_exceptions.md R232). -/
def State.StoppedBy (s : State) (f : FaultRecord) : Prop :=
  s.run = .halted ∧ s.fault = some f ∧ s.presentO = false ∧ s.toneO = false

/-- An error end: the machine halted with a fault (60_exceptions.md R233). -/
abbrev State.Faulted (s : State) : Prop := s.run = .halted ∧ s.fault ≠ none

/-- A clean end: the machine halted by a quit request, `fault.code = 0` (70_reset_and_hazards.md R284). -/
abbrev State.CleanEnd (s : State) : Prop := s.run = .halted ∧ s.fault = none

/-- The machine is at a `JP` to itself: the word at `PC` is `JP nnn` with `nnn = PC`
(70_reset_and_hazards.md R284). -/
def State.AtSelfJump (s : State) : Prop :=
  s.run = .running ∧ ∃ w nnn, s.fetch = .ok w ∧ decodeWord w = .ok (.jp nnn) ∧ absAddr nnn = s.pc

/-- The end of a run under a choice of `END_OF_RUN` (00_scope.md R5, 70_reset_and_hazards.md R284, decision D30;
log entry 11). -/
def State.RunEnded (choice : EndOfRun) (s : State) : Prop :=
  match choice with
  | .quitRequest => s.CleanEnd
  | .selfJump => s.AtSelfJump

/-- A safe state: not an error end. -/
def State.Safe (s : State) : Prop := ¬ s.Faulted

end Sys2Proof.Machine
end

