-- ==== Sys2Proof/Certificates/Slice0/Obligations.lean ====
section
/-! DEFINITION. The statements about the machine, each a rule of spec/ or derived from its sections. The words of
instructions are written out as numbers, from spec/30_encoding.md R91 and R100. -/

open Sys2Proof Sys2Proof.Machine

/-! ### Encoding (30_encoding.md) -/

/-- Decoding the word of a well-formed instruction gives it back, every operand at every value (R91, R100, whose opcode
numbers are the spec's decision D2: log entry 1). -/
def Obligations.DecodeOfEncodeIsTheInstruction : Prop :=
  ∀ i : Instr, i.wellFormed = true → decodeWord (encode i) = .ok i

/-- A word that decodes is the word of the instruction it decodes to, and that instruction is well formed: no bit of a
word is dropped (R94), and the word a fault records is the word fetched. -/
def Obligations.EncodeOfDecodeIsTheWord : Prop :=
  ∀ (w : Word) (i : Instr), decodeWord w = .ok i → encode i = w ∧ i.wellFormed = true

/-- A word decodes to an instruction of the one row of R100 that it selects, and to none if it selects none (R94, strict by
the spec's decision D3: log entry 1). -/
def Obligations.DecodeFollowsTheOneSelectedRow : Prop :=
  opcodeRows.length = 34 ∧
  (∀ (w : Word) (i : Instr), decodeWord w = .ok i → i.row ∈ opcodeRows ∧ i.row.selects w = true) ∧
  (∀ (w : Word) (r : OpcodeRow), r ∈ opcodeRows → r.selects w = true →
    ∃ i, decodeWord w = .ok i ∧ i.row = r)

/-- The illegal words as R108 lists them. -/
def Sys2Proof.IllegalWord (w : Word) : Prop :=
  let family := w.toNat / 4096
  let n := w.toNat % 16
  let nn := w.toNat % 256
  (family = 0x0 ∧ w.toNat ≠ 0x00E0 ∧ w.toNat ≠ 0x00EE) ∨
  ((family = 0x5 ∨ family = 0x9) ∧ n ≠ 0) ∨
  (family = 0x8 ∧ (0x8 ≤ n ∧ n ≤ 0xD ∨ n = 0xF)) ∨
  (family = 0xE ∧ nn ≠ 0x9E ∧ nn ≠ 0xA1) ∨
  (family = 0xF ∧ nn ≠ 0x07 ∧ nn ≠ 0x0A ∧ nn ≠ 0x15 ∧ nn ≠ 0x18 ∧ nn ≠ 0x1E ∧ nn ≠ 0x29 ∧ nn ≠ 0x33 ∧
    nn ≠ 0x55 ∧ nn ≠ 0x65)

/-- R108: every word that matches no row is illegal, the illegal words are exactly those listed, and fetching one raises
`DecodeFault(PC, w)`: the machine halts and reports the address and the raw word. -/
def Obligations.WordMatchingNoRowRaisesDecodeFault : Prop :=
  (∀ w : Word, (∀ r ∈ opcodeRows, r.selects w = false) ↔ IllegalWord w) ∧
  (∀ (s : State) (w : Word), s.AboutToRun w → (∀ r ∈ opcodeRows, r.selects w = false) →
    ∃ t, step s = .next t ∧ t.StoppedBy ⟨.decodeFault, s.pc, some w, none⟩)

/-- A word of each family, written out from R100 (decision D2), and a few illegal ones. -/
def Obligations.WordsWrittenOutDecodeToTheirInstructions : Prop :=
  decodeWord 0x00E0 = .ok .cls ∧ decodeWord 0x00EE = .ok .ret ∧
  decodeWord 0x1ABC = .ok (.jp 0xABC) ∧ decodeWord 0x2300 = .ok (.call 0x300) ∧
  decodeWord 0x4A05 = .ok (.sneImm 0xA 0x05) ∧ decodeWord 0x6A05 = .ok (.ldImm 0xA 0x05) ∧
  decodeWord 0x8124 = .ok (.addReg 1 2) ∧ decodeWord 0x812E = .ok (.shl 1 2) ∧
  decodeWord 0xA123 = .ok (.ldI 0x123) ∧ decodeWord 0xD015 = .ok (.drw 0 1 5) ∧
  decodeWord 0xE5A1 = .ok (.sknp 5) ∧ decodeWord 0xF033 = .ok (.ldB 0) ∧ decodeWord 0xF265 = .ok (.load 2) ∧
  decodeWord 0x0000 = .error .family0 ∧ decodeWord 0x5121 = .error .family5 ∧
  decodeWord 0x812F = .error .family8 ∧ decodeWord 0xF0FF = .error .familyF

/-! ### The machine cycle (60_exceptions.md) -/

/-- A step runs the decoded instruction: when the word at `PC` decodes to `i`, the step is `exec i` in the state with
the keys sampled, followed by the rest of the cycle (R221, R225). -/
def Obligations.StepRunsTheDecodedInstruction : Prop :=
  ∀ (s : State) (w : Word) (i : Instr), s.AboutToRun w → decodeWord w = .ok i →
    ∃ t, exec i { s with k := s.portsIn.keys } = .next t ∧ step s = .next t.endCycle

/-- The end of a completed cycle: if the instruction leaves the machine running, both timers tick when `tick_i = 1`,
down by one and never below 0, then the framebuffer is presented if `dirty`, which is cleared, then the tone follows
`ST`; nothing else changes but the model's own carrier of the inputs, `feed` and `cycle` of log entry 2 (R221 phases 3 to 5,
R241, R244 with decision D28, R245). -/
def Obligations.CompletedCycleTicksThenPresentsThenSounds : Prop :=
  ∀ (s : State) (w : Word) (i : Instr) (t : State), s.AboutToRun w → decodeWord w = .ok i →
    exec i { s with k := s.portsIn.keys } = .next t → t.run = .running →
    ∃ u, step s = .next u ∧
      u.dt.toNat = (if s.portsIn.tick then t.dt.toNat - 1 else t.dt.toNat) ∧
      u.st.toNat = (if s.portsIn.tick then t.st.toNat - 1 else t.st.toNat) ∧
      u.toneO = decide (u.st ≠ 0) ∧
      u = { t with dt := u.dt, st := u.st, presentO := t.dirty, dirty := false, toneO := u.toneO,
                   feed := s.feed.tail, cycle := s.cycle + 1 }

/-- A cycle whose instruction faults ends there: the machine is halted with the record, nothing is presented, there is
no tone, and the rest of the state is what the fault left: no tick (R232, decision D19; what the fault left is the model's
free value, log entry 5). -/
def Obligations.FaultedCycleEndsAtTheFault : Prop :=
  ∀ (s : State) (w : Word) (i : Instr) (t : State), s.AboutToRun w → decodeWord w = .ok i →
    exec i { s with k := s.portsIn.keys } = .next t → t.run = .halted →
    ∃ f, t.StoppedBy f ∧ f.pc = s.pc ∧ f.word = some w ∧
      step s = .next { t with feed := s.feed.tail, cycle := s.cycle + 1 }

/-- A fetch outside memory halts the machine: `AddressOutOfRange(PC)` when `PC > 0xFFF`, `AddressOutOfRange(0x1000)`
when `PC = 0xFFF`, with no word recorded (20_memory.md R66; R234, decision D20; the shape of the record: log entry 8). -/
def Obligations.FetchOutsideMemoryHalts : Prop :=
  ∀ s : State, s.run = .running → s.portsIn.quit = false → 0xFFE < s.pc.toNat →
    ∃ t, step s = .next t ∧
      t.StoppedBy ⟨.addressOutOfRange, s.pc, none, some (if s.pc.toNat = 0xFFF then 0x1000 else s.pc.toNat)⟩

/-- A quit request halts the machine before anything else of the cycle: `K` is sampled; no fetch, no tick, nothing
presented, no tone, no fault recorded (R223, decision D29; the used-up inputs `feed` and `cycle`: log entry 2). -/
def Obligations.QuitHaltsBeforeTheFetch : Prop :=
  ∀ s : State, s.run = .running → s.portsIn.quit = true →
    step s = .next { s with k := s.portsIn.keys, run := .halted, presentO := false, toneO := false,
                            feed := s.feed.tail, cycle := s.cycle + 1 }

/-- A halted machine changes no state, whatever its inputs; `present_o` and `tone_o` are low (R224, decision D22; the outputs
as fields: log entries 4 and 9). -/
def Obligations.HaltedMachineChangesNothing : Prop :=
  ∀ s : State, s.run = .halted → step s = .next { s with presentO := false, toneO := false }

/-- The machine always goes on: every step answers a next state, a fault and a halt among them (R221, R232; that a fault of
the machine is a next state is the model's choice, log entry 6). -/
def Obligations.EveryStepAnswersANextState : Prop :=
  ∀ s : State, ∃ t, step s = .next t

/-- R222: at the start of every running cycle all 16 key bits are copied into `K`; the instruction of this cycle sees
these values and no others, so what `K` held before makes no difference. -/
def Obligations.KeysAreSampledAtTheStartOfTheCycle : Prop :=
  (∀ s t : State, s.run = .running → step s = .next t → (t.run = .running ∨ s.portsIn.quit = true) →
    t.k = s.portsIn.keys) ∧
  (∀ (s : State) (w : Word) (i : Instr), s.AboutToRun w → decodeWord w = .ok i →
    ∃ t, exec i { s with k := s.portsIn.keys } = .next t ∧ step s = .next t.endCycle) ∧
  (∀ (s : State) (k : BitVec 16), s.run = .running → step { s with k := k } = step s)

/-- R245: after every step, `tone_o` is 1 exactly in a completed cycle at whose end `ST ≠ 0`. -/
def Obligations.ToneSoundsExactlyWhenTheSoundTimerIsNonzero : Prop :=
  ∀ s t : State, step s = .next t →
    (t.toneO = true ↔ s.run = .running ∧ t.run = .running ∧ t.st ≠ 0)

/-- A completed cycle leaves `dirty` at 0, and from `dirty = 0` it presents exactly when its instruction was `CLS` or
`DRW` (R244, decision D28). -/
def Obligations.FramebufferPresentedExactlyAfterDrawing : Prop :=
  ∀ (s : State) (w : Word) (i : Instr) (t : State), s.AboutToRun w → decodeWord w = .ok i → s.dirty = false →
    step s = .next t → t.run = .running →
    t.dirty = false ∧ (t.presentO = true ↔ (i = .cls ∨ ∃ x y n, i = .drw x y n))

/-- A run ends only by a quit request, with no fault recorded, or by a fault (70_reset_and_hazards.md R284,
decision D30). -/
def Obligations.RunEndsOnlyByQuitOrFault : Prop :=
  ∀ s t : State, s.run = .running → s.fault = none → step s = .next t → t.run = .halted →
    (s.portsIn.quit = true ∧ t.CleanEnd) ∨ (s.portsIn.quit = false ∧ t.Faulted)

/-- Every step keeps the invariant: memory in canonical form, and while the machine runs no fault recorded, `dirty`
clear between cycles, live stack entries at most 0xFFE and `PC` at most 0x10FE (10_state.md R27 and R52, inferences the spec
marks as its own: "Invariants every reachable state satisfies"; the canonical form is the model's, log entry 7). -/
def Obligations.StepKeepsTheMachineInvariant : Prop :=
  ∀ s t : State, s.Inv → step s = .next t → t.Inv

/-- The invariant holds after reset, whatever the program image (R52; log entry 13). -/
def Obligations.ResetMeetsTheMachineInvariant : Prop :=
  State.reset.Inv ∧ ∀ image : List Byte, (State.resetWith image).Inv

/-! ### Reset (10_state.md R50, 70_reset_and_hazards.md) -/

/-- What reset leaves with no program loaded, field by field, and the 80 font bytes (R50, 20_memory.md R65). The values
but `PC` rest on the spec's decisions D14 to D17 (log entry 1). -/
def Obligations.ResetLeavesTheStatedValues : Prop :=
  State.reset.pc = 0x200 ∧ (∀ r, State.reset.reg r = 0) ∧ State.reset.i = 0 ∧ State.reset.sp = 0 ∧
  (∀ j : Fin 16, State.reset.stack[j.val] = 0) ∧ State.reset.dt = 0 ∧ State.reset.st = 0 ∧ State.reset.k = 0 ∧
  (∀ r c, State.reset.pixel r c = false) ∧ State.reset.dirty = false ∧ State.reset.run = .running ∧
  State.reset.fault = none ∧ (∀ a, 0x50 ≤ a → State.reset.mem.read a = 0) ∧
  (List.range 80).map State.reset.mem.read =
    [0xF0, 0x90, 0x90, 0x90, 0xF0, 0x20, 0x60, 0x20, 0x20, 0x70, 0xF0, 0x10, 0xF0, 0x80, 0xF0] ++
    [0xF0, 0x10, 0xF0, 0x10, 0xF0, 0x90, 0x90, 0xF0, 0x10, 0x10, 0xF0, 0x80, 0xF0, 0x10, 0xF0] ++
    [0xF0, 0x80, 0xF0, 0x90, 0xF0, 0xF0, 0x10, 0x20, 0x40, 0x40, 0xF0, 0x90, 0xF0, 0x90, 0xF0] ++
    [0xF0, 0x90, 0xF0, 0x10, 0xF0, 0xF0, 0x90, 0xF0, 0x90, 0x90, 0xE0, 0x90, 0xE0, 0x90, 0xE0] ++
    [0xF0, 0x80, 0x80, 0x80, 0xF0, 0xE0, 0x90, 0x90, 0x90, 0xE0, 0xF0, 0x80, 0xF0, 0x80, 0xF0] ++
    [0xF0, 0x80, 0xF0, 0x80, 0x80]

/-- Reset with an image of at most 3584 bytes puts byte `j` at `0x200 + j`, leaves every other byte and every other
field as reset with no image does, and changes nothing of the machine's past into it (R270, R271, R275, decisions D16 and
D23; reset outside `step`: log entry 13). -/
def Obligations.ResetLoadsTheImageFromAddress0x200 : Prop :=
  ∀ (image : List Byte) (s : State), image.length ≤ 3584 →
    s.assertReset image = { State.reset with mem := (State.resetWith image).mem, feed := s.feed, cycle := s.cycle } ∧
    (∀ j (h : j < image.length), (s.assertReset image).mem.read (0x200 + j) = image[j]) ∧
    (∀ a, a < 0x200 ∨ 0x200 + image.length ≤ a → (s.assertReset image).mem.read a = State.reset.mem.read a)

/-- R276: an image of more than 3584 bytes is not written, `fault` is `LoadFault` with the length, the machine is halted
from the start and no cycle executes; an image of exactly 3584 bytes fills memory to 0xFFF; an empty image is accepted
and the first cycle, unless a quit is requested in it, raises `DecodeFault` at 0x200 on the word 0x0000. R276 does not say
how the model holds this: that reset is an operation beside `step` is log entry 13, that the outputs are low right after
reset (and so a halted step changes nothing) is the model's choice of log entry 4, and what a record leaves empty is log
entry 8. -/
def Obligations.OversizedImageIsALoadFault : Prop :=
  (∀ image : List Byte, 3584 < image.length →
    (State.resetWith image).StoppedBy ⟨.loadFault, 0x200, none, some image.length⟩ ∧
    (∀ a, (State.resetWith image).mem.read a = State.reset.mem.read a) ∧
    step (State.resetWith image) = .next (State.resetWith image)) ∧
  (∀ image : List Byte, image.length ≤ 3584 →
    (State.resetWith image).run = .running ∧ (State.resetWith image).fault = none) ∧
  (∀ image : List Byte, image.length = 3584 →
    ∀ j (h : j < image.length), (State.resetWith image).mem.read (0x200 + j) = image[j]) ∧
  (∀ (inp : CycleInput) (rest : List CycleInput), inp.quit = false →
    ∃ t, step { State.resetWith [] with feed := inp :: rest } = .next t ∧
      t.StoppedBy ⟨.decodeFault, 0x200, some 0x0000, none⟩)

/-! ### Memory primitives and ports (20_memory.md, 10_state.md) -/

/-- R62, R63: `MemRead` at an address up to 0xFFF gives that byte (it answers no state, so it changes none); `MemWrite`
there makes that byte `v` and changes nothing else; above 0xFFF both raise `AddressOutOfRange(addr)`. -/
def Obligations.MemoryAccessesAreBoundsChecked : Prop :=
  ∀ (s : State) (a : Nat) (v : Byte),
    (a ≤ 0xFFF → s.memRead a = .ok (s.mem.read a) ∧
      ∃ t, s.memWrite a v = .ok t ∧ t = { s with mem := t.mem } ∧ t.mem.read a = v ∧
        ∀ b, b ≠ a → t.mem.read b = s.mem.read b) ∧
    (0xFFF < a → s.memRead a = .error a ∧ s.memWrite a v = .error a)

/-- `fb_o`: pixel `(row, col)` stands at bit `row * 64 + col` (10_state.md R46). -/
def Obligations.FramebufferPortIsRowMajor : Prop :=
  ∀ (s : State) (row : Fin 32) (col : Fin 64), s.fbO.getLsbD (row.val * 64 + col.val) = s.pixel row col

/-! ### Control transfer (40_control_transfer.md) -/

/-- R122: `JP nnn` sets `PC` to `nnn` and changes nothing else; it raises no fault; `JP a` at address `a` leaves the whole
state unchanged; after `JP 0xFFF` the next fetch faults with `AddressOutOfRange(0x1000)`. -/
def Obligations.JumpSetsTheProgramCounter : Prop :=
  (∀ nnn : Addr12, decodeWord (BitVec.ofNat 16 (0x1000 + nnn.toNat)) = .ok (.jp nnn)) ∧
  (∀ (s : State) (nnn : Addr12), exec (.jp nnn) s = .next { s with pc := BitVec.ofNat 16 nnn.toNat }) ∧
  (∀ (s : State) (nnn : Addr12), nnn.toNat = s.pc.toNat → exec (.jp nnn) s = .next s) ∧
  (∀ s t : State, exec (.jp 0xFFF) s = .next t → t.run = .running → t.portsIn.quit = false →
    ∃ u, step t = .next u ∧ u.StoppedBy ⟨.addressOutOfRange, 0xFFF, none, some 0x1000⟩)

/-- `CALL nnn` with room on the stack pushes its own address, advances `SP` and jumps, `PC` not advanced after it (decision
D7); with 16 entries it raises `StackOverflow(PC, w)` (R123). -/
def Obligations.CallPushesItsOwnAddress : Prop :=
  ∀ (s : State) (nnn : Addr12),
    decodeWord (BitVec.ofNat 16 (0x2000 + nnn.toNat)) = .ok (.call nnn) ∧
    (∀ h : s.sp.val < 16, ∃ t, exec (.call nnn) s = .next t ∧ t.sp.val = s.sp.val + 1 ∧
      t = { s with stack := s.stack.set s.sp.val s.pc, sp := t.sp, pc := BitVec.ofNat 16 nnn.toNat }) ∧
    (s.sp.val = 16 → ∃ t, exec (.call nnn) s = .next t ∧
      t.StoppedBy ⟨.stackOverflow, s.pc, some (BitVec.ofNat 16 (0x2000 + nnn.toNat)), none⟩)

/-- `RET` with an entry on the stack pops it into `PC` and adds 2, and changes only `SP` and `PC`; with an empty stack it
raises `StackUnderflow(PC, w)` (R121). -/
def Obligations.ReturnPopsAndAddsTwo : Prop :=
  decodeWord 0x00EE = .ok .ret ∧
  ∀ s : State,
    (∀ h : 0 < s.sp.val, ∃ t, exec .ret s = .next t ∧ t.sp.val + 1 = s.sp.val ∧
      t = { s with sp := t.sp, pc := s.stack[s.sp.val - 1]'(by have := s.sp.isLt; omega) + 2 }) ∧
    (s.sp.val = 0 → ∃ t, exec .ret s = .next t ∧ t.StoppedBy ⟨.stackUnderflow, s.pc, some 0x00EE, none⟩)

/-- R124: `CALL` at address `a` with `SP = s < 16` gives `S[s] = a`, `SP = s + 1`, `PC = nnn`; a `RET` executed while
`SP = s + 1` and that entry stands gives `SP = s`, `PC = a + 2`, in particular the `RET` right after (an inference the spec
marks as its own). -/
def Obligations.CallThenReturnComesBackAfterTheCall : Prop :=
  ∀ (s : State) (nnn : Addr12), ∀ h : s.sp.val < 16,
    ∃ t, exec (.call nnn) s = .next t ∧ t.stack[s.sp.val] = s.pc ∧ t.sp.val = s.sp.val + 1 ∧
      t.pc.toNat = nnn.toNat ∧
      ∀ u : State, u.sp = t.sp → u.stack[s.sp.val] = s.pc →
        ∃ r, exec .ret u = .next r ∧ r.sp = s.sp ∧ r.pc = s.pc + 2

/-- `JP V0, nnn` sets `PC` to the exact sum of `V[0]` and `nnn`, never wrapped, and changes nothing else (R126, decisions
D7 and D8). -/
def Obligations.JumpWithOffsetAddsV0 : Prop :=
  ∀ (s : State) (nnn : Addr12),
    decodeWord (BitVec.ofNat 16 (0xB000 + nnn.toNat)) = .ok (.jpV0 nnn) ∧
    ∃ t, exec (.jpV0 nnn) s = .next t ∧ t.pc.toNat = (s.reg 0).toNat + nnn.toNat ∧ t = { s with pc := t.pc }

/-! ### Skips (41_skips.md) -/

/-- R131, R132: the skips on an immediate compare all 8 bits of `V[x]`, advance `PC` by 4 or 2, and change nothing else;
they raise no fault. -/
def Obligations.SkipsOnAnImmediate : Prop :=
  ∀ (s : State) (x : RegIdx) (nn : Byte),
    decodeWord (BitVec.ofNat 16 (0x3000 + x.val * 0x100 + nn.toNat)) = .ok (.seImm x nn) ∧
    exec (.seImm x nn) s = .next { s with pc := if (s.reg x).toNat = nn.toNat then s.pc + 4 else s.pc + 2 } ∧
    decodeWord (BitVec.ofNat 16 (0x4000 + x.val * 0x100 + nn.toNat)) = .ok (.sneImm x nn) ∧
    exec (.sneImm x nn) s = .next { s with pc := if (s.reg x).toNat = nn.toNat then s.pc + 2 else s.pc + 4 }

/-- R133, R134: the skips on two registers; the low nibble of their words is 0, and any other is illegal; `5XX0` always
skips and `9XX0` never. -/
def Obligations.SkipsOnTwoRegisters : Prop :=
  ∀ (s : State) (x y : RegIdx),
    decodeWord (BitVec.ofNat 16 (0x5000 + x.val * 0x100 + y.val * 0x10)) = .ok (.seReg x y) ∧
    exec (.seReg x y) s = .next { s with pc := if (s.reg x).toNat = (s.reg y).toNat then s.pc + 4 else s.pc + 2 } ∧
    decodeWord (BitVec.ofNat 16 (0x9000 + x.val * 0x100 + y.val * 0x10)) = .ok (.sneReg x y) ∧
    exec (.sneReg x y) s = .next { s with pc := if (s.reg x).toNat = (s.reg y).toNat then s.pc + 2 else s.pc + 4 } ∧
    (∀ n, 1 ≤ n → n ≤ 15 →
      (∃ why, decodeWord (BitVec.ofNat 16 (0x5000 + x.val * 0x100 + y.val * 0x10 + n)) = .error why) ∧
      (∃ why, decodeWord (BitVec.ofNat 16 (0x9000 + x.val * 0x100 + y.val * 0x10 + n)) = .error why)) ∧
    exec (.seReg x x) s = .next { s with pc := s.pc + 4 } ∧ exec (.sneReg x x) s = .next { s with pc := s.pc + 2 }

/-! ### Register-immediate instructions (42_immediate.md) -/

/-- R141, R142: `LD Vx, nn` writes the immediate, `ADD Vx, nn` the sum modulo 256; nothing else changes but `PC`, and no
flag is written. -/
def Obligations.LoadAndAddImmediate : Prop :=
  ∀ (s : State) (x : RegIdx) (nn : Byte),
    decodeWord (BitVec.ofNat 16 (0x6000 + x.val * 0x100 + nn.toNat)) = .ok (.ldImm x nn) ∧
    exec (.ldImm x nn) s = .next { s with v := s.v.set x.val nn, pc := s.pc + 2 } ∧
    decodeWord (BitVec.ofNat 16 (0x7000 + x.val * 0x100 + nn.toNat)) = .ok (.addImm x nn) ∧
    exec (.addImm x nn) s =
      .next { s with v := s.v.set x.val (BitVec.ofNat 8 (((s.reg x).toNat + nn.toNat) % 256)), pc := s.pc + 2 }

/-- `RND Vx, nn` writes the byte on `rnd_i` in this cycle and the mask, whatever that byte is: every bit outside the mask
is 0 (R144; the byte is a free input, decision D13 and log entry 2). -/
def Obligations.RandomByteIsMasked : Prop :=
  ∀ (s : State) (x : RegIdx) (nn : Byte),
    decodeWord (BitVec.ofNat 16 (0xC000 + x.val * 0x100 + nn.toNat)) = .ok (.rnd x nn) ∧
    ∃ t, exec (.rnd x nn) s = .next t ∧
      (∀ j, (t.reg x).getLsbD j = (s.portsIn.rnd.getLsbD j && nn.getLsbD j)) ∧
      (t.reg x) &&& ~~~nn = 0 ∧ (∀ r, r ≠ x → t.reg r = s.reg r) ∧ t = { s with v := t.v, pc := s.pc + 2 }

/-! ### Register-register instructions (43_alu.md) -/

/-- `LD Vx, Vy` copies `V[y]` to `V[x]` and changes nothing else but `PC` (R151, the spec's decision D4: log entry 1). -/
def Obligations.RegisterCopy : Prop :=
  ∀ (s : State) (x y : RegIdx),
    decodeWord (BitVec.ofNat 16 (0x8000 + x.val * 0x100 + y.val * 0x10)) = .ok (.ldReg x y) ∧
    ∃ t, exec (.ldReg x y) s = .next t ∧ t.reg x = s.reg y ∧ (∀ r, r ≠ x → t.reg r = s.reg r) ∧
      t = { s with v := t.v, pc := s.pc + 2 }

/-- R153, R154, R155: `OR`, `AND` and `XOR` combine the registers bit by bit into `V[x]` and touch nothing else but `PC`:
`VF` is unchanged unless `x = 15`. -/
def Obligations.LogicOperationsTouchNoFlag : Prop :=
  ∀ (s : State) (x y : RegIdx),
    decodeWord (BitVec.ofNat 16 (0x8001 + x.val * 0x100 + y.val * 0x10)) = .ok (.orReg x y) ∧
    (∃ t, exec (.orReg x y) s = .next t ∧
      (∀ j, (t.reg x).getLsbD j = ((s.reg x).getLsbD j || (s.reg y).getLsbD j)) ∧
      (∀ r, r ≠ x → t.reg r = s.reg r) ∧ t = { s with v := t.v, pc := s.pc + 2 }) ∧
    decodeWord (BitVec.ofNat 16 (0x8002 + x.val * 0x100 + y.val * 0x10)) = .ok (.andReg x y) ∧
    (∃ t, exec (.andReg x y) s = .next t ∧
      (∀ j, (t.reg x).getLsbD j = ((s.reg x).getLsbD j && (s.reg y).getLsbD j)) ∧
      (∀ r, r ≠ x → t.reg r = s.reg r) ∧ t = { s with v := t.v, pc := s.pc + 2 }) ∧
    decodeWord (BitVec.ofNat 16 (0x8003 + x.val * 0x100 + y.val * 0x10)) = .ok (.xorReg x y) ∧
    (∃ t, exec (.xorReg x y) s = .next t ∧
      (∀ j, (t.reg x).getLsbD j = ((s.reg x).getLsbD j != (s.reg y).getLsbD j)) ∧
      (∀ r, r ≠ x → t.reg r = s.reg r) ∧ t = { s with v := t.v, pc := s.pc + 2 })

/-- R158: `ADD Vx, Vy` writes the sum modulo 256 to `V[x]`, then the carry to `VF`, and changes nothing else but `PC`. -/
def Obligations.AddSetsTheCarryFlag : Prop :=
  ∀ (s : State) (x y : RegIdx),
    decodeWord (BitVec.ofNat 16 (0x8004 + x.val * 0x100 + y.val * 0x10)) = .ok (.addReg x y) ∧
    exec (.addReg x y) s =
      .next { s with
        v := (s.v.set x.val (BitVec.ofNat 8 (((s.reg x).toNat + (s.reg y).toNat) % 256))).set 15
          (if (s.reg x).toNat + (s.reg y).toNat > 255 then 1 else 0)
        pc := s.pc + 2 }

/-- R159, R161: `SUB` and `SUBN` write the difference modulo 256 to `V[x]`, then 1 to `VF` exactly when the minuend is
strictly greater, and change nothing else but `PC`. -/
def Obligations.SubtractionsSetNoBorrowStrictly : Prop :=
  ∀ (s : State) (x y : RegIdx),
    decodeWord (BitVec.ofNat 16 (0x8005 + x.val * 0x100 + y.val * 0x10)) = .ok (.subReg x y) ∧
    exec (.subReg x y) s =
      .next { s with
        v := (s.v.set x.val (BitVec.ofNat 8 ((256 + (s.reg x).toNat - (s.reg y).toNat) % 256))).set 15
          (if (s.reg x).toNat > (s.reg y).toNat then 1 else 0)
        pc := s.pc + 2 } ∧
    decodeWord (BitVec.ofNat 16 (0x8007 + x.val * 0x100 + y.val * 0x10)) = .ok (.subnReg x y) ∧
    exec (.subnReg x y) s =
      .next { s with
        v := (s.v.set x.val (BitVec.ofNat 8 ((256 + (s.reg y).toNat - (s.reg x).toNat) % 256))).set 15
          (if (s.reg y).toNat > (s.reg x).toNat then 1 else 0)
        pc := s.pc + 2 }

/-- R160, R162: `SHR` and `SHL` shift `V[x]` by one in place and write the bit shifted out to `VF` last, whatever the `y`
field is, and change nothing else but `PC`. -/
def Obligations.ShiftsWriteTheBitShiftedOut : Prop :=
  ∀ (s : State) (x y : RegIdx),
    decodeWord (BitVec.ofNat 16 (0x8006 + x.val * 0x100 + y.val * 0x10)) = .ok (.shr x y) ∧
    exec (.shr x y) s =
      .next { s with
        v := (s.v.set x.val (BitVec.ofNat 8 ((s.reg x).toNat / 2))).set 15 (BitVec.ofNat 8 ((s.reg x).toNat % 2))
        pc := s.pc + 2 } ∧
    decodeWord (BitVec.ofNat 16 (0x800E + x.val * 0x100 + y.val * 0x10)) = .ok (.shl x y) ∧
    exec (.shl x y) s =
      .next { s with
        v := (s.v.set x.val (BitVec.ofNat 8 ((s.reg x).toNat * 2 % 256))).set 15
          (BitVec.ofNat 8 ((s.reg x).toNat / 128))
        pc := s.pc + 2 }

/-- The five instructions of R152, each with its result and its flag, computed from the operands read first. -/
def Sys2Proof.Machine.flagInstrs (s : State) (x y : RegIdx) : List (Instr × Nat × Nat) :=
  let a := (s.reg x).toNat
  let b := (s.reg y).toNat
  [(.addReg x y, (a + b) % 256, (a + b) / 256), (.subReg x y, (256 + a - b) % 256, if a > b then 1 else 0),
    (.shr x y, a / 2, a % 2), (.subnReg x y, (256 + b - a) % 256, if b > a then 1 else 0),
    (.shl x y, a * 2 % 256, a / 128)]

/-- R152: in the five flag-writing instructions the result and the flag are both computed from the operands as they were,
the result goes to `V[x]` and the flag to `V[15]` last: with `x = 15` the flag remains, with `y = 15` the old `VF` is the
operand. -/
def Obligations.FlagIsComputedFirstAndWrittenLast : Prop :=
  ∀ (s : State) (x y : RegIdx) (i : Instr) (result flag : Nat), (i, result, flag) ∈ flagInstrs s x y →
    ∃ t, exec i s = .next t ∧ (t.reg 15).toNat = flag ∧ (x ≠ 15 → (t.reg x).toNat = result) ∧
      ∀ r, r ≠ x → r ≠ 15 → t.reg r = s.reg r

/-! ### Index and memory (44_index_memory.md) -/

/-- R171, R175: `LD I, nnn` and `LD F, Vx` write `I` and nothing else but `PC`; the whole of `V[x]` is multiplied by 5. -/
def Obligations.LoadIndexAndGlyphAddress : Prop :=
  ∀ (s : State) (x : RegIdx) (nnn : Addr12),
    decodeWord (BitVec.ofNat 16 (0xA000 + nnn.toNat)) = .ok (.ldI nnn) ∧
    (∃ t, exec (.ldI nnn) s = .next t ∧ t.i.toNat = nnn.toNat ∧ t = { s with i := t.i, pc := s.pc + 2 }) ∧
    decodeWord (BitVec.ofNat 16 (0xF029 + x.val * 0x100)) = .ok (.ldF x) ∧
    (∃ t, exec (.ldF x) s = .next t ∧ t.i.toNat = (s.reg x).toNat * 5 ∧ t = { s with i := t.i, pc := s.pc + 2 })

/-- `ADD I, Vx` writes the sum modulo 65536 to `I`, and nothing else but `PC`: no flag (R173, the wrap
is decision D9). -/
def Obligations.AddToIndexWrapsAt65536 : Prop :=
  ∀ (s : State) (x : RegIdx),
    decodeWord (BitVec.ofNat 16 (0xF01E + x.val * 0x100)) = .ok (.addI x) ∧
    (∃ t, exec (.addI x) s = .next t ∧ t.i.toNat = (s.i.toNat + (s.reg x).toNat) % 65536 ∧
      t = { s with i := t.i, pc := s.pc + 2 })

/-- `LD B, Vx`: the hundreds, tens and ones digits at `I`, `I + 1`, `I + 2`, every other byte and `I` unchanged; when one
of the three addresses is outside memory, `AddressOutOfRange` at the first such address (R176). -/
def Obligations.BcdDigitsAreStored : Prop :=
  ∀ (s : State) (x : RegIdx),
    decodeWord (BitVec.ofNat 16 (0xF033 + x.val * 0x100)) = .ok (.ldB x) ∧
    (s.i.toNat ≤ 0xFFD → ∃ t, exec (.ldB x) s = .next t ∧ t = { s with mem := t.mem, pc := s.pc + 2 } ∧
      (t.mem.read s.i.toNat).toNat = (s.reg x).toNat / 100 ∧
      (t.mem.read (s.i.toNat + 1)).toNat = (s.reg x).toNat / 10 % 10 ∧
      (t.mem.read (s.i.toNat + 2)).toNat = (s.reg x).toNat % 10 ∧
      ∀ a, a < s.i.toNat ∨ s.i.toNat + 2 < a → t.mem.read a = s.mem.read a) ∧
    (0xFFD < s.i.toNat → ∃ t, exec (.ldB x) s = .next t ∧
      t.StoppedBy ⟨.addressOutOfRange, s.pc, some (BitVec.ofNat 16 (0xF033 + x.val * 0x100)),
        some (if 0xFFF < s.i.toNat then s.i.toNat else 0x1000)⟩)

/-- `LD [I], Vx`: registers `0` to `x` to the successive addresses from `I`, every other byte unchanged, `I` advanced by
`x + 1` (decision D31); when the last address is outside memory, `AddressOutOfRange` at the first one outside (R178). -/
def Obligations.RegisterDumpStoresAndAdvancesIndex : Prop :=
  ∀ (s : State) (x : RegIdx),
    decodeWord (BitVec.ofNat 16 (0xF055 + x.val * 0x100)) = .ok (.dump x) ∧
    (s.i.toNat + x.val ≤ 0xFFF → ∃ t, exec (.dump x) s = .next t ∧ t.i.toNat = s.i.toNat + x.val + 1 ∧
      t = { s with mem := t.mem, i := t.i, pc := s.pc + 2 } ∧
      (∀ j : RegIdx, j.val ≤ x.val → t.mem.read (s.i.toNat + j.val) = s.reg j) ∧
      ∀ a, a < s.i.toNat ∨ s.i.toNat + x.val < a → t.mem.read a = s.mem.read a) ∧
    (0xFFF < s.i.toNat + x.val → ∃ t, exec (.dump x) s = .next t ∧
      t.StoppedBy ⟨.addressOutOfRange, s.pc, some (BitVec.ofNat 16 (0xF055 + x.val * 0x100)),
        some (if 0xFFF < s.i.toNat then s.i.toNat else 0x1000)⟩)

/-- `LD Vx, [I]`: registers `0` to `x` from the successive addresses from `I`, the registers above `x` and memory
unchanged, `I` advanced by `x + 1`; when the last address is outside memory, `AddressOutOfRange` at the first one outside
(R180). -/
def Obligations.RegisterLoadReadsAndAdvancesIndex : Prop :=
  ∀ (s : State) (x : RegIdx),
    decodeWord (BitVec.ofNat 16 (0xF065 + x.val * 0x100)) = .ok (.load x) ∧
    (s.i.toNat + x.val ≤ 0xFFF → ∃ t, exec (.load x) s = .next t ∧ t.i.toNat = s.i.toNat + x.val + 1 ∧
      t = { s with v := t.v, i := t.i, pc := s.pc + 2 } ∧
      (∀ j : RegIdx, t.reg j = if j.val ≤ x.val then s.mem.read (s.i.toNat + j.val) else s.reg j)) ∧
    (0xFFF < s.i.toNat + x.val → ∃ t, exec (.load x) s = .next t ∧
      t.StoppedBy ⟨.addressOutOfRange, s.pc, some (BitVec.ofNat 16 (0xF065 + x.val * 0x100)),
        some (if 0xFFF < s.i.toNat then s.i.toNat else 0x1000)⟩)

/-- The byte at `a` after `LD [I], Vx`: one of the registers `0` to `x`, or what was there (R178). -/
def Sys2Proof.Machine.byteAfterDump (s : State) (x : RegIdx) (a : Nat) : Nat :=
  if s.i.toNat ≤ a ∧ a ≤ s.i.toNat + x.val then (s.reg (Fin.ofNat 16 (a - s.i.toNat))).toNat else (s.mem.read a).toNat

/-- The byte at `a` after `LD B, Vx`: one of the three digits, or what was there (R176). -/
def Sys2Proof.Machine.byteAfterBcd (s : State) (x : RegIdx) (a : Nat) : Nat :=
  if a = s.i.toNat then (s.reg x).toNat / 100
  else if a = s.i.toNat + 1 then (s.reg x).toNat / 10 % 10
  else if a = s.i.toNat + 2 then (s.reg x).toNat % 10
  else (s.mem.read a).toNat

/-- Every store is seen by the very next fetch: after the cycle of `LD [I], Vx` or of `LD B, Vx`, for every `x` and
wherever the bytes stored lie, the word fetched next is made of the two bytes at the new `PC` as the store left them, the
high byte first (20_memory.md R74, decisions D25 and D1). -/
def Obligations.StoreIsSeenByTheNextFetch : Prop :=
  ∀ (s : State) (x : RegIdx), s.pc.toNat ≤ 0xFFC →
    (s.AboutToRun (BitVec.ofNat 16 (0xF055 + x.val * 0x100)) → s.i.toNat + x.val ≤ 0xFFF →
      ∃ t w, step s = .next t ∧ t.run = .running ∧ t.pc = s.pc + 2 ∧ t.fetch = .ok w ∧
        w.toNat = byteAfterDump s x (s.pc.toNat + 2) * 256 + byteAfterDump s x (s.pc.toNat + 3)) ∧
    (s.AboutToRun (BitVec.ofNat 16 (0xF033 + x.val * 0x100)) → s.i.toNat + 2 ≤ 0xFFF →
      ∃ t w, step s = .next t ∧ t.run = .running ∧ t.pc = s.pc + 2 ∧ t.fetch = .ok w ∧
        w.toNat = byteAfterBcd s x (s.pc.toNat + 2) * 256 + byteAfterBcd s x (s.pc.toNat + 3))

/-! ### Display (45_display.md) -/

/-- R190: `CLS` makes every pixel 0 and sets `dirty`, whatever the framebuffer was, and changes nothing else but `PC`. -/
def Obligations.ClearScreenZeroesEveryPixel : Prop :=
  decodeWord 0x00E0 = .ok .cls ∧
  ∀ s : State, ∃ t, exec .cls s = .next t ∧ (∀ row col, t.pixel row col = false) ∧
    t = { s with fb := t.fb, dirty := true, pc := s.pc + 2 }

/-- Is pixel `(row, col)` one of the set `P` of R194: under a 1 bit of the sprite of height `n` at `I`, its top edge at
`V[y] mod 32` and its left edge at `V[x] mod 64`, clipped at the right and bottom edges? -/
def Sys2Proof.Machine.spritePixel (s : State) (x y : RegIdx) (n : Nat) (row : Fin 32) (col : Fin 64) : Bool :=
  let top := (s.reg y).toNat % 32
  let left := (s.reg x).toNat % 64
  decide (top ≤ row.val ∧ row.val < top + n ∧ left ≤ col.val ∧ col.val ≤ left + 7) &&
    (s.mem.read (s.i.toNat + (row.val - top))).getLsbD (7 - (col.val - left))

/-- Every row of the sprite that is on the screen lies in memory (R192: rows clipped off the bottom are not read). -/
def Sys2Proof.Machine.SpriteReadable (s : State) (y : RegIdx) (n : Nat) : Prop :=
  ∀ r, r < n → (s.reg y).toNat % 32 + r ≤ 31 → s.i.toNat + r ≤ 0xFFF

/-- `DRW` with neither `x` nor `y` 15 inverts exactly the pixels of `P`, and `VF` is 1 exactly if one of them was 1; nothing
else changes but `dirty` and `PC` (R192; R194 and R195 (a) and (b), inferences the spec marks as its own; the
choices with `x = 15` or `y = 15` stand in `DrawReadsTheFlagRegisterAfterClearingIt`). -/
def Obligations.DrawInvertsExactlyTheSpritePixels : Prop :=
  ∀ (s : State) (x y : RegIdx) (n : Nat), x ≠ 15 → y ≠ 15 → SpriteReadable s y n →
    ∃ t, exec (.drw x y n) s = .next t ∧
      (∀ row col, t.pixel row col = (s.pixel row col != spritePixel s x y n row col)) ∧
      (t.reg 15 = 0 ∨ t.reg 15 = 1) ∧
      (t.reg 15 = 1 ↔ ∃ row col, spritePixel s x y n row col = true ∧ s.pixel row col = true) ∧
      (∀ r, r ≠ 15 → t.reg r = s.reg r) ∧
      t = { s with v := t.v, fb := t.fb, dirty := true, pc := s.pc + 2 }

/-- Drawing the same sprite at the same place twice in a row restores the framebuffer, and the second draw leaves `VF = 1`
exactly if some pixel of `P` was 0 before the first (R195 (c) and (d), inferences the spec marks as its own). With `x = 15` or
`y = 15` the two draws need not be at the same place, as the first can leave `VF = 1` in mid-sprite (R193). -/
def Obligations.DrawingTwiceRestoresTheFramebuffer : Prop :=
  ∀ (s t : State) (x y : RegIdx) (n : Nat), x ≠ 15 → y ≠ 15 → SpriteReadable s y n →
    exec (.drw x y n) s = .next t →
    ∃ u, exec (.drw x y n) t = .next u ∧ u.fb = s.fb ∧
      (u.reg 15 = 1 ↔ ∃ row col, spritePixel s x y n row col = true ∧ s.pixel row col = false)

/-- `DRW` completes for every choice of registers, `VF` among them, whenever its on-screen rows lie in memory; it changes
only `VF`, the framebuffer, `dirty` and `PC`, and leaves `VF` at 0 or 1. `VF` is cleared before the coordinates are read,
so with `y = 15` the rows count from 0 (R192; R193, decision D27). -/
def Obligations.DrawCompletesOnEveryRegisterChoice : Prop :=
  ∀ (s : State) (x y : RegIdx) (n : Nat), n ≤ 15 → SpriteReadable (s.setReg 15 0) y n →
    ∃ t, exec (.drw x y n) s = .next t ∧ (t.reg 15 = 0 ∨ t.reg 15 = 1) ∧ (∀ r, r ≠ 15 → t.reg r = s.reg r) ∧
      t = { s with v := t.v, fb := t.fb, dirty := true, pc := s.pc + 2 }

/-- The base of a sprite coordinate of `DRW`, before or after the first pixel hit: `V[q]` reduced modulo the screen's size,
and for `q = 15` what `VF` holds then, 0 before the hit and 1 after it (R192, R193). -/
def Sys2Proof.Machine.baseAround (s : State) (q : RegIdx) (size : Nat) (afterHit : Bool) : Nat :=
  if q = 15 then (if afterHit then 1 else 0) else (s.reg q).toNat % size

/-- Bit `c` (from the left) of row `r` of the sprite at `I` is 1 and falls on pixel `(row, col)`, with the row base read
before or after the first hit, and the column base too. -/
def Sys2Proof.Machine.DotFallsOn (s : State) (x y : RegIdx) (rowAfterHit colAfterHit : Bool) (r c : Nat) (row : Fin 32)
    (col : Fin 64) : Prop :=
  (s.mem.read (s.i.toNat + r)).getLsbD (7 - c) = true ∧ row.val = baseAround s y 32 rowAfterHit + r ∧
    col.val = baseAround s x 64 colAfterHit + c

/-- The first pixel that `DRW` hits is under bit `c0` of sprite row `r0`: that pixel is on the screen and 1, and every
pixel under an earlier dot, in the order of the rows and of the bits from the left, is 0. -/
def Sys2Proof.Machine.FirstHitAt (s : State) (x y : RegIdx) (n r0 c0 : Nat) : Prop :=
  r0 < n ∧ c0 ≤ 7 ∧ (∃ row col, DotFallsOn s x y false false r0 c0 row col ∧ s.pixel row col = true) ∧
  ∀ r c row col, r < r0 ∨ r = r0 ∧ c < c0 → c ≤ 7 → DotFallsOn s x y false false r c row col → s.pixel row col = false

/-- Pixel `(row, col)` is under a dot of the sprite of height `n` whose first hit is at bit `c0` of row `r0`. The row base
is read once for each row, so the hit moves it for the later rows; the column base is read for each bit, so the hit moves
it for the later bits of row `r0` and for the later rows (R193). -/
def Sys2Proof.Machine.DrawnAroundHit (s : State) (x y : RegIdx) (n r0 c0 : Nat) (row : Fin 32) (col : Fin 64) : Prop :=
  ∃ r c, r < n ∧ c ≤ 7 ∧ DotFallsOn s x y (decide (r0 < r)) (decide (r0 < r ∨ r = r0 ∧ c0 < c)) r c row col

/-- `DRW` with any registers, `VF` among them. While no pixel of the sprite is hit, `x = 15` or `y = 15` draws at
coordinate 0, the value `VF` was cleared to, and leaves `VF = 0`. When a pixel is hit, `VF` is 1 from then on: the rows after
the hit count from row base 1 if `y = 15`, and the bits after it from column base 1 if `x = 15`; exactly the pixels under
the dots so placed are inverted. Nothing else changes but `dirty` and `PC` (R193, decision D27). -/
def Obligations.DrawReadsTheFlagRegisterAfterClearingIt : Prop :=
  ∀ (s : State) (x y : RegIdx) (n : Nat), n ≤ 15 → SpriteReadable (s.setReg 15 0) y n →
    ((∀ row col, spritePixel (s.setReg 15 0) x y n row col = true → s.pixel row col = false) →
      ∃ t, exec (.drw x y n) s = .next t ∧ t.reg 15 = 0 ∧
        ∀ row col, t.pixel row col = (s.pixel row col != spritePixel (s.setReg 15 0) x y n row col)) ∧
    (∀ r0 c0, FirstHitAt s x y n r0 c0 →
      ∃ t, exec (.drw x y n) s = .next t ∧ t.reg 15 = 1 ∧ (∀ q, q ≠ 15 → t.reg q = s.reg q) ∧
        t = { s with v := t.v, fb := t.fb, dirty := true, pc := s.pc + 2 } ∧
        ∀ row col, (DrawnAroundHit s x y n r0 c0 row col → t.pixel row col = !s.pixel row col) ∧
          (¬ DrawnAroundHit s x y n r0 c0 row col → t.pixel row col = s.pixel row col))

/-- `DRW` whose on-screen rows reach outside memory raises `AddressOutOfRange` at the first address outside, for every
choice of registers (R192). -/
def Obligations.DrawOutsideMemoryRaises : Prop :=
  ∀ (s : State) (x y : RegIdx) (n : Nat), n ≤ 15 → ¬ SpriteReadable (s.setReg 15 0) y n →
    decodeWord (BitVec.ofNat 16 (0xD000 + x.val * 0x100 + y.val * 0x10 + n)) = .ok (.drw x y n) ∧
    ∃ t, exec (.drw x y n) s = .next t ∧
      t.StoppedBy ⟨.addressOutOfRange, s.pc, some (BitVec.ofNat 16 (0xD000 + x.val * 0x100 + y.val * 0x10 + n)),
        some (if 0xFFF < s.i.toNat then s.i.toNat else 0x1000)⟩

/-! ### Keypad and timers (46_keypad_timers.md) -/

/-- `SKP` and `SKNP` skip on the level of key `V[x]` and change nothing but `PC`; a key number above 15 raises
`KeyIndexOutOfRange(PC, w, V[x])` (R201, R202, R207, decision D11). -/
def Obligations.KeySkipsTestTheNamedKey : Prop :=
  ∀ (s : State) (x : RegIdx),
    decodeWord (BitVec.ofNat 16 (0xE09E + x.val * 0x100)) = .ok (.skp x) ∧
    decodeWord (BitVec.ofNat 16 (0xE0A1 + x.val * 0x100)) = .ok (.sknp x) ∧
    ((s.reg x).toNat ≤ 15 →
      exec (.skp x) s = .next { s with pc := if s.k.getLsbD (s.reg x).toNat then s.pc + 4 else s.pc + 2 } ∧
      exec (.sknp x) s = .next { s with pc := if s.k.getLsbD (s.reg x).toNat then s.pc + 2 else s.pc + 4 }) ∧
    (15 < (s.reg x).toNat →
      (∃ t, exec (.skp x) s = .next t ∧ t.StoppedBy ⟨.keyIndexOutOfRange, s.pc,
        some (BitVec.ofNat 16 (0xE09E + x.val * 0x100)), some (s.reg x).toNat⟩) ∧
      (∃ t, exec (.sknp x) s = .next t ∧ t.StoppedBy ⟨.keyIndexOutOfRange, s.pc,
        some (BitVec.ofNat 16 (0xE0A1 + x.val * 0x100)), some (s.reg x).toNat⟩))

/-- R203: `LD Vx, DT` writes `DT` to `V[x]` and changes nothing else but `PC`; the value is the one before this cycle's
tick. -/
def Obligations.GetDelayTimerReadsTheValueBeforeTheTick : Prop :=
  (∀ (s : State) (x : RegIdx),
    decodeWord (BitVec.ofNat 16 (0xF007 + x.val * 0x100)) = .ok (.ldVxDT x) ∧
    exec (.ldVxDT x) s = .next { s with v := s.v.set x.val s.dt, pc := s.pc + 2 }) ∧
  (∀ (s : State) (x : RegIdx), s.AboutToRun (BitVec.ofNat 16 (0xF007 + x.val * 0x100)) →
    ∃ t, step s = .next t ∧ t.run = .running ∧ t.reg x = s.dt ∧
      t.dt.toNat = (if s.portsIn.tick then s.dt.toNat - 1 else s.dt.toNat))

/-- R205, R206: `LD DT, Vx` and `LD ST, Vx` copy `V[x]` into the timer and change nothing else but `PC`; a tick in the same
cycle follows, so the cycle ends with one less (never below 0), and `tone_o` follows `ST` after that tick. -/
def Obligations.SetTimersThenTick : Prop :=
  (∀ (s : State) (x : RegIdx),
    decodeWord (BitVec.ofNat 16 (0xF015 + x.val * 0x100)) = .ok (.ldDTVx x) ∧
    exec (.ldDTVx x) s = .next { s with dt := s.reg x, pc := s.pc + 2 } ∧
    decodeWord (BitVec.ofNat 16 (0xF018 + x.val * 0x100)) = .ok (.ldSTVx x) ∧
    exec (.ldSTVx x) s = .next { s with st := s.reg x, pc := s.pc + 2 }) ∧
  (∀ (s : State) (x : RegIdx), s.AboutToRun (BitVec.ofNat 16 (0xF015 + x.val * 0x100)) →
    ∃ t, step s = .next t ∧ t.run = .running ∧
      t.dt.toNat = (if s.portsIn.tick then (s.reg x).toNat - 1 else (s.reg x).toNat)) ∧
  (∀ (s : State) (x : RegIdx), s.AboutToRun (BitVec.ofNat 16 (0xF018 + x.val * 0x100)) →
    ∃ t, step s = .next t ∧ t.run = .running ∧
      t.st.toNat = (if s.portsIn.tick then (s.reg x).toNat - 1 else (s.reg x).toNat) ∧
      t.toneO = decide (t.st ≠ 0))

/-- R204: `LD Vx, K` with no key down writes nothing and keeps `PC`; else it writes the least key that is down to `V[x]`
and advances. A waiting cycle is a complete cycle: the keys are sampled, the timers tick and the outputs are produced; a
quit request ends the wait by halting the machine. -/
def Obligations.KeyWaitTakesTheLowestKeyDown : Prop :=
  (∀ (s : State) (x : RegIdx),
    decodeWord (BitVec.ofNat 16 (0xF00A + x.val * 0x100)) = .ok (.ldVxK x) ∧
    ((∀ j : Fin 16, s.k.getLsbD j.val = false) → exec (.ldVxK x) s = .next s) ∧
    (∀ j : Fin 16, s.k.getLsbD j.val = true → (∀ l : Fin 16, l < j → s.k.getLsbD l.val = false) →
      exec (.ldVxK x) s = .next { s with v := s.v.set x.val (BitVec.ofNat 8 j.val), pc := s.pc + 2 })) ∧
  (∀ (s : State) (x : RegIdx), s.AboutToRun (BitVec.ofNat 16 (0xF00A + x.val * 0x100)) → s.portsIn.keys = 0 →
    ∃ t, step s = .next t ∧ t.run = .running ∧ t.pc = s.pc ∧ t.v = s.v ∧ t.k = 0 ∧
      t.dt.toNat = (if s.portsIn.tick then s.dt.toNat - 1 else s.dt.toNat) ∧
      t.st.toNat = (if s.portsIn.tick then s.st.toNat - 1 else s.st.toNat) ∧
      t.presentO = s.dirty ∧ t.toneO = decide (t.st ≠ 0)) ∧
  (∀ s : State, s.run = .running → s.portsIn.quit = true → ∃ t, step s = .next t ∧ t.run = .halted ∧ t.fault = s.fault)

/-! ### Rules of the whole machine -/

/-- Which fault an instruction can raise from its own pseudocode, none if it can raise none (60_exceptions.md R231). -/
def Sys2Proof.Machine.ownFault : Instr → Option FaultKind
  | .ret => some .stackUnderflow
  | .call _ => some .stackOverflow
  | .drw _ _ _ | .ldB _ | .dump _ | .load _ => some .addressOutOfRange
  | .skp _ | .sknp _ => some .keyIndexOutOfRange
  | _ => none

/-- An instruction can halt the machine only by its own kind of fault, recorded with its address and word; the other 26
instructions raise nothing once decoded (R231, an inference the spec marks as its own, which counts them as 25; R232, D19). -/
def Obligations.InstructionsRaiseOnlyTheirOwnFault : Prop :=
  ∀ (i : Instr) (s t : State), exec i s = .next t → s.run = .running → t.run = .halted →
    ∃ f, t.StoppedBy f ∧ ownFault i = some f.kind ∧ f.pc = s.pc ∧ f.word = some (encode i)

/-- The registers an instruction may write (10_state.md R23, R22). -/
def Sys2Proof.Machine.writesReg : Instr → RegIdx → Prop
  | .ldImm x _, r | .addImm x _, r | .rnd x _, r | .ldReg x _, r | .orReg x _, r | .andReg x _, r | .xorReg x _, r => r = x
  | .ldVxDT x, r | .ldVxK x, r => r = x
  | .addReg x _, r | .subReg x _, r | .shr x _, r | .subnReg x _, r | .shl x _, r => r = x ∨ r = 15
  | .drw _ _ _, r => r = 15
  | .load x, r => r ≤ x
  | _, _ => False

/-- An instruction that leaves the machine running writes no general register but those of R23's table, an
inference the spec marks as its own. -/
def Obligations.OnlyTheListedRegistersAreWritten : Prop :=
  ∀ (i : Instr) (s t : State) (r : RegIdx), exec i s = .next t → t.run = .running → ¬ writesReg i r →
    t.reg r = s.reg r

/-- An instruction that leaves the machine running writes each other part of the state only if it is one of those the
spec names for it: the framebuffer and `dirty` (R35, R36), the stack (R30, R31), memory (20_memory.md R69), `I` (R28),
`DT` and `ST` (R32, R33); and never `K`, the fault record, the outputs or the inputs. -/
def Obligations.EachPartIsWrittenOnlyByItsInstructions : Prop :=
  ∀ (i : Instr) (s t : State), exec i s = .next t → t.run = .running →
    (i ≠ .cls → (∀ x y n, i ≠ .drw x y n) → t.fb = s.fb ∧ t.dirty = s.dirty) ∧
    (i ≠ .ret → (∀ a, i ≠ .call a) → t.sp = s.sp) ∧
    ((∀ a, i ≠ .call a) → t.stack = s.stack) ∧
    ((∀ x, i ≠ .ldB x) → (∀ x, i ≠ .dump x) → t.mem = s.mem) ∧
    ((∀ a, i ≠ .ldI a) → (∀ x, i ≠ .addI x) → (∀ x, i ≠ .ldF x) → (∀ x, i ≠ .dump x) → (∀ x, i ≠ .load x) → t.i = s.i) ∧
    ((∀ x, i ≠ .ldDTVx x) → t.dt = s.dt) ∧ ((∀ x, i ≠ .ldSTVx x) → t.st = s.st) ∧
    t.k = s.k ∧ t.fault = s.fault ∧ t.presentO = s.presentO ∧ t.toneO = s.toneO ∧ t.feed = s.feed ∧ t.cycle = s.cycle

/-- How an instruction that does not fault leaves `PC` (10_state.md R26). -/
def Sys2Proof.Machine.pcAfter (i : Instr) (s : State) : Nat :=
  let skipIf (c : Bool) : Nat := if c then s.pc.toNat + 4 else s.pc.toNat + 2
  match i with
  | .jp nnn | .call nnn => nnn.toNat
  | .ret => if h : 0 < s.sp.val then (s.stack[s.sp.val - 1]'(by have := s.sp.isLt; omega)).toNat + 2 else 0
  | .jpV0 nnn => (s.reg 0).toNat + nnn.toNat
  | .seImm x nn => skipIf (s.reg x == nn)
  | .sneImm x nn => skipIf (s.reg x != nn)
  | .seReg x y => skipIf (s.reg x == s.reg y)
  | .sneReg x y => skipIf (s.reg x != s.reg y)
  | .skp x => skipIf (s.k.getLsbD (s.reg x).toNat)
  | .sknp x => skipIf (!s.k.getLsbD (s.reg x).toNat)
  | .ldVxK _ => if s.k = 0 then s.pc.toNat else s.pc.toNat + 2
  | _ => s.pc.toNat + 2

/-- The table of R26: an instruction that leaves the machine running leaves `PC` at the table's value modulo 65536
(decision D7). -/
def Obligations.ProgramCounterFollowsTheTable : Prop :=
  ∀ (i : Instr) (s t : State), exec i s = .next t → t.run = .running → t.pc.toNat = pcAfter i s % 65536

/-- From a state that meets the invariant, a cycle whose instruction does not fault leaves `PC` at the value of R26's table
itself, not reduced modulo 65536, and at most 0x10FE: the `mod 65536` written in the `PC` rules never takes effect
(10_state.md R27, decision D6 and the spec's own inference). -/
def Obligations.ProgramCounterNeverWraps : Prop :=
  ∀ (s : State) (w : Word) (i : Instr) (t : State), s.Inv → s.AboutToRun w → decodeWord w = .ok i →
    exec i { s with k := s.portsIn.keys } = .next t → t.run = .running →
    t.pc.toNat = pcAfter i { s with k := s.portsIn.keys } ∧ t.pc.toNat ≤ 0x10FE ∧
      ∃ u, step s = .next u ∧ u.pc = t.pc

/-- At a `JP` to itself every further cycle leaves registers, `PC`, `I`, the stack, memory and the framebuffer unchanged,
while the timers still count down and `K` follows `keys_i` (70_reset_and_hazards.md R284; that a model may take it for the
end of a run is decision D30). -/
def Obligations.SelfJumpOnlyCountsTimersAndSamplesKeys : Prop :=
  ∀ s : State, s.AtSelfJump → s.portsIn.quit = false →
    ∃ t, step s = .next t ∧ t.run = .running ∧ t.v = s.v ∧ t.pc = s.pc ∧ t.i = s.i ∧ t.sp = s.sp ∧
      t.stack = s.stack ∧ t.mem = s.mem ∧ t.fb = s.fb ∧ t.k = s.portsIn.keys ∧
      t.dt.toNat = (if s.portsIn.tick then s.dt.toNat - 1 else s.dt.toNat) ∧
      t.st.toNat = (if s.portsIn.tick then s.st.toNat - 1 else s.st.toNat) ∧
      t.AtSelfJump
end

