-- ==== Sys2Proof/Laws/Memory.lean ====
section
/-! SUPPORT. The laws of memory: what a read gives after a write, and that every operation keeps the canonical
form. -/

namespace Sys2Proof.Machine

@[simp] theorem Memory.read_nil (a : Nat) : Memory.read [] a = resetByte a := rfl

theorem Memory.read_cons (b : Nat) (v : Byte) (m : Memory) (a : Nat) :
    Memory.read ((b, v) :: m) a = if a = b then v else m.read a := rfl

theorem Memory.read_insert (m : Memory) (a : Nat) (v : Byte) (b : Nat) :
    (m.insert a v).read b = if b = a then v else m.read b := by
  induction m with
  | nil => simp [Memory.insert, Memory.read_cons]
  | cons c m ih =>
    obtain ⟨d, u⟩ := c
    simp only [Memory.insert]
    split
    · simp only [Memory.read_cons]
    · split
      · subst d
        simp only [Memory.read_cons]
        split <;> rfl
      · simp only [Memory.read_cons, ih]
        split
        · split
          · omega
          · rfl
        · rfl

theorem Memory.read_erase (m : Memory) (a b : Nat) :
    (m.erase a).read b = if b = a then resetByte b else m.read b := by
  induction m with
  | nil => simp [Memory.erase]
  | cons c m ih =>
    obtain ⟨d, u⟩ := c
    simp only [Memory.erase] at ih
    simp only [Memory.erase, List.filter_cons]
    by_cases hd : d = a
    · subst d
      simp only [bne_self_eq_false, Bool.false_eq_true, ite_false, ih, Memory.read_cons]
      split <;> rfl
    · simp only [bne_iff_ne.mpr hd, ite_true, Memory.read_cons, ih]
      split
      · split
        · omega
        · rfl
      · rfl

/-- A read after a write gives the value written, and every other address is left alone (20_memory.md R63). -/
@[simp] theorem Memory.read_write (m : Memory) (a : Nat) (v : Byte) (b : Nat) :
    (m.write a v).read b = if b = a then v else m.read b := by
  unfold Memory.write
  split
  · rename_i h
    rw [Memory.read_erase]
    split
    · subst b; exact h.symm
    · rfl
  · exact Memory.read_insert m a v b

/-- Writing bytes at successive addresses, read back. -/
theorem Memory.read_writeBytes (m : Memory) (a : Nat) (vs : List Byte) (b : Nat) :
    (m.writeBytes a vs).read b =
      if a ≤ b ∧ b < a + vs.length then vs.getD (b - a) 0 else m.read b := by
  induction vs generalizing m a with
  | nil =>
    simp only [Memory.writeBytes, List.length_nil, Nat.add_zero]
    rw [if_neg (by omega)]
  | cons v vs ih =>
    simp only [Memory.writeBytes, ih, Memory.read_write, List.length_cons]
    by_cases hb : b = a
    · subst b
      rw [if_neg (by omega), if_pos rfl, if_pos (by omega)]
      simp
    · by_cases h : a + 1 ≤ b ∧ b < a + 1 + vs.length
      · rw [if_pos h, if_pos (by omega)]
        have : b - a = (b - (a + 1)) + 1 := by omega
        rw [this, List.getD_cons_succ]
      · rw [if_neg h, if_neg hb, if_neg (by omega)]

/-! ### The canonical form is kept -/

theorem Memory.wf_nil : Memory.wf [] := by simp [Memory.wf]

theorem Memory.wf_tail {c : Host.Cell} {m : Memory} (h : Memory.wf (c :: m)) : m.wf :=
  ⟨(List.pairwise_cons.mp h.1).2, fun d hd => h.2 d (List.mem_cons_of_mem _ hd)⟩

theorem Memory.mem_insert {m : Memory} {a : Nat} {v : Byte} {c : Host.Cell} (h : c ∈ m.insert a v) :
    c = (a, v) ∨ c ∈ m := by
  induction m with
  | nil => simpa [Memory.insert] using h
  | cons d m ih =>
    simp only [Memory.insert] at h
    split at h
    · simpa using h
    · split at h
      · rcases List.mem_cons.mp h with h | h
        · exact .inl h
        · exact .inr (List.mem_cons_of_mem _ h)
      · rcases List.mem_cons.mp h with h | h
        · exact .inr (h ▸ List.mem_cons_self)
        · exact (ih h).imp_right (List.mem_cons_of_mem _)

theorem Memory.wf_insert {m : Memory} {a : Nat} {v : Byte} (h : m.wf) (ha : a ≤ 0xFFF) (hv : v ≠ resetByte a) :
    (m.insert a v).wf := by
  refine ⟨?_, fun c hc => ?_⟩
  · induction m with
    | nil => simp [Memory.insert]
    | cons d m ih =>
      obtain ⟨hd, hm⟩ := List.pairwise_cons.mp h.1
      simp only [Memory.insert]
      split
      · rename_i hlt
        refine List.pairwise_cons.mpr ⟨fun c hc => ?_, h.1⟩
        rcases List.mem_cons.mp hc with rfl | hc
        · exact hlt
        · exact Nat.lt_trans hlt (hd c hc)
      · split
        · rename_i heq
          exact List.pairwise_cons.mpr ⟨fun c hc => heq ▸ hd c hc, hm⟩
        · refine List.pairwise_cons.mpr ⟨fun c hc => ?_, ih (Memory.wf_tail h)⟩
          rcases Memory.mem_insert hc with rfl | hc
          · show d.1 < a
            omega
          · exact hd c hc
  · rcases Memory.mem_insert hc with rfl | hc
    · exact ⟨ha, hv⟩
    · exact h.2 c hc

theorem Memory.wf_erase {m : Memory} (h : m.wf) (a : Nat) : (m.erase a).wf :=
  ⟨h.1.filter _, fun c hc => h.2 c ((List.mem_filter.mp hc).1)⟩

/-- A write keeps the canonical form. -/
theorem Memory.wf_write {m : Memory} {a : Nat} (h : m.wf) (ha : a ≤ 0xFFF) (v : Byte) : (m.write a v).wf := by
  unfold Memory.write
  split
  · exact Memory.wf_erase h a
  · exact Memory.wf_insert h ha ‹_›

theorem Memory.wf_writeBytes {m : Memory} {a : Nat} {vs : List Byte} (h : m.wf) (ha : a + vs.length ≤ 0x1000) :
    (m.writeBytes a vs).wf := by
  induction vs generalizing m a with
  | nil => exact h
  | cons v vs ih =>
    simp only [List.length_cons] at ha
    exact ih (Memory.wf_write h (by omega) v) (by omega)

/-- Any list of cells has a canonical form. -/
theorem Memory.wf_normalize (m : Memory) : m.normalize.wf := by
  induction m with
  | nil => exact Memory.wf_nil
  | cons c m ih =>
    show Memory.wf (if c.1 ≤ 0xFFF then Memory.write (Memory.normalize m) c.1 c.2 else Memory.normalize m)
    split
    · exact Memory.wf_write ih ‹_› _
    · exact ih

theorem Memory.insert_of_lt {m : Memory} {a : Nat} {v : Byte} (h : ∀ c ∈ m, a < c.1) :
    m.insert a v = (a, v) :: m := by
  cases m with
  | nil => rfl
  | cons c m => simp [Memory.insert, h c List.mem_cons_self]

/-- A memory in canonical form is its own canonical form: `normalize` shuts no memory out. -/
theorem Memory.normalize_of_wf {m : Memory} (h : m.wf) : m.normalize = m := by
  induction m with
  | nil => rfl
  | cons c m ih =>
    have hc := h.2 c List.mem_cons_self
    show (if c.1 ≤ 0xFFF then Memory.write (Memory.normalize m) c.1 c.2 else Memory.normalize m) = c :: m
    rw [if_pos hc.1, ih (Memory.wf_tail h), Memory.write, if_neg hc.2,
      Memory.insert_of_lt (List.pairwise_cons.mp h.1).1]

/-- Two memories in canonical form that read alike at every address are the same memory. -/
theorem Memory.eq_of_read_eq {m n : Memory} (hm : m.wf) (hn : n.wf) (h : ∀ a, m.read a = n.read a) : m = n := by
  have above : ∀ (l : Memory) (a : Nat), (∀ c ∈ l, a < c.1) → l.read a = resetByte a := by
    intro l a
    induction l with
    | nil => intro _; rfl
    | cons c l ih =>
      intro hl
      have := hl c List.mem_cons_self
      rw [show c = (c.1, c.2) from rfl, Memory.read_cons, if_neg (by omega)]
      exact ih fun d hd => hl d (List.mem_cons_of_mem _ hd)
  induction m generalizing n with
  | nil =>
    cases n with
    | nil => rfl
    | cons d n =>
      have := h d.1
      rw [show d = (d.1, d.2) from rfl, Memory.read_cons, if_pos rfl] at this
      exact absurd this.symm (hn.2 d List.mem_cons_self).2
  | cons c m ih =>
    have hc := (List.pairwise_cons.mp hm.1).1
    have read_c : Memory.read (c :: m) c.1 = c.2 := by
      rw [show c = (c.1, c.2) from rfl, Memory.read_cons, if_pos rfl]
    cases n with
    | nil =>
      have := h c.1
      rw [read_c] at this
      exact absurd this (hm.2 c List.mem_cons_self).2
    | cons d n =>
      have hd := (List.pairwise_cons.mp hn.1).1
      have read_d : Memory.read (d :: n) d.1 = d.2 := by
        rw [show d = (d.1, d.2) from rfl, Memory.read_cons, if_pos rfl]
      have key : c.1 = d.1 := by
        rcases Nat.lt_trichotomy c.1 d.1 with hlt | heq | hgt
        · have e := h c.1
          rw [read_c, above (d :: n) c.1 (by
            intro x hx
            rcases List.mem_cons.mp hx with rfl | hx
            · exact hlt
            · exact Nat.lt_trans hlt (hd x hx))] at e
          exact absurd e (hm.2 c List.mem_cons_self).2
        · exact heq
        · have e := h d.1
          rw [read_d, above (c :: m) d.1 (by
            intro x hx
            rcases List.mem_cons.mp hx with rfl | hx
            · exact hgt
            · exact Nat.lt_trans hgt (hc x hx))] at e
          exact absurd e.symm (hn.2 d List.mem_cons_self).2
      have val : c.2 = d.2 := by
        have := h c.1
        rw [read_c, key, read_d] at this
        exact this
      have hcd : c = d := Prod.ext key val
      subst hcd
      congr 1
      refine ih (Memory.wf_tail hm) (Memory.wf_tail hn) fun a => ?_
      by_cases ha : a = c.1
      · subst ha
        rw [above m c.1 hc, above n c.1 hd]
      · have := h a
        rw [show c = (c.1, c.2) from rfl, Memory.read_cons, Memory.read_cons, if_neg ha, if_neg ha] at this
        exact this

end Sys2Proof.Machine
end

