-- ==== Sys2Proof/Laws/State.lean ====
section
/-! SUPPORT. One lemma for each field of the state under each update, true by `rfl`, so that no later proof unfolds a
record update. -/

namespace Sys2Proof.Machine

/-! ### `State.setReg` -/

@[simp] theorem State.setReg_v (s : State) (r : RegIdx) (b : Byte) : (s.setReg r b).v = s.v.set r.val b := rfl
@[simp] theorem State.setReg_pc (s : State) (r : RegIdx) (b : Byte) : (s.setReg r b).pc = s.pc := rfl
@[simp] theorem State.setReg_i (s : State) (r : RegIdx) (b : Byte) : (s.setReg r b).i = s.i := rfl
@[simp] theorem State.setReg_sp (s : State) (r : RegIdx) (b : Byte) : (s.setReg r b).sp = s.sp := rfl
@[simp] theorem State.setReg_stack (s : State) (r : RegIdx) (b : Byte) : (s.setReg r b).stack = s.stack := rfl
@[simp] theorem State.setReg_dt (s : State) (r : RegIdx) (b : Byte) : (s.setReg r b).dt = s.dt := rfl
@[simp] theorem State.setReg_st (s : State) (r : RegIdx) (b : Byte) : (s.setReg r b).st = s.st := rfl
@[simp] theorem State.setReg_k (s : State) (r : RegIdx) (b : Byte) : (s.setReg r b).k = s.k := rfl
@[simp] theorem State.setReg_fb (s : State) (r : RegIdx) (b : Byte) : (s.setReg r b).fb = s.fb := rfl
@[simp] theorem State.setReg_dirty (s : State) (r : RegIdx) (b : Byte) : (s.setReg r b).dirty = s.dirty := rfl
@[simp] theorem State.setReg_run (s : State) (r : RegIdx) (b : Byte) : (s.setReg r b).run = s.run := rfl
@[simp] theorem State.setReg_fault (s : State) (r : RegIdx) (b : Byte) : (s.setReg r b).fault = s.fault := rfl
@[simp] theorem State.setReg_mem (s : State) (r : RegIdx) (b : Byte) : (s.setReg r b).mem = s.mem := rfl
@[simp] theorem State.setReg_presentO (s : State) (r : RegIdx) (b : Byte) : (s.setReg r b).presentO = s.presentO := rfl
@[simp] theorem State.setReg_toneO (s : State) (r : RegIdx) (b : Byte) : (s.setReg r b).toneO = s.toneO := rfl
@[simp] theorem State.setReg_feed (s : State) (r : RegIdx) (b : Byte) : (s.setReg r b).feed = s.feed := rfl
@[simp] theorem State.setReg_cycle (s : State) (r : RegIdx) (b : Byte) : (s.setReg r b).cycle = s.cycle := rfl

/-! ### `State.setPc` -/

@[simp] theorem State.setPc_v (s : State) (a : Word) : (s.setPc a).v = s.v := rfl
@[simp] theorem State.setPc_pc (s : State) (a : Word) : (s.setPc a).pc = a := rfl
@[simp] theorem State.setPc_i (s : State) (a : Word) : (s.setPc a).i = s.i := rfl
@[simp] theorem State.setPc_sp (s : State) (a : Word) : (s.setPc a).sp = s.sp := rfl
@[simp] theorem State.setPc_stack (s : State) (a : Word) : (s.setPc a).stack = s.stack := rfl
@[simp] theorem State.setPc_dt (s : State) (a : Word) : (s.setPc a).dt = s.dt := rfl
@[simp] theorem State.setPc_st (s : State) (a : Word) : (s.setPc a).st = s.st := rfl
@[simp] theorem State.setPc_k (s : State) (a : Word) : (s.setPc a).k = s.k := rfl
@[simp] theorem State.setPc_fb (s : State) (a : Word) : (s.setPc a).fb = s.fb := rfl
@[simp] theorem State.setPc_dirty (s : State) (a : Word) : (s.setPc a).dirty = s.dirty := rfl
@[simp] theorem State.setPc_run (s : State) (a : Word) : (s.setPc a).run = s.run := rfl
@[simp] theorem State.setPc_fault (s : State) (a : Word) : (s.setPc a).fault = s.fault := rfl
@[simp] theorem State.setPc_mem (s : State) (a : Word) : (s.setPc a).mem = s.mem := rfl
@[simp] theorem State.setPc_presentO (s : State) (a : Word) : (s.setPc a).presentO = s.presentO := rfl
@[simp] theorem State.setPc_toneO (s : State) (a : Word) : (s.setPc a).toneO = s.toneO := rfl
@[simp] theorem State.setPc_feed (s : State) (a : Word) : (s.setPc a).feed = s.feed := rfl
@[simp] theorem State.setPc_cycle (s : State) (a : Word) : (s.setPc a).cycle = s.cycle := rfl

/-! ### `State.advance` -/

@[simp] theorem State.advance_v (s : State) : s.advance.v = s.v := rfl
@[simp] theorem State.advance_pc (s : State) : s.advance.pc = s.pc + 2 := rfl
@[simp] theorem State.advance_i (s : State) : s.advance.i = s.i := rfl
@[simp] theorem State.advance_sp (s : State) : s.advance.sp = s.sp := rfl
@[simp] theorem State.advance_stack (s : State) : s.advance.stack = s.stack := rfl
@[simp] theorem State.advance_dt (s : State) : s.advance.dt = s.dt := rfl
@[simp] theorem State.advance_st (s : State) : s.advance.st = s.st := rfl
@[simp] theorem State.advance_k (s : State) : s.advance.k = s.k := rfl
@[simp] theorem State.advance_fb (s : State) : s.advance.fb = s.fb := rfl
@[simp] theorem State.advance_dirty (s : State) : s.advance.dirty = s.dirty := rfl
@[simp] theorem State.advance_run (s : State) : s.advance.run = s.run := rfl
@[simp] theorem State.advance_fault (s : State) : s.advance.fault = s.fault := rfl
@[simp] theorem State.advance_mem (s : State) : s.advance.mem = s.mem := rfl
@[simp] theorem State.advance_presentO (s : State) : s.advance.presentO = s.presentO := rfl
@[simp] theorem State.advance_toneO (s : State) : s.advance.toneO = s.toneO := rfl
@[simp] theorem State.advance_feed (s : State) : s.advance.feed = s.feed := rfl
@[simp] theorem State.advance_cycle (s : State) : s.advance.cycle = s.cycle := rfl

/-! ### `State.skip` -/

@[simp] theorem State.skip_v (s : State) : s.skip.v = s.v := rfl
@[simp] theorem State.skip_pc (s : State) : s.skip.pc = s.pc + 4 := rfl
@[simp] theorem State.skip_i (s : State) : s.skip.i = s.i := rfl
@[simp] theorem State.skip_sp (s : State) : s.skip.sp = s.sp := rfl
@[simp] theorem State.skip_stack (s : State) : s.skip.stack = s.stack := rfl
@[simp] theorem State.skip_dt (s : State) : s.skip.dt = s.dt := rfl
@[simp] theorem State.skip_st (s : State) : s.skip.st = s.st := rfl
@[simp] theorem State.skip_k (s : State) : s.skip.k = s.k := rfl
@[simp] theorem State.skip_fb (s : State) : s.skip.fb = s.fb := rfl
@[simp] theorem State.skip_dirty (s : State) : s.skip.dirty = s.dirty := rfl
@[simp] theorem State.skip_run (s : State) : s.skip.run = s.run := rfl
@[simp] theorem State.skip_fault (s : State) : s.skip.fault = s.fault := rfl
@[simp] theorem State.skip_mem (s : State) : s.skip.mem = s.mem := rfl
@[simp] theorem State.skip_presentO (s : State) : s.skip.presentO = s.presentO := rfl
@[simp] theorem State.skip_toneO (s : State) : s.skip.toneO = s.toneO := rfl
@[simp] theorem State.skip_feed (s : State) : s.skip.feed = s.feed := rfl
@[simp] theorem State.skip_cycle (s : State) : s.skip.cycle = s.cycle := rfl

/-! ### `State.setI` -/

@[simp] theorem State.setI_v (s : State) (a : Word) : (s.setI a).v = s.v := rfl
@[simp] theorem State.setI_pc (s : State) (a : Word) : (s.setI a).pc = s.pc := rfl
@[simp] theorem State.setI_i (s : State) (a : Word) : (s.setI a).i = a := rfl
@[simp] theorem State.setI_sp (s : State) (a : Word) : (s.setI a).sp = s.sp := rfl
@[simp] theorem State.setI_stack (s : State) (a : Word) : (s.setI a).stack = s.stack := rfl
@[simp] theorem State.setI_dt (s : State) (a : Word) : (s.setI a).dt = s.dt := rfl
@[simp] theorem State.setI_st (s : State) (a : Word) : (s.setI a).st = s.st := rfl
@[simp] theorem State.setI_k (s : State) (a : Word) : (s.setI a).k = s.k := rfl
@[simp] theorem State.setI_fb (s : State) (a : Word) : (s.setI a).fb = s.fb := rfl
@[simp] theorem State.setI_dirty (s : State) (a : Word) : (s.setI a).dirty = s.dirty := rfl
@[simp] theorem State.setI_run (s : State) (a : Word) : (s.setI a).run = s.run := rfl
@[simp] theorem State.setI_fault (s : State) (a : Word) : (s.setI a).fault = s.fault := rfl
@[simp] theorem State.setI_mem (s : State) (a : Word) : (s.setI a).mem = s.mem := rfl
@[simp] theorem State.setI_presentO (s : State) (a : Word) : (s.setI a).presentO = s.presentO := rfl
@[simp] theorem State.setI_toneO (s : State) (a : Word) : (s.setI a).toneO = s.toneO := rfl
@[simp] theorem State.setI_feed (s : State) (a : Word) : (s.setI a).feed = s.feed := rfl
@[simp] theorem State.setI_cycle (s : State) (a : Word) : (s.setI a).cycle = s.cycle := rfl

/-! ### `State.incI` -/

@[simp] theorem State.incI_v (s : State) : s.incI.v = s.v := rfl
@[simp] theorem State.incI_pc (s : State) : s.incI.pc = s.pc := rfl
@[simp] theorem State.incI_i (s : State) : s.incI.i = s.i + 1 := rfl
@[simp] theorem State.incI_sp (s : State) : s.incI.sp = s.sp := rfl
@[simp] theorem State.incI_stack (s : State) : s.incI.stack = s.stack := rfl
@[simp] theorem State.incI_dt (s : State) : s.incI.dt = s.dt := rfl
@[simp] theorem State.incI_st (s : State) : s.incI.st = s.st := rfl
@[simp] theorem State.incI_k (s : State) : s.incI.k = s.k := rfl
@[simp] theorem State.incI_fb (s : State) : s.incI.fb = s.fb := rfl
@[simp] theorem State.incI_dirty (s : State) : s.incI.dirty = s.dirty := rfl
@[simp] theorem State.incI_run (s : State) : s.incI.run = s.run := rfl
@[simp] theorem State.incI_fault (s : State) : s.incI.fault = s.fault := rfl
@[simp] theorem State.incI_mem (s : State) : s.incI.mem = s.mem := rfl
@[simp] theorem State.incI_presentO (s : State) : s.incI.presentO = s.presentO := rfl
@[simp] theorem State.incI_toneO (s : State) : s.incI.toneO = s.toneO := rfl
@[simp] theorem State.incI_feed (s : State) : s.incI.feed = s.feed := rfl
@[simp] theorem State.incI_cycle (s : State) : s.incI.cycle = s.cycle := rfl

/-! ### `State.setDt` -/

@[simp] theorem State.setDt_v (s : State) (b : Byte) : (s.setDt b).v = s.v := rfl
@[simp] theorem State.setDt_pc (s : State) (b : Byte) : (s.setDt b).pc = s.pc := rfl
@[simp] theorem State.setDt_i (s : State) (b : Byte) : (s.setDt b).i = s.i := rfl
@[simp] theorem State.setDt_sp (s : State) (b : Byte) : (s.setDt b).sp = s.sp := rfl
@[simp] theorem State.setDt_stack (s : State) (b : Byte) : (s.setDt b).stack = s.stack := rfl
@[simp] theorem State.setDt_dt (s : State) (b : Byte) : (s.setDt b).dt = b := rfl
@[simp] theorem State.setDt_st (s : State) (b : Byte) : (s.setDt b).st = s.st := rfl
@[simp] theorem State.setDt_k (s : State) (b : Byte) : (s.setDt b).k = s.k := rfl
@[simp] theorem State.setDt_fb (s : State) (b : Byte) : (s.setDt b).fb = s.fb := rfl
@[simp] theorem State.setDt_dirty (s : State) (b : Byte) : (s.setDt b).dirty = s.dirty := rfl
@[simp] theorem State.setDt_run (s : State) (b : Byte) : (s.setDt b).run = s.run := rfl
@[simp] theorem State.setDt_fault (s : State) (b : Byte) : (s.setDt b).fault = s.fault := rfl
@[simp] theorem State.setDt_mem (s : State) (b : Byte) : (s.setDt b).mem = s.mem := rfl
@[simp] theorem State.setDt_presentO (s : State) (b : Byte) : (s.setDt b).presentO = s.presentO := rfl
@[simp] theorem State.setDt_toneO (s : State) (b : Byte) : (s.setDt b).toneO = s.toneO := rfl
@[simp] theorem State.setDt_feed (s : State) (b : Byte) : (s.setDt b).feed = s.feed := rfl
@[simp] theorem State.setDt_cycle (s : State) (b : Byte) : (s.setDt b).cycle = s.cycle := rfl

/-! ### `State.setSt` -/

@[simp] theorem State.setSt_v (s : State) (b : Byte) : (s.setSt b).v = s.v := rfl
@[simp] theorem State.setSt_pc (s : State) (b : Byte) : (s.setSt b).pc = s.pc := rfl
@[simp] theorem State.setSt_i (s : State) (b : Byte) : (s.setSt b).i = s.i := rfl
@[simp] theorem State.setSt_sp (s : State) (b : Byte) : (s.setSt b).sp = s.sp := rfl
@[simp] theorem State.setSt_stack (s : State) (b : Byte) : (s.setSt b).stack = s.stack := rfl
@[simp] theorem State.setSt_dt (s : State) (b : Byte) : (s.setSt b).dt = s.dt := rfl
@[simp] theorem State.setSt_st (s : State) (b : Byte) : (s.setSt b).st = b := rfl
@[simp] theorem State.setSt_k (s : State) (b : Byte) : (s.setSt b).k = s.k := rfl
@[simp] theorem State.setSt_fb (s : State) (b : Byte) : (s.setSt b).fb = s.fb := rfl
@[simp] theorem State.setSt_dirty (s : State) (b : Byte) : (s.setSt b).dirty = s.dirty := rfl
@[simp] theorem State.setSt_run (s : State) (b : Byte) : (s.setSt b).run = s.run := rfl
@[simp] theorem State.setSt_fault (s : State) (b : Byte) : (s.setSt b).fault = s.fault := rfl
@[simp] theorem State.setSt_mem (s : State) (b : Byte) : (s.setSt b).mem = s.mem := rfl
@[simp] theorem State.setSt_presentO (s : State) (b : Byte) : (s.setSt b).presentO = s.presentO := rfl
@[simp] theorem State.setSt_toneO (s : State) (b : Byte) : (s.setSt b).toneO = s.toneO := rfl
@[simp] theorem State.setSt_feed (s : State) (b : Byte) : (s.setSt b).feed = s.feed := rfl
@[simp] theorem State.setSt_cycle (s : State) (b : Byte) : (s.setSt b).cycle = s.cycle := rfl

/-! ### `State.setResultFlag` -/

@[simp] theorem State.setResultFlag_v (s : State) (x : RegIdx) (b f : Byte) : (s.setResultFlag x b f).v = (s.v.set x.val b).set vf.val f := rfl
@[simp] theorem State.setResultFlag_pc (s : State) (x : RegIdx) (b f : Byte) : (s.setResultFlag x b f).pc = s.pc := rfl
@[simp] theorem State.setResultFlag_i (s : State) (x : RegIdx) (b f : Byte) : (s.setResultFlag x b f).i = s.i := rfl
@[simp] theorem State.setResultFlag_sp (s : State) (x : RegIdx) (b f : Byte) : (s.setResultFlag x b f).sp = s.sp := rfl
@[simp] theorem State.setResultFlag_stack (s : State) (x : RegIdx) (b f : Byte) : (s.setResultFlag x b f).stack = s.stack := rfl
@[simp] theorem State.setResultFlag_dt (s : State) (x : RegIdx) (b f : Byte) : (s.setResultFlag x b f).dt = s.dt := rfl
@[simp] theorem State.setResultFlag_st (s : State) (x : RegIdx) (b f : Byte) : (s.setResultFlag x b f).st = s.st := rfl
@[simp] theorem State.setResultFlag_k (s : State) (x : RegIdx) (b f : Byte) : (s.setResultFlag x b f).k = s.k := rfl
@[simp] theorem State.setResultFlag_fb (s : State) (x : RegIdx) (b f : Byte) : (s.setResultFlag x b f).fb = s.fb := rfl
@[simp] theorem State.setResultFlag_dirty (s : State) (x : RegIdx) (b f : Byte) : (s.setResultFlag x b f).dirty = s.dirty := rfl
@[simp] theorem State.setResultFlag_run (s : State) (x : RegIdx) (b f : Byte) : (s.setResultFlag x b f).run = s.run := rfl
@[simp] theorem State.setResultFlag_fault (s : State) (x : RegIdx) (b f : Byte) : (s.setResultFlag x b f).fault = s.fault := rfl
@[simp] theorem State.setResultFlag_mem (s : State) (x : RegIdx) (b f : Byte) : (s.setResultFlag x b f).mem = s.mem := rfl
@[simp] theorem State.setResultFlag_presentO (s : State) (x : RegIdx) (b f : Byte) : (s.setResultFlag x b f).presentO = s.presentO := rfl
@[simp] theorem State.setResultFlag_toneO (s : State) (x : RegIdx) (b f : Byte) : (s.setResultFlag x b f).toneO = s.toneO := rfl
@[simp] theorem State.setResultFlag_feed (s : State) (x : RegIdx) (b f : Byte) : (s.setResultFlag x b f).feed = s.feed := rfl
@[simp] theorem State.setResultFlag_cycle (s : State) (x : RegIdx) (b f : Byte) : (s.setResultFlag x b f).cycle = s.cycle := rfl

/-! ### `State.setPixel` -/

@[simp] theorem State.setPixel_v (s : State) (row : Fin 32) (col : Fin 64) (b : Bool) : (s.setPixel row col b).v = s.v := rfl
@[simp] theorem State.setPixel_pc (s : State) (row : Fin 32) (col : Fin 64) (b : Bool) : (s.setPixel row col b).pc = s.pc := rfl
@[simp] theorem State.setPixel_i (s : State) (row : Fin 32) (col : Fin 64) (b : Bool) : (s.setPixel row col b).i = s.i := rfl
@[simp] theorem State.setPixel_sp (s : State) (row : Fin 32) (col : Fin 64) (b : Bool) : (s.setPixel row col b).sp = s.sp := rfl
@[simp] theorem State.setPixel_stack (s : State) (row : Fin 32) (col : Fin 64) (b : Bool) : (s.setPixel row col b).stack = s.stack := rfl
@[simp] theorem State.setPixel_dt (s : State) (row : Fin 32) (col : Fin 64) (b : Bool) : (s.setPixel row col b).dt = s.dt := rfl
@[simp] theorem State.setPixel_st (s : State) (row : Fin 32) (col : Fin 64) (b : Bool) : (s.setPixel row col b).st = s.st := rfl
@[simp] theorem State.setPixel_k (s : State) (row : Fin 32) (col : Fin 64) (b : Bool) : (s.setPixel row col b).k = s.k := rfl
@[simp] theorem State.setPixel_fb (s : State) (row : Fin 32) (col : Fin 64) (b : Bool) : (s.setPixel row col b).fb = s.fb.set row.val (s.fb[row.val].set col.val b) := rfl
@[simp] theorem State.setPixel_dirty (s : State) (row : Fin 32) (col : Fin 64) (b : Bool) : (s.setPixel row col b).dirty = s.dirty := rfl
@[simp] theorem State.setPixel_run (s : State) (row : Fin 32) (col : Fin 64) (b : Bool) : (s.setPixel row col b).run = s.run := rfl
@[simp] theorem State.setPixel_fault (s : State) (row : Fin 32) (col : Fin 64) (b : Bool) : (s.setPixel row col b).fault = s.fault := rfl
@[simp] theorem State.setPixel_mem (s : State) (row : Fin 32) (col : Fin 64) (b : Bool) : (s.setPixel row col b).mem = s.mem := rfl
@[simp] theorem State.setPixel_presentO (s : State) (row : Fin 32) (col : Fin 64) (b : Bool) : (s.setPixel row col b).presentO = s.presentO := rfl
@[simp] theorem State.setPixel_toneO (s : State) (row : Fin 32) (col : Fin 64) (b : Bool) : (s.setPixel row col b).toneO = s.toneO := rfl
@[simp] theorem State.setPixel_feed (s : State) (row : Fin 32) (col : Fin 64) (b : Bool) : (s.setPixel row col b).feed = s.feed := rfl
@[simp] theorem State.setPixel_cycle (s : State) (row : Fin 32) (col : Fin 64) (b : Bool) : (s.setPixel row col b).cycle = s.cycle := rfl

/-! ### `State.clearFb` -/

@[simp] theorem State.clearFb_v (s : State) : s.clearFb.v = s.v := rfl
@[simp] theorem State.clearFb_pc (s : State) : s.clearFb.pc = s.pc := rfl
@[simp] theorem State.clearFb_i (s : State) : s.clearFb.i = s.i := rfl
@[simp] theorem State.clearFb_sp (s : State) : s.clearFb.sp = s.sp := rfl
@[simp] theorem State.clearFb_stack (s : State) : s.clearFb.stack = s.stack := rfl
@[simp] theorem State.clearFb_dt (s : State) : s.clearFb.dt = s.dt := rfl
@[simp] theorem State.clearFb_st (s : State) : s.clearFb.st = s.st := rfl
@[simp] theorem State.clearFb_k (s : State) : s.clearFb.k = s.k := rfl
@[simp] theorem State.clearFb_fb (s : State) : s.clearFb.fb = Vector.replicate 32 (Vector.replicate 64 false) := rfl
@[simp] theorem State.clearFb_dirty (s : State) : s.clearFb.dirty = s.dirty := rfl
@[simp] theorem State.clearFb_run (s : State) : s.clearFb.run = s.run := rfl
@[simp] theorem State.clearFb_fault (s : State) : s.clearFb.fault = s.fault := rfl
@[simp] theorem State.clearFb_mem (s : State) : s.clearFb.mem = s.mem := rfl
@[simp] theorem State.clearFb_presentO (s : State) : s.clearFb.presentO = s.presentO := rfl
@[simp] theorem State.clearFb_toneO (s : State) : s.clearFb.toneO = s.toneO := rfl
@[simp] theorem State.clearFb_feed (s : State) : s.clearFb.feed = s.feed := rfl
@[simp] theorem State.clearFb_cycle (s : State) : s.clearFb.cycle = s.cycle := rfl

/-! ### `State.markDirty` -/

@[simp] theorem State.markDirty_v (s : State) : s.markDirty.v = s.v := rfl
@[simp] theorem State.markDirty_pc (s : State) : s.markDirty.pc = s.pc := rfl
@[simp] theorem State.markDirty_i (s : State) : s.markDirty.i = s.i := rfl
@[simp] theorem State.markDirty_sp (s : State) : s.markDirty.sp = s.sp := rfl
@[simp] theorem State.markDirty_stack (s : State) : s.markDirty.stack = s.stack := rfl
@[simp] theorem State.markDirty_dt (s : State) : s.markDirty.dt = s.dt := rfl
@[simp] theorem State.markDirty_st (s : State) : s.markDirty.st = s.st := rfl
@[simp] theorem State.markDirty_k (s : State) : s.markDirty.k = s.k := rfl
@[simp] theorem State.markDirty_fb (s : State) : s.markDirty.fb = s.fb := rfl
@[simp] theorem State.markDirty_dirty (s : State) : s.markDirty.dirty = true := rfl
@[simp] theorem State.markDirty_run (s : State) : s.markDirty.run = s.run := rfl
@[simp] theorem State.markDirty_fault (s : State) : s.markDirty.fault = s.fault := rfl
@[simp] theorem State.markDirty_mem (s : State) : s.markDirty.mem = s.mem := rfl
@[simp] theorem State.markDirty_presentO (s : State) : s.markDirty.presentO = s.presentO := rfl
@[simp] theorem State.markDirty_toneO (s : State) : s.markDirty.toneO = s.toneO := rfl
@[simp] theorem State.markDirty_feed (s : State) : s.markDirty.feed = s.feed := rfl
@[simp] theorem State.markDirty_cycle (s : State) : s.markDirty.cycle = s.cycle := rfl

/-! ### `State.consumeInput` -/

@[simp] theorem State.consumeInput_v (s : State) : s.consumeInput.v = s.v := rfl
@[simp] theorem State.consumeInput_pc (s : State) : s.consumeInput.pc = s.pc := rfl
@[simp] theorem State.consumeInput_i (s : State) : s.consumeInput.i = s.i := rfl
@[simp] theorem State.consumeInput_sp (s : State) : s.consumeInput.sp = s.sp := rfl
@[simp] theorem State.consumeInput_stack (s : State) : s.consumeInput.stack = s.stack := rfl
@[simp] theorem State.consumeInput_dt (s : State) : s.consumeInput.dt = s.dt := rfl
@[simp] theorem State.consumeInput_st (s : State) : s.consumeInput.st = s.st := rfl
@[simp] theorem State.consumeInput_k (s : State) : s.consumeInput.k = s.k := rfl
@[simp] theorem State.consumeInput_fb (s : State) : s.consumeInput.fb = s.fb := rfl
@[simp] theorem State.consumeInput_dirty (s : State) : s.consumeInput.dirty = s.dirty := rfl
@[simp] theorem State.consumeInput_run (s : State) : s.consumeInput.run = s.run := rfl
@[simp] theorem State.consumeInput_fault (s : State) : s.consumeInput.fault = s.fault := rfl
@[simp] theorem State.consumeInput_mem (s : State) : s.consumeInput.mem = s.mem := rfl
@[simp] theorem State.consumeInput_presentO (s : State) : s.consumeInput.presentO = s.presentO := rfl
@[simp] theorem State.consumeInput_toneO (s : State) : s.consumeInput.toneO = s.toneO := rfl
@[simp] theorem State.consumeInput_feed (s : State) : s.consumeInput.feed = s.feed.tail := rfl
@[simp] theorem State.consumeInput_cycle (s : State) : s.consumeInput.cycle = s.cycle + 1 := rfl

/-! ### `State.sampleKeys` -/

@[simp] theorem State.sampleKeys_v (s : State) : s.sampleKeys.v = s.v := rfl
@[simp] theorem State.sampleKeys_pc (s : State) : s.sampleKeys.pc = s.pc := rfl
@[simp] theorem State.sampleKeys_i (s : State) : s.sampleKeys.i = s.i := rfl
@[simp] theorem State.sampleKeys_sp (s : State) : s.sampleKeys.sp = s.sp := rfl
@[simp] theorem State.sampleKeys_stack (s : State) : s.sampleKeys.stack = s.stack := rfl
@[simp] theorem State.sampleKeys_dt (s : State) : s.sampleKeys.dt = s.dt := rfl
@[simp] theorem State.sampleKeys_st (s : State) : s.sampleKeys.st = s.st := rfl
@[simp] theorem State.sampleKeys_k (s : State) : s.sampleKeys.k = s.portsIn.keys := rfl
@[simp] theorem State.sampleKeys_fb (s : State) : s.sampleKeys.fb = s.fb := rfl
@[simp] theorem State.sampleKeys_dirty (s : State) : s.sampleKeys.dirty = s.dirty := rfl
@[simp] theorem State.sampleKeys_run (s : State) : s.sampleKeys.run = s.run := rfl
@[simp] theorem State.sampleKeys_fault (s : State) : s.sampleKeys.fault = s.fault := rfl
@[simp] theorem State.sampleKeys_mem (s : State) : s.sampleKeys.mem = s.mem := rfl
@[simp] theorem State.sampleKeys_presentO (s : State) : s.sampleKeys.presentO = s.presentO := rfl
@[simp] theorem State.sampleKeys_toneO (s : State) : s.sampleKeys.toneO = s.toneO := rfl
@[simp] theorem State.sampleKeys_feed (s : State) : s.sampleKeys.feed = s.feed := rfl
@[simp] theorem State.sampleKeys_cycle (s : State) : s.sampleKeys.cycle = s.cycle := rfl

/-! ### `State.quitCycle` -/

@[simp] theorem State.quitCycle_v (s : State) : s.quitCycle.v = s.v := rfl
@[simp] theorem State.quitCycle_pc (s : State) : s.quitCycle.pc = s.pc := rfl
@[simp] theorem State.quitCycle_i (s : State) : s.quitCycle.i = s.i := rfl
@[simp] theorem State.quitCycle_sp (s : State) : s.quitCycle.sp = s.sp := rfl
@[simp] theorem State.quitCycle_stack (s : State) : s.quitCycle.stack = s.stack := rfl
@[simp] theorem State.quitCycle_dt (s : State) : s.quitCycle.dt = s.dt := rfl
@[simp] theorem State.quitCycle_st (s : State) : s.quitCycle.st = s.st := rfl
@[simp] theorem State.quitCycle_k (s : State) : s.quitCycle.k = s.k := rfl
@[simp] theorem State.quitCycle_fb (s : State) : s.quitCycle.fb = s.fb := rfl
@[simp] theorem State.quitCycle_dirty (s : State) : s.quitCycle.dirty = s.dirty := rfl
@[simp] theorem State.quitCycle_run (s : State) : s.quitCycle.run = .halted := rfl
@[simp] theorem State.quitCycle_fault (s : State) : s.quitCycle.fault = s.fault := rfl
@[simp] theorem State.quitCycle_mem (s : State) : s.quitCycle.mem = s.mem := rfl
@[simp] theorem State.quitCycle_presentO (s : State) : s.quitCycle.presentO = false := rfl
@[simp] theorem State.quitCycle_toneO (s : State) : s.quitCycle.toneO = false := rfl
@[simp] theorem State.quitCycle_feed (s : State) : s.quitCycle.feed = s.feed.tail := rfl
@[simp] theorem State.quitCycle_cycle (s : State) : s.quitCycle.cycle = s.cycle + 1 := rfl

/-! ### `State.haltedCycle` -/

@[simp] theorem State.haltedCycle_v (s : State) : s.haltedCycle.v = s.v := rfl
@[simp] theorem State.haltedCycle_pc (s : State) : s.haltedCycle.pc = s.pc := rfl
@[simp] theorem State.haltedCycle_i (s : State) : s.haltedCycle.i = s.i := rfl
@[simp] theorem State.haltedCycle_sp (s : State) : s.haltedCycle.sp = s.sp := rfl
@[simp] theorem State.haltedCycle_stack (s : State) : s.haltedCycle.stack = s.stack := rfl
@[simp] theorem State.haltedCycle_dt (s : State) : s.haltedCycle.dt = s.dt := rfl
@[simp] theorem State.haltedCycle_st (s : State) : s.haltedCycle.st = s.st := rfl
@[simp] theorem State.haltedCycle_k (s : State) : s.haltedCycle.k = s.k := rfl
@[simp] theorem State.haltedCycle_fb (s : State) : s.haltedCycle.fb = s.fb := rfl
@[simp] theorem State.haltedCycle_dirty (s : State) : s.haltedCycle.dirty = s.dirty := rfl
@[simp] theorem State.haltedCycle_run (s : State) : s.haltedCycle.run = s.run := rfl
@[simp] theorem State.haltedCycle_fault (s : State) : s.haltedCycle.fault = s.fault := rfl
@[simp] theorem State.haltedCycle_mem (s : State) : s.haltedCycle.mem = s.mem := rfl
@[simp] theorem State.haltedCycle_presentO (s : State) : s.haltedCycle.presentO = false := rfl
@[simp] theorem State.haltedCycle_toneO (s : State) : s.haltedCycle.toneO = false := rfl
@[simp] theorem State.haltedCycle_feed (s : State) : s.haltedCycle.feed = s.feed := rfl
@[simp] theorem State.haltedCycle_cycle (s : State) : s.haltedCycle.cycle = s.cycle := rfl

/-! ### `State.present` -/

@[simp] theorem State.present_v (s : State) : s.present.v = s.v := rfl
@[simp] theorem State.present_pc (s : State) : s.present.pc = s.pc := rfl
@[simp] theorem State.present_i (s : State) : s.present.i = s.i := rfl
@[simp] theorem State.present_sp (s : State) : s.present.sp = s.sp := rfl
@[simp] theorem State.present_stack (s : State) : s.present.stack = s.stack := rfl
@[simp] theorem State.present_dt (s : State) : s.present.dt = s.dt := rfl
@[simp] theorem State.present_st (s : State) : s.present.st = s.st := rfl
@[simp] theorem State.present_k (s : State) : s.present.k = s.k := rfl
@[simp] theorem State.present_fb (s : State) : s.present.fb = s.fb := rfl
@[simp] theorem State.present_dirty (s : State) : s.present.dirty = false := rfl
@[simp] theorem State.present_run (s : State) : s.present.run = s.run := rfl
@[simp] theorem State.present_fault (s : State) : s.present.fault = s.fault := rfl
@[simp] theorem State.present_mem (s : State) : s.present.mem = s.mem := rfl
@[simp] theorem State.present_presentO (s : State) : s.present.presentO = s.dirty := rfl
@[simp] theorem State.present_toneO (s : State) : s.present.toneO = s.toneO := rfl
@[simp] theorem State.present_feed (s : State) : s.present.feed = s.feed := rfl
@[simp] theorem State.present_cycle (s : State) : s.present.cycle = s.cycle := rfl

/-! ### `State.tone` -/

@[simp] theorem State.tone_v (s : State) : s.tone.v = s.v := rfl
@[simp] theorem State.tone_pc (s : State) : s.tone.pc = s.pc := rfl
@[simp] theorem State.tone_i (s : State) : s.tone.i = s.i := rfl
@[simp] theorem State.tone_sp (s : State) : s.tone.sp = s.sp := rfl
@[simp] theorem State.tone_stack (s : State) : s.tone.stack = s.stack := rfl
@[simp] theorem State.tone_dt (s : State) : s.tone.dt = s.dt := rfl
@[simp] theorem State.tone_st (s : State) : s.tone.st = s.st := rfl
@[simp] theorem State.tone_k (s : State) : s.tone.k = s.k := rfl
@[simp] theorem State.tone_fb (s : State) : s.tone.fb = s.fb := rfl
@[simp] theorem State.tone_dirty (s : State) : s.tone.dirty = s.dirty := rfl
@[simp] theorem State.tone_run (s : State) : s.tone.run = s.run := rfl
@[simp] theorem State.tone_fault (s : State) : s.tone.fault = s.fault := rfl
@[simp] theorem State.tone_mem (s : State) : s.tone.mem = s.mem := rfl
@[simp] theorem State.tone_presentO (s : State) : s.tone.presentO = s.presentO := rfl
@[simp] theorem State.tone_toneO (s : State) : s.tone.toneO = (s.st != 0) := rfl
@[simp] theorem State.tone_feed (s : State) : s.tone.feed = s.feed := rfl
@[simp] theorem State.tone_cycle (s : State) : s.tone.cycle = s.cycle := rfl

/-! ### `State.raise`: the fields a fault determines (60_exceptions.md R232) -/

section
variable (s : State) (kind : FaultKind) (word : Option Word) (addr : Option Nat)

@[simp] theorem State.raise_run : (s.raise kind word addr).run = .halted := rfl
@[simp] theorem State.raise_fault : (s.raise kind word addr).fault = some ⟨kind, s.pc, word, addr⟩ := rfl
@[simp] theorem State.raise_mem :
    (s.raise kind word addr).mem = (Config.stateAfterFault s.cycle s).mem.normalize := rfl
@[simp] theorem State.raise_presentO : (s.raise kind word addr).presentO = false := rfl
@[simp] theorem State.raise_toneO : (s.raise kind word addr).toneO = false := rfl
@[simp] theorem State.raise_feed : (s.raise kind word addr).feed = s.feed := rfl
@[simp] theorem State.raise_cycle : (s.raise kind word addr).cycle = s.cycle := rfl

end

/-! ### The inputs of the cycle depend on `feed` and `cycle` only -/

theorem State.portsIn_congr {s t : State} (hf : s.feed = t.feed) (hc : s.cycle = t.cycle) :
    s.portsIn = t.portsIn := by
  simp only [State.portsIn, hf, hc]

end Sys2Proof.Machine
end

