-- ==== Sys2Proof/Laws/Ops.lean ====
section
/-! SUPPORT. What each shared operation can do, said once: register, pixel and memory accesses, the call stack, and
the end of an instruction that accesses memory. -/

namespace Sys2Proof.Machine

/-! ### Registers and pixels -/

@[simp] theorem State.reg_setReg (s : State) (r : RegIdx) (b : Byte) (q : RegIdx) :
    (s.setReg r b).reg q = if q = r then b else s.reg q := by
  simp only [State.reg, State.setReg, Vector.getElem_set, Fin.ext_iff, eq_comm]

@[simp] theorem State.reg_setResultFlag (s : State) (x : RegIdx) (b f : Byte) (q : RegIdx) :
    (s.setResultFlag x b f).reg q = if q = vf then f else if q = x then b else s.reg q := by
  simp only [State.setResultFlag, State.reg_setReg]

/-- A pixel of a framebuffer with one pixel set. -/
theorem fb_set_getElem (fb : Vector (Vector Bool 64) 32) (row : Fin 32) (col : Fin 64) (b : Bool) (r : Fin 32)
    (c : Fin 64) :
    (fb.set row.val (fb[row.val].set col.val b))[r.val][c.val] =
      if r = row ∧ c = col then b else fb[r.val][c.val] := by
  by_cases hr : r = row
  · subst r
    by_cases hc : c = col
    · subst c; simp
    · have : ¬ col.val = c.val := fun h => hc (Fin.ext h.symm)
      simp [hc, this]
  · have : ¬ row.val = r.val := fun h => hr (Fin.ext h.symm)
    simp [hr, this]

@[simp] theorem State.pixel_setPixel (s : State) (row : Fin 32) (col : Fin 64) (b : Bool) (r : Fin 32)
    (c : Fin 64) : (s.setPixel row col b).pixel r c = if r = row ∧ c = col then b else s.pixel r c :=
  fb_set_getElem s.fb row col b r c

@[simp] theorem State.pixel_clearFb (s : State) (r : Fin 32) (c : Fin 64) : s.clearFb.pixel r c = false := by
  simp only [State.pixel, State.clearFb, Vector.getElem_replicate]

@[simp] theorem State.pixel_setReg (s : State) (r : RegIdx) (b : Byte) (row' : Fin 32) (col' : Fin 64) :
    (s.setReg r b).pixel row' col' = s.pixel row' col' := rfl
@[simp] theorem State.portsIn_setReg (s : State) (r : RegIdx) (b : Byte) : (s.setReg r b).portsIn = s.portsIn := rfl
@[simp] theorem State.reg_setPc (s : State) (a : Word) (q : RegIdx) : (s.setPc a).reg q = s.reg q := rfl
@[simp] theorem State.pixel_setPc (s : State) (a : Word) (row' : Fin 32) (col' : Fin 64) :
    (s.setPc a).pixel row' col' = s.pixel row' col' := rfl
@[simp] theorem State.portsIn_setPc (s : State) (a : Word) : (s.setPc a).portsIn = s.portsIn := rfl
@[simp] theorem State.reg_advance (s : State) (q : RegIdx) : s.advance.reg q = s.reg q := rfl
@[simp] theorem State.pixel_advance (s : State) (row' : Fin 32) (col' : Fin 64) :
    s.advance.pixel row' col' = s.pixel row' col' := rfl
@[simp] theorem State.portsIn_advance (s : State) : s.advance.portsIn = s.portsIn := rfl
@[simp] theorem State.reg_skip (s : State) (q : RegIdx) : s.skip.reg q = s.reg q := rfl
@[simp] theorem State.pixel_skip (s : State) (row' : Fin 32) (col' : Fin 64) :
    s.skip.pixel row' col' = s.pixel row' col' := rfl
@[simp] theorem State.portsIn_skip (s : State) : s.skip.portsIn = s.portsIn := rfl
@[simp] theorem State.reg_setI (s : State) (a : Word) (q : RegIdx) : (s.setI a).reg q = s.reg q := rfl
@[simp] theorem State.pixel_setI (s : State) (a : Word) (row' : Fin 32) (col' : Fin 64) :
    (s.setI a).pixel row' col' = s.pixel row' col' := rfl
@[simp] theorem State.portsIn_setI (s : State) (a : Word) : (s.setI a).portsIn = s.portsIn := rfl
@[simp] theorem State.reg_incI (s : State) (q : RegIdx) : s.incI.reg q = s.reg q := rfl
@[simp] theorem State.pixel_incI (s : State) (row' : Fin 32) (col' : Fin 64) :
    s.incI.pixel row' col' = s.pixel row' col' := rfl
@[simp] theorem State.portsIn_incI (s : State) : s.incI.portsIn = s.portsIn := rfl
@[simp] theorem State.reg_setDt (s : State) (b : Byte) (q : RegIdx) : (s.setDt b).reg q = s.reg q := rfl
@[simp] theorem State.pixel_setDt (s : State) (b : Byte) (row' : Fin 32) (col' : Fin 64) :
    (s.setDt b).pixel row' col' = s.pixel row' col' := rfl
@[simp] theorem State.portsIn_setDt (s : State) (b : Byte) : (s.setDt b).portsIn = s.portsIn := rfl
@[simp] theorem State.reg_setSt (s : State) (b : Byte) (q : RegIdx) : (s.setSt b).reg q = s.reg q := rfl
@[simp] theorem State.pixel_setSt (s : State) (b : Byte) (row' : Fin 32) (col' : Fin 64) :
    (s.setSt b).pixel row' col' = s.pixel row' col' := rfl
@[simp] theorem State.portsIn_setSt (s : State) (b : Byte) : (s.setSt b).portsIn = s.portsIn := rfl
@[simp] theorem State.pixel_setResultFlag (s : State) (x : RegIdx) (b f : Byte) (row' : Fin 32) (col' : Fin 64) :
    (s.setResultFlag x b f).pixel row' col' = s.pixel row' col' := rfl
@[simp] theorem State.portsIn_setResultFlag (s : State) (x : RegIdx) (b f : Byte) : (s.setResultFlag x b f).portsIn = s.portsIn := rfl
@[simp] theorem State.reg_setPixel (s : State) (row : Fin 32) (col : Fin 64) (b : Bool) (q : RegIdx) : (s.setPixel row col b).reg q = s.reg q := rfl
@[simp] theorem State.portsIn_setPixel (s : State) (row : Fin 32) (col : Fin 64) (b : Bool) : (s.setPixel row col b).portsIn = s.portsIn := rfl
@[simp] theorem State.reg_clearFb (s : State) (q : RegIdx) : s.clearFb.reg q = s.reg q := rfl
@[simp] theorem State.portsIn_clearFb (s : State) : s.clearFb.portsIn = s.portsIn := rfl
@[simp] theorem State.reg_markDirty (s : State) (q : RegIdx) : s.markDirty.reg q = s.reg q := rfl
@[simp] theorem State.pixel_markDirty (s : State) (row' : Fin 32) (col' : Fin 64) :
    s.markDirty.pixel row' col' = s.pixel row' col' := rfl
@[simp] theorem State.portsIn_markDirty (s : State) : s.markDirty.portsIn = s.portsIn := rfl

@[simp] theorem State.reg_sampleKeys (s : State) (q : RegIdx) : s.sampleKeys.reg q = s.reg q := rfl
@[simp] theorem State.pixel_sampleKeys (s : State) (r : Fin 32) (c : Fin 64) :
    s.sampleKeys.pixel r c = s.pixel r c := rfl
@[simp] theorem State.portsIn_sampleKeys (s : State) : s.sampleKeys.portsIn = s.portsIn := rfl

/-- Two states with the same registers, read one by one, have the same register file. -/
theorem State.v_ext {s t : State} (h : ∀ r : RegIdx, s.reg r = t.reg r) : s.v = t.v :=
  Vector.ext fun i hi => h ⟨i, hi⟩

/-- Two states with the same pixels have the same framebuffer. -/
theorem State.fb_ext {s t : State} (h : ∀ r c, s.pixel r c = t.pixel r c) : s.fb = t.fb :=
  Vector.ext fun i hi => Vector.ext fun j hj => h ⟨i, hi⟩ ⟨j, hj⟩

/-! ### Skips -/

theorem State.skipIf_eq (s : State) (cond : Bool) :
    s.skipIf cond = s.setPc (if cond then s.pc + 4 else s.pc + 2) := by
  cases cond <;> rfl

/-! ### Memory accesses (20_memory.md R62, R63) -/

theorem State.memRead_eq (s : State) (a : Nat) :
    s.memRead a = if a ≤ 0xFFF then .ok (s.mem.read a) else .error a := rfl

theorem State.memWrite_eq (s : State) (a : Nat) (b : Byte) :
    s.memWrite a b = if a ≤ 0xFFF then .ok { s with mem := s.mem.write a b } else .error a := rfl

/-- Bytes written at successive addresses: all of them when they fit, else the first address outside memory. -/
theorem State.memWriteBytes_eq (s : State) (a : Nat) (vs : List Byte) :
    s.memWriteBytes a vs =
      if vs = [] ∨ a + vs.length ≤ 0x1000 then .ok { s with mem := s.mem.writeBytes a vs }
      else .error (max a 0x1000) := by
  induction vs generalizing s a with
  | nil => simp [State.memWriteBytes, Memory.writeBytes]
  | cons v vs ih =>
    simp only [State.memWriteBytes, State.memWrite_eq, List.length_cons, reduceCtorEq, false_or]
    by_cases ha : a ≤ 0xFFF
    · simp only [if_pos ha, ih, Memory.writeBytes]
      rcases vs with _ | ⟨u, us⟩
      · simp only [true_or, if_true, List.length_nil]
        rw [if_pos (by omega)]
      · simp only [List.length_cons, reduceCtorEq, false_or]
        by_cases h : a + 1 + (us.length + 1) ≤ 0x1000
        · rw [if_pos h, if_pos (by omega)]
        · rw [if_neg h, if_neg (by omega)]
          congr 1
          omega
    · simp only [if_neg ha]
      rw [if_neg (by omega)]
      congr 1
      omega

/-! ### The call stack (10_state.md R30, R31) -/

theorem State.push_of_lt (s : State) (h : s.sp.val < 16) :
    s.push = some { s with stack := s.stack.set s.sp.val s.pc, sp := ⟨s.sp.val + 1, Nat.succ_lt_succ h⟩ } := by
  simp only [State.push, dif_pos h]

theorem State.push_full (s : State) (h : s.sp.val = 16) : s.push = none := by
  simp only [State.push, dif_neg (show ¬ s.sp.val < 16 by omega)]

theorem State.pop_of_pos (s : State) (h : 0 < s.sp.val) :
    s.pop = some (s.stack[s.sp.val - 1]'(by have := s.sp.isLt; omega),
      { s with sp := ⟨s.sp.val - 1, by have := s.sp.isLt; omega⟩ }) := by
  simp only [State.pop, dif_pos h]

theorem State.pop_empty (s : State) (h : s.sp.val = 0) : s.pop = none := by
  simp only [State.pop, dif_neg (show ¬ 0 < s.sp.val by omega)]

/-! ### Faults -/

theorem State.raiseIn_eq (s : State) (i : Instr) (kind : FaultKind) (addr : Option Nat) :
    s.raiseIn i kind addr = .next (s.raise kind (some (encode i)) addr) := rfl

/-- An instruction that accesses memory ends in the state it reached with `PC` advanced, or in its
`AddressOutOfRange`. -/
theorem State.finishAccess_cases {s : State} {i : Instr} {e : Except Nat State} {t : State}
    (h : s.finishAccess i e = .next t) :
    (∃ u, e = .ok u ∧ t = u.advance) ∨
      (∃ a, e = .error a ∧ t = s.raise .addressOutOfRange (some (encode i)) (some a)) := by
  cases e with
  | ok u => exact .inl ⟨u, rfl, (Host.Outcome.next.inj h).symm⟩
  | error a => exact .inr ⟨a, rfl, (Host.Outcome.next.inj h).symm⟩

end Sys2Proof.Machine
end

