-- ==== Sys2Proof/Laws/Loops.lean ====
section
/-! SUPPORT. What the loops of the register-block instructions and of `DRW` do, by induction on the loop. -/

namespace Sys2Proof.Machine

/-! ### The register-block loops (44_index_memory.md R178, R180) -/

theorem word_toNat_incr {a : Word} (h : a.toNat ≤ 0xFFF) : (a + 1).toNat = a.toNat + 1 := by
  have one : (1 : Word).toNat = 1 := rfl
  rw [BitVec.toNat_add, one]
  omega

theorem word_incr_add (a : Word) (n : Nat) : a + 1 + BitVec.ofNat 16 n = a + BitVec.ofNat 16 (n + 1) := by
  apply BitVec.eq_of_toNat_eq
  simp only [BitVec.toNat_add, BitVec.toNat_ofNat]
  have one : (1 : Word).toNat = 1 := rfl
  rw [one]
  omega

/-- The store loop: every register's byte at the successive addresses, `I` past the last of them; or the first address
outside memory. -/
theorem dumpRegs_eq (rs : List RegIdx) (s : State) :
    dumpRegs rs s =
      if rs = [] ∨ s.i.toNat + rs.length ≤ 0x1000 then
        .ok { s with mem := s.mem.writeBytes s.i.toNat (rs.map s.reg), i := s.i + BitVec.ofNat 16 rs.length }
      else .error (max s.i.toNat 0x1000) := by
  induction rs generalizing s with
  | nil => simp [dumpRegs, Memory.writeBytes]
  | cons r rs ih =>
    simp only [dumpRegs, State.memWrite_eq, List.length_cons, reduceCtorEq, false_or]
    by_cases ha : s.i.toNat ≤ 0xFFF
    · have hi := word_toNat_incr ha
      simp only [if_pos ha, ih, State.incI, State.setI, List.map_cons, Memory.writeBytes, hi]
      have hreg : (State.reg { s with mem := s.mem.write s.i.toNat (s.reg r), i := s.i + 1 }) = s.reg := rfl
      rw [word_incr_add, hreg]
      rcases rs with _ | ⟨q, qs⟩
      · simp only [true_or, if_true, List.length_nil]
        rw [if_pos (by omega)]
      · simp only [List.length_cons, reduceCtorEq, false_or]
        by_cases h : s.i.toNat + 1 + (qs.length + 1) ≤ 0x1000
        · rw [if_pos h, if_pos (by omega)]
        · rw [if_neg h, if_neg (by omega)]
          congr 1
          omega
    · simp only [if_neg ha]
      rw [if_neg (by omega)]
      congr 1
      omega

/-- The load loop fails exactly when its last address is outside memory, at the first such address; else it changes
`V` and `I` only. -/
theorem loadRegs_cases (rs : List RegIdx) (s : State) :
    if rs = [] ∨ s.i.toNat + rs.length ≤ 0x1000 then
      ∃ t, loadRegs rs s = .ok t ∧ t = { s with v := t.v, i := s.i + BitVec.ofNat 16 rs.length }
    else loadRegs rs s = .error (max s.i.toNat 0x1000) := by
  induction rs generalizing s with
  | nil => exact (if_pos (.inl rfl)).mpr ⟨s, rfl, by simp⟩
  | cons r rs ih =>
    simp only [loadRegs, State.memRead_eq, List.length_cons, reduceCtorEq, false_or]
    by_cases ha : s.i.toNat ≤ 0xFFF
    · have hi := word_toNat_incr ha
      have := ih (s.setReg r (s.mem.read s.i.toNat)).incI
      simp only [State.incI_i, State.setReg_i, hi] at this
      simp only [if_pos ha]
      by_cases h : s.i.toNat + (rs.length + 1) ≤ 0x1000
      · rw [if_pos h]
        rw [if_pos (.inr (by omega))] at this
        obtain ⟨t, ht, hs⟩ := this
        refine ⟨t, ht, ?_⟩
        rw [word_incr_add] at hs
        rw [hs]
        rfl
      · rw [if_neg h]
        rw [if_neg (by rintro (rfl | h'); · simp at h; omega
                       · omega)] at this
        rw [this]
        congr 1
        omega
    · simp only [if_neg ha]
      rw [if_neg (by omega)]
      congr 1
      omega

/-- Consecutive registers loaded: `V[start + j]` holds the byte at `I + j`, the others are unchanged. -/
theorem loadRegs_reg (rs : List RegIdx) (start : Nat) (s t : State)
    (hrs : rs.map Fin.val = List.range' start rs.length) (h : loadRegs rs s = .ok t) (q : RegIdx) :
    t.reg q = if start ≤ q.val ∧ q.val < start + rs.length then s.mem.read (s.i.toNat + (q.val - start))
      else s.reg q := by
  induction rs generalizing s start with
  | nil =>
    obtain rfl : s = t := by simpa [loadRegs] using h
    simp only [List.length_nil, Nat.add_zero]
    rw [if_neg (by omega)]
  | cons r rs ih =>
    simp only [List.map_cons, List.length_cons, List.range'_succ, List.cons.injEq] at hrs
    simp only [loadRegs, State.memRead_eq] at h
    by_cases ha : s.i.toNat ≤ 0xFFF
    · simp only [if_pos ha] at h
      have hi := word_toNat_incr ha
      rw [ih (start + 1) _ hrs.2 h]
      simp only [State.incI_i, State.incI_mem, State.setReg_i, State.setReg_mem, State.reg_incI, State.reg_setReg, hi,
        List.length_cons, Fin.ext_iff, hrs.1]
      by_cases hq : q.val = start
      · rw [if_neg (by omega), if_pos hq, if_pos (by omega), hq]
        simp
      · by_cases hr : start + 1 ≤ q.val ∧ q.val < start + 1 + rs.length
        · rw [if_pos hr, if_pos (by omega)]
          congr 1
          omega
        · rw [if_neg hr, if_neg hq, if_neg (by omega)]
    · simp [if_neg ha] at h

theorem regsUpTo_val (x : RegIdx) : (regsUpTo x).map Fin.val = List.range' 0 (regsUpTo x).length := by
  revert x; decide

@[simp] theorem regsUpTo_length (x : RegIdx) : (regsUpTo x).length = x.val + 1 := by
  revert x; decide

theorem regsUpTo_ne_nil (x : RegIdx) : regsUpTo x ≠ [] := by
  intro h
  have := regsUpTo_length x
  rw [h] at this
  simp at this

/-- The registers `0` to `x` are register `j` at place `j`. -/
theorem regsUpTo_map_getD (x : RegIdx) (f : RegIdx → Byte) (j : RegIdx) (h : j.val ≤ x.val) :
    ((regsUpTo x).map f).getD j.val 0 = f j := by
  have : (regsUpTo x)[j.val]? = some j := by revert x j; decide
  rw [List.getD_eq_getElem?_getD, List.getElem?_map, this]
  rfl

/-! ### The loops of `DRW` (45_display.md R192) -/

/-- A flip, by what the pixel was. -/
theorem State.flipPixel_eq (s : State) (row : Fin 32) (col : Fin 64) :
    s.flipPixel row col =
      if s.pixel row col then (s.setPixel row col false).setReg vf 1 else s.setPixel row col true := by
  unfold State.flipPixel
  cases h : s.pixel row col <;> simp

theorem State.flipPixel_pixel (s : State) (row : Fin 32) (col : Fin 64) (r : Fin 32) (c : Fin 64) :
    (s.flipPixel row col).pixel r c = if r = row ∧ c = col then !s.pixel row col else s.pixel r c := by
  rw [State.flipPixel_eq]
  cases h : s.pixel row col <;> simp

theorem State.flipPixel_reg (s : State) (row : Fin 32) (col : Fin 64) (q : RegIdx) :
    (s.flipPixel row col).reg q = if q = vf ∧ s.pixel row col = true then 1 else s.reg q := by
  rw [State.flipPixel_eq]
  cases h : s.pixel row col <;> simp

/-- A flip writes the framebuffer and `VF` only. -/
theorem State.flipPixel_frame (s : State) (row : Fin 32) (col : Fin 64) :
    s.flipPixel row col = { s with v := (s.flipPixel row col).v, fb := (s.flipPixel row col).fb } := by
  rw [State.flipPixel_eq]
  cases s.pixel row col <;> rfl

/-- The columns of a sprite row write the framebuffer and `VF` only. -/
theorem drawCols_frame (x : RegIdx) (row : Fin 32) (b : Byte) (cs : List Nat) (s : State) :
    drawCols x row b cs s =
      { s with v := (drawCols x row b cs s).v, fb := (drawCols x row b cs s).fb } := by
  induction cs generalizing s with
  | nil => rfl
  | cons c cs ih =>
    simp only [drawCols]
    split
    · split
      · rw [ih, State.flipPixel_frame]
      · rfl
    · exact ih s

theorem drawCols_reg (x : RegIdx) (row : Fin 32) (b : Byte) (cs : List Nat) (s : State) (q : RegIdx)
    (hq : q ≠ vf) : (drawCols x row b cs s).reg q = s.reg q := by
  induction cs generalizing s with
  | nil => rfl
  | cons c cs ih =>
    simp only [drawCols]
    split
    · split
      · rw [ih, State.flipPixel_reg, if_neg fun h => hq h.1]
      · rfl
    · exact ih s

/-- `VF` is 0 or 1 during the columns, if it was before. -/
theorem drawCols_vf (x : RegIdx) (row : Fin 32) (b : Byte) (cs : List Nat) (s : State)
    (h : s.reg vf = 0 ∨ s.reg vf = 1) :
    (drawCols x row b cs s).reg vf = 0 ∨ (drawCols x row b cs s).reg vf = 1 := by
  induction cs generalizing s with
  | nil => exact h
  | cons c cs ih =>
    simp only [drawCols]
    split
    · split
      · refine ih _ ?_
        rw [State.flipPixel_reg]
        split
        · exact .inr rfl
        · exact h
      · exact h
    · exact ih s h

/-- A completed row loop writes the framebuffer and `VF` only, and leaves `VF` at 0 or 1. -/
theorem drawRows_ok (x y : RegIdx) (k r : Nat) (s t : State) (h : drawRows x y k r s = .ok t) :
    t = { s with v := t.v, fb := t.fb } ∧ (∀ q, q ≠ vf → t.reg q = s.reg q) ∧
      ((s.reg vf = 0 ∨ s.reg vf = 1) → (t.reg vf = 0 ∨ t.reg vf = 1)) := by
  induction k generalizing r s with
  | zero =>
    obtain rfl : s = t := by simpa [drawRows] using h
    exact ⟨rfl, fun _ _ => rfl, id⟩
  | succ k ih =>
    simp only [drawRows] at h
    split at h
    · simp only [State.memRead_eq] at h
      by_cases ha : s.i.toNat + r ≤ 0xFFF
      · simp only [if_pos ha] at h
        obtain ⟨h1, h2, h3⟩ := ih _ _ h
        refine ⟨?_, fun q hq => by rw [h2 q hq, drawCols_reg _ _ _ _ _ _ hq], fun hv => h3 (drawCols_vf _ _ _ _ _ hv)⟩
        rw [h1, drawCols_frame]
      · simp [if_neg ha] at h
    · obtain rfl : s = t := by simpa using h
      exact ⟨rfl, fun _ _ => rfl, id⟩

/-- The row loop can fail only at an address it reads, and that address is outside memory. -/
theorem drawRows_error (x y : RegIdx) (k r : Nat) (s : State) (a : Nat) (h : drawRows x y k r s = .error a) :
    0xFFF < a ∧ s.i.toNat + r ≤ a ∧ a < s.i.toNat + r + k := by
  induction k generalizing r s with
  | zero => simp [drawRows] at h
  | succ k ih =>
    simp only [drawRows] at h
    split at h
    · simp only [State.memRead_eq] at h
      by_cases ha : s.i.toNat + r ≤ 0xFFF
      · simp only [if_pos ha] at h
        have := ih _ _ h
        rw [drawCols_frame] at this
        simp only at this
        omega
      · simp only [if_neg ha, Except.error.injEq] at h
        omega
    · simp at h

end Sys2Proof.Machine
end

