-- ==== Sys2Proof/Laws/Draw.lean ====
section
/-! SUPPORT. Which pixels the loops of `DRW` invert, and when they set `VF` (spec/45_display.md R192, R194), by
induction on the loops. -/

namespace Sys2Proof.Machine

/-- Does a sprite row with left edge `left` and byte `b` have a 1 bit, among the columns `cs`, at screen column `col`? -/
def rowHits (b : Byte) (left : Nat) (cs : List Nat) (col : Nat) : Bool :=
  cs.any fun c => spriteBit b c && left + c == col

/-- The left edge stays the same during a row: `V[x]` is not `VF`, or `VF` is 1 already, or no pixel of the row is hit. -/
def LeftIsFixed (x : RegIdx) (row : Fin 32) (b : Byte) (cs : List Nat) (s : State) : Prop :=
  (x ≠ vf ∨ s.reg vf = 1) ∨ s.reg vf = 0 ∧ ∀ c : Fin 64, rowHits b (spriteLeft (s.reg x)) cs c.val = true → s.pixel row c = false

/-- A flip changes no register but `VF`, and not `VF` where it is 1. -/
theorem State.flipPixel_reg_fixed {s : State} {q : RegIdx} (row : Fin 32) (col : Fin 64) (h : q ≠ vf ∨ s.reg vf = 1) :
    (s.flipPixel row col).reg q = s.reg q := by
  rw [State.flipPixel_reg]
  split
  · rename_i hq
    rcases h with h | h
    · exact absurd hq.1 h
    · rw [hq.1, h]
  · rfl

theorem ite_of_iff {α : Sort _} {p q : Prop} [Decidable p] [Decidable q] (h : p ↔ q) (a b : α) :
    (if p then a else b) = if q then a else b := by
  by_cases hp : p
  · rw [if_pos hp, if_pos (h.mp hp)]
  · rw [if_neg hp, if_neg fun hq => hp (h.mpr hq)]

theorem rowHits_cons (b : Byte) (left c : Nat) (cs : List Nat) (col : Nat) :
    rowHits b left (c :: cs) col = (spriteBit b c && left + c == col || rowHits b left cs col) := by
  simp only [rowHits, List.any_cons]

/-- Columns to the right do not meet a column to the left of them. -/
theorem rowHits_of_lt {b : Byte} {left col : Nat} {cs : List Nat} (h : ∀ c ∈ cs, col < left + c) :
    rowHits b left cs col = false := by
  simp only [rowHits, List.any_eq_false, Bool.and_eq_true, beq_iff_eq, not_and]
  intro c hc _ e
  have := h c hc
  omega

/-- A row inverts exactly the pixels under its 1 bits that are on the screen, and sets `VF` exactly if one of them was
1. -/
theorem drawCols_spec (x : RegIdx) (row : Fin 32) (b : Byte) (cs : List Nat) (s : State)
    (hcs : cs.Pairwise (· < ·)) (hx : LeftIsFixed x row b cs s) :
    (∀ r c, (drawCols x row b cs s).pixel r c =
      (s.pixel r c != (decide (r = row) && rowHits b (spriteLeft (s.reg x)) cs c.val))) ∧
    (drawCols x row b cs s).reg vf =
      if ∃ c : Fin 64, rowHits b (spriteLeft (s.reg x)) cs c.val = true ∧ s.pixel row c = true then 1
      else s.reg vf := by
  induction cs generalizing s with
  | nil => simp [drawCols, rowHits]
  | cons c cs ih =>
    obtain ⟨hc, hcs'⟩ := List.pairwise_cons.mp hcs
    simp only [drawCols]
    by_cases hb : spriteBit b c = true
    · rw [if_pos hb]
      by_cases h64 : spriteLeft (s.reg x) + c < 64
      · rw [dif_pos h64]
        have hself : rowHits b (spriteLeft (s.reg x)) (c :: cs) (spriteLeft (s.reg x) + c) = true := by
          rw [rowHits_cons, hb]; simp
        have hfresh : rowHits b (spriteLeft (s.reg x)) cs (spriteLeft (s.reg x) + c) = false :=
          rowHits_of_lt fun d hd => by have := hc d hd; omega
        have hreg : (s.flipPixel row ⟨spriteLeft (s.reg x) + c, h64⟩).reg x = s.reg x := by
          rcases hx with hx | ⟨-, hx⟩
          · exact State.flipPixel_reg_fixed _ _ hx
          · rw [State.flipPixel_reg, if_neg fun h => by simp [hx ⟨_, h64⟩ hself] at h]
        have hx' : LeftIsFixed x row b cs (s.flipPixel row ⟨spriteLeft (s.reg x) + c, h64⟩) := by
          rcases hx with hx | ⟨h0, hx⟩
          · exact .inl (hx.imp_right fun h => (State.flipPixel_reg_fixed _ _ (.inr h)).trans h)
          · refine .inr ⟨?_, fun d hd => ?_⟩
            · rw [State.flipPixel_reg, if_neg fun h => by simp [hx ⟨_, h64⟩ hself] at h]
              exact h0
            · rw [hreg] at hd
              rw [State.flipPixel_pixel, if_neg]
              · exact hx d (by rw [rowHits_cons, hd, Bool.or_true])
              · rintro ⟨-, rfl⟩
                simp [hfresh] at hd
        obtain ⟨ihp, ihv⟩ := ih _ hcs' hx'
        rw [hreg] at ihp ihv
        refine ⟨fun r d => ?_, ?_⟩
        · rw [ihp, State.flipPixel_pixel, rowHits_cons, hb, Bool.true_and]
          by_cases hd : r = row ∧ d = ⟨spriteLeft (s.reg x) + c, h64⟩
          · obtain ⟨rfl, rfl⟩ := hd
            rw [if_pos ⟨rfl, rfl⟩, hfresh]
            simp
          · rw [if_neg hd]
            by_cases hr : r = row
            · have : (spriteLeft (s.reg x) + c == d.val) = false := by
                rw [beq_eq_false_iff_ne]
                exact fun e => hd ⟨hr, Fin.ext e.symm⟩
              rw [this, Bool.false_or]
            · simp [hr]
        · rw [ihv, State.flipPixel_reg]
          by_cases hhit : s.pixel row ⟨spriteLeft (s.reg x) + c, h64⟩ = true
          · have hex : ∃ d : Fin 64, rowHits b (spriteLeft (s.reg x)) (c :: cs) d.val = true ∧
                s.pixel row d = true := ⟨_, hself, hhit⟩
            have hvf : vf = vf ∧ s.pixel row ⟨spriteLeft (s.reg x) + c, h64⟩ = true := ⟨rfl, hhit⟩
            rw [if_pos hex, if_pos hvf]
            split <;> rfl
          · have hvf : ¬ (vf = vf ∧ s.pixel row ⟨spriteLeft (s.reg x) + c, h64⟩ = true) := fun h => hhit h.2
            rw [if_neg hvf]
            refine ite_of_iff ⟨?_, ?_⟩ _ _
            · rintro ⟨d, hd, hp⟩
              have hne : ¬ (row = row ∧ d = ⟨spriteLeft (s.reg x) + c, h64⟩) := by
                rintro ⟨-, rfl⟩
                simp [hfresh] at hd
              rw [State.flipPixel_pixel, if_neg hne] at hp
              exact ⟨d, by rw [rowHits_cons, hd, Bool.or_true], hp⟩
            · rintro ⟨d, hd, hp⟩
              rw [rowHits_cons, Bool.or_eq_true, Bool.and_eq_true, beq_iff_eq] at hd
              have hne : ¬ (row = row ∧ d = ⟨spriteLeft (s.reg x) + c, h64⟩) := by
                rintro ⟨-, rfl⟩
                exact hhit hp
              rcases hd with ⟨-, hd⟩ | hd
              · exact absurd ⟨rfl, Fin.ext hd.symm⟩ hne
              · exact ⟨d, hd, by rw [State.flipPixel_pixel, if_neg hne]; exact hp⟩
      · rw [dif_neg h64]
        have none : ∀ d : Fin 64, rowHits b (spriteLeft (s.reg x)) (c :: cs) d.val = false := fun d =>
          rowHits_of_lt fun e he => by
            have := d.isLt
            rcases List.mem_cons.mp he with rfl | he
            · omega
            · have := hc e he
              omega
        simp [none]
    · rw [if_neg hb]
      have same : ∀ col, rowHits b (spriteLeft (s.reg x)) (c :: cs) col = rowHits b (spriteLeft (s.reg x)) cs col := by
        intro col
        rw [rowHits_cons, Bool.eq_false_iff.mpr hb, Bool.false_and, Bool.false_or]
      have := ih s hcs' (hx.imp_right fun h => ⟨h.1, fun d hd => h.2 d (by rw [same]; exact hd)⟩)
      simp only [same]
      exact this

/-- The eight columns of a sprite row: column `col` is met exactly where it is one of the eight from `left` and the bit is
1 (45_display.md R191, R194). -/
theorem rowHits_spriteCols (b : Byte) (left col : Nat) :
    rowHits b left spriteCols col =
      (decide (left ≤ col ∧ col ≤ left + 7) && b.getLsbD (7 - (col - left))) := by
  by_cases h : left ≤ col ∧ col ≤ left + 7
  · obtain ⟨d, rfl⟩ : ∃ d, col = left + d := ⟨col - left, by omega⟩
    have hd : d = 0 ∨ d = 1 ∨ d = 2 ∨ d = 3 ∨ d = 4 ∨ d = 5 ∨ d = 6 ∨ d = 7 := by omega
    have e : left + d - left = d := by omega
    rw [e]
    have ne : ∀ c, (left + c == left + d) = (c == d) := fun c => by
      rw [Bool.eq_iff_iff, beq_iff_eq, beq_iff_eq]
      omega
    simp only [rowHits, spriteCols, spriteBit, List.any_cons, List.any_nil, ne, decide_eq_true h, Bool.true_and]
    rcases hd with rfl | rfl | rfl | rfl | rfl | rfl | rfl | rfl <;> simp
  · rw [decide_eq_false h, Bool.false_and]
    simp only [rowHits, List.any_eq_false, Bool.and_eq_true, beq_iff_eq, not_and]
    intro c hc _ e
    simp only [spriteCols, List.mem_cons, List.not_mem_nil, or_false] at hc
    omega

theorem spriteCols_pairwise : spriteCols.Pairwise (· < ·) := by decide

/-- Is pixel `(row, col)` under a 1 bit of one of the `k` sprite rows from row `r` on, with top edge `top` and left edge
`left`? -/
def rowsHit (s : State) (top left k r : Nat) (row : Fin 32) (col : Fin 64) : Bool :=
  decide (top + r ≤ row.val ∧ row.val < top + r + k) &&
    rowHits (s.mem.read (s.i.toNat + (row.val - top))) left spriteCols col.val

/-- The row loop inverts exactly the pixels under the 1 bits of its rows and sets `VF` exactly if one of them was 1, when
its coordinates stay the same: neither `V[x]` nor `V[y]` is `VF`, or `VF` is 1 already, or `VF` is 0 and no pixel is
hit. -/
theorem drawRows_spec (x y : RegIdx) (k r : Nat) (s : State)
    (hread : ∀ j, r ≤ j → j < r + k → spriteTop (s.reg y) + j < 32 → s.i.toNat + j ≤ 0xFFF)
    (hxy : (x ≠ vf ∧ y ≠ vf ∨ s.reg vf = 1) ∨ s.reg vf = 0 ∧ ∀ row col,
      rowsHit s (spriteTop (s.reg y)) (spriteLeft (s.reg x)) k r row col = true → s.pixel row col = false) :
    ∃ t, drawRows x y k r s = .ok t ∧
      (∀ row col, t.pixel row col =
        (s.pixel row col != rowsHit s (spriteTop (s.reg y)) (spriteLeft (s.reg x)) k r row col)) ∧
      t.reg vf =
        if ∃ row col, rowsHit s (spriteTop (s.reg y)) (spriteLeft (s.reg x)) k r row col = true ∧
          s.pixel row col = true then 1 else s.reg vf := by
  induction k generalizing r s with
  | zero =>
    have none : ∀ top left row col, rowsHit s top left 0 r row col = false := by
      intro top left row col
      simp only [rowsHit, Bool.and_eq_false_iff, decide_eq_false_iff_not]
      exact .inl (by omega)
    exact ⟨s, rfl, fun _ _ => by simp [none], by simp [none]⟩
  | succ k ih =>
    simp only [drawRows]
    by_cases h32 : spriteTop (s.reg y) + r < 32
    · rw [dif_pos h32, State.memRead_eq, if_pos (hread r (by omega) (by omega) h32)]
      simp only
      generalize hrow : (⟨spriteTop (s.reg y) + r, h32⟩ : Fin 32) = row0
      have hrowv : row0.val = spriteTop (s.reg y) + r := by rw [← hrow]
      generalize hbyte : s.mem.read (s.i.toNat + r) = b
      -- the rows split into row `r` and the rows after it
      have split_row : ∀ row col, rowsHit s (spriteTop (s.reg y)) (spriteLeft (s.reg x)) (k + 1) r row col =
          (decide (row = row0) && rowHits b (spriteLeft (s.reg x)) spriteCols col.val ||
            rowsHit s (spriteTop (s.reg y)) (spriteLeft (s.reg x)) k (r + 1) row col) := by
        intro row col
        simp only [rowsHit, Fin.ext_iff, hrowv]
        by_cases he : row.val = spriteTop (s.reg y) + r
        · have e1 : row.val - spriteTop (s.reg y) = r := by omega
          rw [e1, hbyte, decide_eq_true he, decide_eq_true (by omega), decide_eq_false (by omega)]
          simp
        · rw [decide_eq_false he, Bool.false_and, Bool.false_or]
          congr 1
          exact decide_eq_decide.mpr (by omega)
      have disjoint : ∀ col, rowsHit s (spriteTop (s.reg y)) (spriteLeft (s.reg x)) k (r + 1) row0 col = false := by
        intro col
        simp only [rowsHit, Bool.and_eq_false_iff, decide_eq_false_iff_not]
        exact .inl (by omega)
      have hleft : LeftIsFixed x row0 b spriteCols s := by
        rcases hxy with hxy | ⟨h0, hno⟩
        · exact .inl (hxy.imp_left And.left)
        · exact .inr ⟨h0, fun c hc => hno row0 c (by rw [split_row]; simp [hc])⟩
      obtain ⟨hp, hv⟩ := drawCols_spec x row0 b spriteCols s spriteCols_pairwise hleft
      generalize hs' : drawCols x row0 b spriteCols s = s' at hp hv ⊢
      have hmem : s'.mem = s.mem := by rw [← hs', drawCols_frame]
      have hi : s'.i = s.i := by rw [← hs', drawCols_frame]
      have hregs : ∀ q, q ≠ vf → s'.reg q = s.reg q := fun q hq => by rw [← hs', drawCols_reg _ _ _ _ _ _ hq]
      have hone : s.reg vf = 1 → s'.reg vf = s.reg vf := fun h => by
        rw [hv, h]
        split <;> rfl
      have hx' : s'.reg x = s.reg x := by
        rcases hxy with hxy | ⟨h0, hno⟩
        · by_cases hx : x = vf
          · rw [hx]
            exact hone (hxy.resolve_left fun h => h.1 hx)
          · exact hregs x hx
        · by_cases hx : x = vf
          · subst hx
            rw [hv, if_neg]
            rintro ⟨c, hc, hpix⟩
            simp [hno row0 c (by rw [split_row]; simp [hc])] at hpix
          · exact hregs x hx
      have hy' : s'.reg y = s.reg y := by
        rcases hxy with hxy | ⟨h0, hno⟩
        · by_cases hy : y = vf
          · rw [hy]
            exact hone (hxy.resolve_left fun h => h.2 hy)
          · exact hregs y hy
        · by_cases hy : y = vf
          · subst hy
            rw [hv, if_neg]
            rintro ⟨c, hc, hpix⟩
            simp [hno row0 c (by rw [split_row]; simp [hc])] at hpix
          · exact hregs y hy
      have hrest : ∀ top left row col, rowsHit s' top left k (r + 1) row col = rowsHit s top left k (r + 1) row col := by
        intro top left row col
        simp only [rowsHit, hmem, hi]
      have other : ∀ row col, rowsHit s (spriteTop (s.reg y)) (spriteLeft (s.reg x)) k (r + 1) row col = true →
          s'.pixel row col = s.pixel row col := by
        intro row col hh
        rw [hp]
        have : row ≠ row0 := fun e => by rw [e, disjoint] at hh; simp at hh
        simp [this]
      obtain ⟨t, ht, htp, htv⟩ := ih (r + 1) s' (by
        intro j h1 h2 h3
        rw [hy'] at h3
        rw [hi]
        exact hread j (by omega) (by omega) h3) (by
        rcases hxy with hne | ⟨h0, hno⟩
        · exact .inl (hne.imp_right fun h => (hone h).trans h)
        · refine .inr ⟨?_, fun row col hh => ?_⟩
          · rw [hv, if_neg]
            · exact h0
            · rintro ⟨c, hc, hpix⟩
              simp [hno row0 c (by rw [split_row]; simp [hc])] at hpix
          · rw [hy', hx', hrest] at hh
            rw [other row col hh]
            exact hno row col (by rw [split_row, hh, Bool.or_true]))
      refine ⟨t, ht, fun row col => ?_, ?_⟩
      · rw [htp, hy', hx', hrest, hp, split_row]
        by_cases hr : row = row0
        · subst hr
          rw [disjoint]
          simp
        · simp [hr]
      · rw [htv, hy', hx']
        simp only [hrest]
        rw [hv]
        by_cases h1 : ∃ c : Fin 64, rowHits b (spriteLeft (s.reg x)) spriteCols c.val = true ∧ s.pixel row0 c = true
        · have h2 : ∃ row col, rowsHit s (spriteTop (s.reg y)) (spriteLeft (s.reg x)) (k + 1) r row col = true ∧
              s.pixel row col = true := by
            obtain ⟨c, hc, hpix⟩ := h1
            exact ⟨row0, c, by rw [split_row]; simp [hc], hpix⟩
          rw [if_pos h1, if_pos h2]
          split <;> rfl
        · rw [if_neg h1]
          refine ite_of_iff ⟨?_, ?_⟩ _ _
          · rintro ⟨row, col, hh, hpix⟩
            rw [other row col hh] at hpix
            exact ⟨row, col, by rw [split_row, hh, Bool.or_true], hpix⟩
          · rintro ⟨row, col, hh, hpix⟩
            rw [split_row, Bool.or_eq_true, Bool.and_eq_true, decide_eq_true_eq] at hh
            rcases hh with ⟨rfl, hc⟩ | hh
            · exact absurd ⟨col, hc, hpix⟩ h1
            · exact ⟨row, col, hh, by rw [other row col hh]; exact hpix⟩
    · rw [dif_neg h32]
      have none : ∀ row col, rowsHit s (spriteTop (s.reg y)) (spriteLeft (s.reg x)) (k + 1) r row col = false := by
        intro row col
        simp only [rowsHit, Bool.and_eq_false_iff, decide_eq_false_iff_not]
        have := row.isLt
        exact .inl (by omega)
      exact ⟨s, rfl, fun _ _ => by simp [none], by simp [none]⟩

/-! ### The first pixel hit (45_display.md R193): from it on `VF` is 1, so a coordinate in `VF` moves by one -/

/-- `V[q]` as a coordinate register of `DRW`, before or after the first hit: `VF` holds 0 before it and 1 after it. -/
def State.regAround (s : State) (q : RegIdx) (later : Prop) [Decidable later] : Byte :=
  if q = vf then (if later then 1 else 0) else s.reg q

theorem State.regAround_before {s : State} {q : RegIdx} {p : Prop} [Decidable p] (h0 : s.reg vf = 0) (hp : ¬ p) :
    s.regAround q p = s.reg q := by
  unfold State.regAround
  by_cases hq : q = vf
  · rw [if_pos hq, if_neg hp, hq, h0]
  · rw [if_neg hq]

theorem State.regAround_after {s t : State} {q : RegIdx} {p : Prop} [Decidable p] (h1 : t.reg vf = 1)
    (hreg : ∀ q, q ≠ vf → t.reg q = s.reg q) (hp : p) : s.regAround q p = t.reg q := by
  unfold State.regAround
  by_cases hq : q = vf
  · rw [if_pos hq, if_pos hp, hq, h1]
  · rw [if_neg hq, hreg q hq]

theorem State.regAround_congr {s t : State} (hreg : ∀ q, q ≠ vf → t.reg q = s.reg q) (q : RegIdx) (p : Prop)
    [Decidable p] : t.regAround q p = s.regAround q p := by
  unfold State.regAround
  by_cases hq : q = vf
  · rw [if_pos hq, if_pos hq]
  · rw [if_neg hq, if_neg hq, hreg q hq]

/-- Screen column `col` is met by a 1 bit among the columns `cs` of row `b`, the first hit being at column `c0`. -/
def RowHitsAround (s : State) (x : RegIdx) (b : Byte) (c0 : Nat) (cs : List Nat) (col : Nat) : Prop :=
  ∃ c ∈ cs, spriteBit b c = true ∧ col = spriteLeft (s.regAround x (c0 < c)) + c

/-- A row whose first hit is at column `c0` inverts the pixels under its 1 bits, those after `c0` at the moved left edge,
and leaves `VF = 1`. -/
theorem drawCols_firstHit (x : RegIdx) (row : Fin 32) (b : Byte) (c0 : Nat) (cs : List Nat) (s : State) (hit : Fin 64)
    (hcs : cs.Pairwise (· < ·)) (h0 : s.reg vf = 0) (hc0 : c0 ∈ cs) (hb0 : spriteBit b c0 = true)
    (hhit : hit.val = spriteLeft (s.reg x) + c0) (hlit : s.pixel row hit = true)
    (hfirst : ∀ c ∈ cs, c < c0 → spriteBit b c = true → ∀ col : Fin 64, col.val = spriteLeft (s.reg x) + c →
      s.pixel row col = false) :
    (drawCols x row b cs s).reg vf = 1 ∧
    (∀ r col, r ≠ row → (drawCols x row b cs s).pixel r col = s.pixel r col) ∧
    ∀ col, (RowHitsAround s x b c0 cs col.val → (drawCols x row b cs s).pixel row col = !s.pixel row col) ∧
      (¬ RowHitsAround s x b c0 cs col.val → (drawCols x row b cs s).pixel row col = s.pixel row col) := by
  induction cs generalizing s with
  | nil => simp at hc0
  | cons c cs ih =>
    obtain ⟨hc, hcs'⟩ := List.pairwise_cons.mp hcs
    have hhit64 := hit.isLt
    have hx0 : ∀ d, ¬ c0 < d → s.regAround x (c0 < d) = s.reg x := fun d hd => State.regAround_before h0 hd
    simp only [drawCols]
    by_cases he : c = c0
    · -- the hit itself: the rest of the row is drawn with `VF = 1`
      subst he
      rw [if_pos hb0, dif_pos (by omega)]
      have hh : (⟨spriteLeft (s.reg x) + c, by omega⟩ : Fin 64) = hit := Fin.ext hhit.symm
      rw [hh]
      generalize hs1 : s.flipPixel row hit = s1
      have h1 : s1.reg vf = 1 := by rw [← hs1, State.flipPixel_reg, if_pos ⟨rfl, hlit⟩]
      have hreg : ∀ q, q ≠ vf → s1.reg q = s.reg q := fun q hq => by
        rw [← hs1]; exact State.flipPixel_reg_fixed _ _ (.inl hq)
      obtain ⟨hp, hv⟩ := drawCols_spec x row b cs s1 hcs' (.inl (.inr h1))
      have hrest : ∀ col : Fin 64, rowHits b (spriteLeft (s1.reg x)) cs col.val = true ↔
          ∃ d ∈ cs, spriteBit b d = true ∧ col.val = spriteLeft (s.regAround x (c < d)) + d := by
        intro col
        simp only [rowHits, List.any_eq_true, Bool.and_eq_true, beq_iff_eq]
        refine ⟨fun ⟨d, hd, hbd, e⟩ => ⟨d, hd, hbd, ?_⟩, fun ⟨d, hd, hbd, e⟩ => ⟨d, hd, hbd, ?_⟩⟩
        · rw [State.regAround_after h1 hreg (hc d hd), e]
        · rw [State.regAround_after h1 hreg (hc d hd)] at e
          exact e.symm
      have hfresh : rowHits b (spriteLeft (s1.reg x)) cs hit.val = false := by
        refine rowHits_of_lt fun d hd => ?_
        have hd := hc d hd
        by_cases hx : x = vf
        · have e0 : spriteLeft (s.reg x) = 0 := by rw [hx, h0]; rfl
          have e1 : spriteLeft (s1.reg x) = 1 := by rw [hx, h1]; rfl
          omega
        · rw [hreg x hx]; omega
      refine ⟨by rw [hv, h1]; split <;> rfl, fun r col hr => ?_, fun col => ?_⟩
      · rw [hp, ← hs1, State.flipPixel_pixel, if_neg fun h => hr h.1]
        simp [hr]
      · have around : RowHitsAround s x b c (c :: cs) col.val ↔
            col = hit ∨ rowHits b (spriteLeft (s1.reg x)) cs col.val = true := by
          rw [hrest]
          simp only [RowHitsAround, List.mem_cons]
          constructor
          · rintro ⟨d, rfl | hd, hbd, e⟩
            · rw [hx0 d (by omega)] at e
              exact .inl (Fin.ext (e.trans hhit.symm))
            · exact .inr ⟨d, hd, hbd, e⟩
          · rintro (rfl | ⟨d, hd, hbd, e⟩)
            · exact ⟨c, .inl rfl, hb0, by rw [hx0 c (by omega)]; exact hhit⟩
            · exact ⟨d, .inr hd, hbd, e⟩
        rw [around, hp, ← hs1, State.flipPixel_pixel, hs1]
        by_cases hcol : col = hit
        · subst hcol
          simp [hfresh]
        · simp only [hcol, false_or, and_false, if_false]
          cases rowHits b (spriteLeft (s1.reg x)) cs col.val <;> simp
    · -- a column before the hit
      have hc0' : c0 ∈ cs := (List.mem_cons.mp hc0).resolve_left fun h => he h.symm
      have hlt : c < c0 := hc c0 hc0'
      by_cases hb : spriteBit b c = true
      · rw [if_pos hb, dif_pos (by omega)]
        generalize hcol0 : (⟨spriteLeft (s.reg x) + c, by omega⟩ : Fin 64) = col0
        have hcol0v : col0.val = spriteLeft (s.reg x) + c := by rw [← hcol0]
        have hdark : s.pixel row col0 = false := hfirst c List.mem_cons_self hlt hb col0 hcol0v
        generalize hs1 : s.flipPixel row col0 = s1
        have hreg : ∀ q, s1.reg q = s.reg q := fun q => by
          rw [← hs1, State.flipPixel_reg, if_neg fun h => by simp [hdark] at h]
        have hpix : ∀ r col, s1.pixel r col = if r = row ∧ col = col0 then !s.pixel row col0 else s.pixel r col :=
          fun r col => by rw [← hs1, State.flipPixel_pixel]
        have hsame : ∀ col : Fin 64, col ≠ col0 → s1.pixel row col = s.pixel row col := fun col h => by
          rw [hpix, if_neg fun g => h g.2]
        obtain ⟨i1, i2, i3⟩ := ih s1 hcs' (by rw [hreg, h0]) hc0' (by rw [hreg]; exact hhit)
          (by rw [hsame hit fun h => by rw [h] at hhit; omega]; exact hlit)
          (fun d hd hd0 hbd col e => by
            rw [hreg] at e
            have := hc d hd
            rw [hsame col fun h => by rw [h] at e; omega]
            exact hfirst d (List.mem_cons_of_mem _ hd) hd0 hbd col e)
        have hcong : ∀ col, RowHitsAround s1 x b c0 cs col ↔ RowHitsAround s x b c0 cs col := fun col => by
          simp only [RowHitsAround, State.regAround_congr fun q _ => hreg q]
        have hnot : ¬ RowHitsAround s x b c0 cs col0.val := by
          rintro ⟨d, hd, -, e⟩
          have hd := hc d hd
          by_cases hx : x = vf
          · have : spriteLeft (s.reg x) = 0 := by rw [hx, h0]; rfl
            omega
          · unfold State.regAround at e
            rw [if_neg hx] at e
            omega
        refine ⟨i1, fun r col hr => by rw [i2 r col hr, hpix, if_neg fun h => hr h.1], fun col => ?_⟩
        have around : RowHitsAround s x b c0 (c :: cs) col.val ↔ col = col0 ∨ RowHitsAround s x b c0 cs col.val := by
          simp only [RowHitsAround, List.mem_cons]
          constructor
          · rintro ⟨d, rfl | hd, hbd, e⟩
            · rw [hx0 d (by omega)] at e
              exact .inl (Fin.ext (e.trans hcol0v.symm))
            · exact .inr ⟨d, hd, hbd, e⟩
          · rintro (rfl | ⟨d, hd, hbd, e⟩)
            · exact ⟨c, .inl rfl, hb, by rw [hx0 c (by omega)]; exact hcol0v⟩
            · exact ⟨d, .inr hd, hbd, e⟩
        rw [around]
        by_cases hcol : col = col0
        · subst hcol
          refine ⟨fun _ => ?_, fun h => absurd (.inl rfl) h⟩
          rw [(i3 col).2 (by rw [hcong]; exact hnot), hpix, if_pos ⟨rfl, rfl⟩]
        · simp only [hcol, false_or]
          rw [← hcong, ← hsame col hcol]
          exact i3 col
      · rw [if_neg hb]
        have around : ∀ col, RowHitsAround s x b c0 (c :: cs) col ↔ RowHitsAround s x b c0 cs col := fun col => by
          simp only [RowHitsAround, List.mem_cons]
          constructor
          · rintro ⟨d, rfl | hd, hbd, e⟩
            · exact absurd hbd hb
            · exact ⟨d, hd, hbd, e⟩
          · rintro ⟨d, hd, hbd, e⟩
            exact ⟨d, .inr hd, hbd, e⟩
        simp only [around]
        exact ih s hcs' h0 hc0' hhit hlit fun d hd => hfirst d (List.mem_cons_of_mem _ hd)

theorem rowsHit_iff (s : State) (top left k r : Nat) (row : Fin 32) (col : Fin 64) :
    rowsHit s top left k r row col = true ↔
      ∃ q, r ≤ q ∧ q < r + k ∧ ∃ c ∈ spriteCols, spriteBit (s.mem.read (s.i.toNat + q)) c = true ∧
        row.val = top + q ∧ col.val = left + c := by
  simp only [rowsHit, rowHits, Bool.and_eq_true, decide_eq_true_eq, List.any_eq_true, beq_iff_eq]
  constructor
  · rintro ⟨h, c, hc, hb, e⟩
    exact ⟨row.val - top, by omega, by omega, c, hc, hb, by omega, e.symm⟩
  · rintro ⟨q, h1, h2, c, hc, hb, e1, e2⟩
    have hq : row.val - top = q := by omega
    rw [hq]
    exact ⟨by omega, c, hc, hb, e2.symm⟩

/-- Pixel `(row, col)` is under a 1 bit of one of the `k` sprite rows from row `r` on, the first hit being at column `c0`
of row `r0`: a later row is drawn from the moved top edge, and a later column from the moved left edge. -/
def DotsAround (s : State) (x y : RegIdx) (r0 c0 k r : Nat) (row : Fin 32) (col : Fin 64) : Prop :=
  ∃ q, r ≤ q ∧ q < r + k ∧ ∃ c ∈ spriteCols, spriteBit (s.mem.read (s.i.toNat + q)) c = true ∧
    row.val = spriteTop (s.regAround y (r0 < q)) + q ∧
    col.val = spriteLeft (s.regAround x (r0 < q ∨ q = r0 ∧ c0 < c)) + c

/-- The rows of a sprite whose first hit is at column `c0` of row `r0`: they invert exactly the pixels of `DotsAround`
and leave `VF = 1`. -/
theorem drawRows_firstHit (x y : RegIdx) (r0 c0 k r : Nat) (s : State) (hitRow : Fin 32) (hitCol : Fin 64)
    (h0 : s.reg vf = 0) (hr : r ≤ r0) (hk : r0 < r + k) (h15 : r + k ≤ 15)
    (hread : ∀ j, r ≤ j → j < r + k → spriteTop (s.reg y) + j < 32 → s.i.toNat + j ≤ 0xFFF)
    (hc0 : c0 ∈ spriteCols) (hb0 : spriteBit (s.mem.read (s.i.toNat + r0)) c0 = true)
    (hrow : hitRow.val = spriteTop (s.reg y) + r0) (hcol : hitCol.val = spriteLeft (s.reg x) + c0)
    (hlit : s.pixel hitRow hitCol = true)
    (hfirst : ∀ q, r ≤ q → ∀ c ∈ spriteCols, q < r0 ∨ q = r0 ∧ c < c0 →
      spriteBit (s.mem.read (s.i.toNat + q)) c = true → ∀ (row : Fin 32) (col : Fin 64),
      row.val = spriteTop (s.reg y) + q → col.val = spriteLeft (s.reg x) + c → s.pixel row col = false) :
    ∃ t, drawRows x y k r s = .ok t ∧ t.reg vf = 1 ∧ ∀ row col,
      (DotsAround s x y r0 c0 k r row col → t.pixel row col = !s.pixel row col) ∧
      (¬ DotsAround s x y r0 c0 k r row col → t.pixel row col = s.pixel row col) := by
  induction k generalizing r s with
  | zero => omega
  | succ k ih =>
    have hitRow32 := hitRow.isLt
    have h32 : spriteTop (s.reg y) + r < 32 := by omega
    simp only [drawRows]
    rw [dif_pos h32, State.memRead_eq, if_pos (hread r (by omega) (by omega) h32)]
    simp only
    generalize hrow0 : (⟨spriteTop (s.reg y) + r, h32⟩ : Fin 32) = row0
    have hrow0v : row0.val = spriteTop (s.reg y) + r := by rw [← hrow0]
    generalize hs' : drawCols x row0 (s.mem.read (s.i.toNat + r)) spriteCols s = s'
    have hmem : s'.mem = s.mem := by rw [← hs', drawCols_frame]
    have hi : s'.i = s.i := by rw [← hs', drawCols_frame]
    have hregs : ∀ q, q ≠ vf → s'.reg q = s.reg q := fun q hq => by rw [← hs', drawCols_reg _ _ _ _ _ _ hq]
    -- the top edge never moves up
    have htop : ∀ (p : Prop) [Decidable p], spriteTop (s.reg y) ≤ spriteTop (s.regAround y p) := by
      intro p _
      unfold State.regAround
      by_cases hy : y = vf
      · have : spriteTop (s.reg y) = 0 := by rw [hy, h0]; rfl
        omega
      · exact Nat.le_of_eq (by rw [if_neg hy])
    -- the dots of row `r` and those of the rows after it
    have split : ∀ row col, DotsAround s x y r0 c0 (k + 1) r row col ↔
        (row = row0 ∧ ∃ c ∈ spriteCols, spriteBit (s.mem.read (s.i.toNat + r)) c = true ∧
          col.val = spriteLeft (s.regAround x (r0 < r ∨ r = r0 ∧ c0 < c)) + c) ∨
        DotsAround s x y r0 c0 k (r + 1) row col := by
      intro row col
      constructor
      · rintro ⟨q, h1, h2, c, hc, hb, e1, e2⟩
        by_cases hq : q = r
        · subst hq
          rw [State.regAround_before h0 (by omega)] at e1
          exact .inl ⟨Fin.ext (e1.trans hrow0v.symm), c, hc, hb, e2⟩
        · exact .inr ⟨q, by omega, by omega, c, hc, hb, e1, e2⟩
      · rintro (⟨rfl, c, hc, hb, e⟩ | ⟨q, h1, h2, c, hc, hb, e1, e2⟩)
        · refine ⟨r, by omega, by omega, c, hc, hb, ?_, e⟩
          rw [State.regAround_before h0 (by omega)]
          exact hrow0v
        · exact ⟨q, by omega, by omega, c, hc, hb, e1, e2⟩
    have below : ∀ row col, DotsAround s x y r0 c0 k (r + 1) row col → row ≠ row0 := by
      rintro row col ⟨q, h1, h2, c, hc, hb, e1, e2⟩ rfl
      have := htop (r0 < q)
      omega
    by_cases hr0 : r = r0
    · -- the row of the hit: the rows after it are drawn with `VF = 1`
      subst hr0
      have hhr : row0 = hitRow := Fin.ext (hrow0v.trans hrow.symm)
      obtain ⟨hv, hother, hthis⟩ := drawCols_firstHit x row0 (s.mem.read (s.i.toNat + r)) c0 spriteCols s hitCol
        spriteCols_pairwise h0 hc0 hb0 hcol (by rw [hhr]; exact hlit)
        (fun c hc hlt hb col e => hfirst r (by omega) c hc (.inr ⟨rfl, hlt⟩) hb row0 col hrow0v e)
      rw [hs'] at hv hother hthis
      obtain ⟨t, ht, htp, htv⟩ := drawRows_spec x y k (r + 1) s' (by
        intro j h1 h2 h3
        rw [hi]
        refine hread j (by omega) (by omega) ?_
        by_cases hy : y = vf
        · have : spriteTop (s.reg y) = 0 := by rw [hy, h0]; rfl
          omega
        · rw [← hregs y hy]; exact h3) (.inl (.inr hv))
      have after : ∀ row col, rowsHit s' (spriteTop (s'.reg y)) (spriteLeft (s'.reg x)) k (r + 1) row col = true ↔
          DotsAround s x y r c0 k (r + 1) row col := by
        intro row col
        rw [rowsHit_iff, hmem, hi]
        constructor
        · rintro ⟨q, h1, h2, c, hc, hb, e1, e2⟩
          refine ⟨q, h1, h2, c, hc, hb, ?_, ?_⟩
          · rw [State.regAround_after hv hregs (by omega)]; exact e1
          · rw [State.regAround_after hv hregs (.inl (by omega))]; exact e2
        · rintro ⟨q, h1, h2, c, hc, hb, e1, e2⟩
          rw [State.regAround_after hv hregs (by omega)] at e1
          rw [State.regAround_after hv hregs (.inl (by omega))] at e2
          exact ⟨q, h1, h2, c, hc, hb, e1, e2⟩
      have this_row : ∀ col : Fin 64, (∃ c ∈ spriteCols, spriteBit (s.mem.read (s.i.toNat + r)) c = true ∧
          col.val = spriteLeft (s.regAround x (r < r ∨ r = r ∧ c0 < c)) + c) ↔
          RowHitsAround s x (s.mem.read (s.i.toNat + r)) c0 spriteCols col.val := by
        intro col
        simp only [RowHitsAround, Nat.lt_irrefl, true_and, false_or]
      refine ⟨t, ht, by rw [htv, hv]; split <;> rfl, fun row col => ?_⟩
      rw [split, this_row, htp]
      by_cases hrow : row = row0
      · subst hrow
        have hnot : rowsHit s' (spriteTop (s'.reg y)) (spriteLeft (s'.reg x)) k (r + 1) row col = false := by
          rw [Bool.eq_false_iff, ne_eq, after]
          exact fun h => below row col h rfl
        have hnot' : ¬ DotsAround s x y r c0 k (r + 1) row col := fun h => below row col h rfl
        rw [hnot, Bool.bne_false]
        simpa [hnot'] using hthis col
      · rw [hother row col hrow, ← after]
        simp only [hrow, false_and, false_or]
        cases rowsHit s' (spriteTop (s'.reg y)) (spriteLeft (s'.reg x)) k (r + 1) row col <;> simp
    · -- a row before the hit
      have hlt : r < r0 := by omega
      have dark : ∀ c : Fin 64, rowHits (s.mem.read (s.i.toNat + r)) (spriteLeft (s.reg x)) spriteCols c.val = true →
          s.pixel row0 c = false := by
        intro c hc
        simp only [rowHits, List.any_eq_true, Bool.and_eq_true, beq_iff_eq] at hc
        obtain ⟨d, hd, hb, e⟩ := hc
        exact hfirst r (by omega) d hd (.inl hlt) hb row0 c hrow0v e.symm
      obtain ⟨hp, hv⟩ := drawCols_spec x row0 (s.mem.read (s.i.toNat + r)) spriteCols s spriteCols_pairwise
        (.inr ⟨h0, dark⟩)
      rw [hs'] at hp hv
      rw [if_neg fun ⟨c, hc, hpix⟩ => by simp [dark c hc] at hpix] at hv
      have hall : ∀ q, s'.reg q = s.reg q := fun q => by
        by_cases hq : q = vf
        · rw [hq, hv]
        · exact hregs q hq
      have hkeep : ∀ row col, row ≠ row0 → s'.pixel row col = s.pixel row col := fun row col h => by
        rw [hp]; simp [h]
      obtain ⟨t, ht, htv, htp⟩ := ih (r + 1) s' (by rw [hv, h0]) (by omega) (by omega) (by omega)
        (fun j h1 h2 h3 => by
          rw [hall] at h3
          rw [hi]
          exact hread j (by omega) (by omega) h3)
        (by rw [hmem, hi]; exact hb0) (by rw [hall]; exact hrow) (by rw [hall]; exact hcol)
        (by rw [hkeep _ _ fun h => by rw [h] at hrow; omega]; exact hlit)
        (fun q hq c hc hbefore hb row col e1 e2 => by
          rw [hmem, hi] at hb
          rw [hall] at e1 e2
          rw [hkeep row col fun h => by rw [h] at e1; omega]
          exact hfirst q (by omega) c hc hbefore hb row col e1 e2)
      refine ⟨t, ht, htv, fun row col => ?_⟩
      have hcong : DotsAround s' x y r0 c0 k (r + 1) row col ↔ DotsAround s x y r0 c0 k (r + 1) row col := by
        simp only [DotsAround, hmem, hi, State.regAround_congr fun q _ => hall q]
      have htp := htp row col
      rw [hcong] at htp
      rw [split]
      by_cases hrow : row = row0
      · subst hrow
        have hnot : ¬ DotsAround s x y r0 c0 k (r + 1) row col := fun h => below row col h rfl
        have this_row : (∃ c ∈ spriteCols, spriteBit (s.mem.read (s.i.toNat + r)) c = true ∧
            col.val = spriteLeft (s.regAround x (r0 < r ∨ r = r0 ∧ c0 < c)) + c) ↔
            rowHits (s.mem.read (s.i.toNat + r)) (spriteLeft (s.reg x)) spriteCols col.val = true := by
          simp only [rowHits, List.any_eq_true, Bool.and_eq_true, beq_iff_eq]
          refine exists_congr fun c => and_congr_right fun _ => and_congr_right fun _ => ?_
          rw [State.regAround_before h0 (by omega), eq_comm]
        rw [htp.2 hnot, hp, this_row]
        simp only [hnot, or_false, true_and, decide_true, Bool.true_and]
        cases rowHits (s.mem.read (s.i.toNat + r)) (spriteLeft (s.reg x)) spriteCols col.val <;> simp
      · rw [← hkeep row col hrow]
        simpa [hrow] using htp

end Sys2Proof.Machine
end

