-- ==== Sys2Proof/Laws/Exec.lean ====
section
/-! SUPPORT. What performing an instruction can do, said once: it completes, or it raises a fault and nothing else. -/

namespace Sys2Proof.Machine

/-- What every instruction that completes leaves alone: the run state, the fault record, the keypad latch, the outputs
and the carrier of the inputs. -/
structure SameControl (s t : State) : Prop where
  run      : t.run = s.run
  fault    : t.fault = s.fault
  k        : t.k = s.k
  presentO : t.presentO = s.presentO
  toneO    : t.toneO = s.toneO
  feed     : t.feed = s.feed
  cycle    : t.cycle = s.cycle

theorem SameControl.refl (s : State) : SameControl s s := ⟨rfl, rfl, rfl, rfl, rfl, rfl, rfl⟩

theorem SameControl.trans {s t u : State} (h : SameControl s t) (g : SameControl t u) : SameControl s u :=
  ⟨g.run.trans h.run, g.fault.trans h.fault, g.k.trans h.k, g.presentO.trans h.presentO, g.toneO.trans h.toneO,
    g.feed.trans h.feed, g.cycle.trans h.cycle⟩

/-- An instruction in `s` completes in a state with the same control state, or raises a fault in `s`. -/
def CompletesOrRaises (i : Instr) (s : State) (r : Result) : Prop :=
  (∃ t, r = .next t ∧ SameControl s t) ∨
    ∃ kind addr, r = .next (s.raise kind (some (encode i)) addr)

theorem completes_of_sameControl {i : Instr} {s t : State} (h : SameControl s t) :
    CompletesOrRaises i s (.next t) := .inl ⟨t, rfl, h⟩

theorem raiseIn_raises (i : Instr) (s : State) (kind : FaultKind) (addr : Option Nat) :
    CompletesOrRaises i s (s.raiseIn i kind addr) := .inr ⟨kind, addr, rfl⟩

theorem finishAccess_completesOrRaises {i : Instr} {s : State} {e : Except Nat State}
    (h : ∀ t, e = .ok t → SameControl s t) : CompletesOrRaises i s (s.finishAccess i e) := by
  cases e with
  | ok t => exact completes_of_sameControl ((h t rfl).trans ⟨rfl, rfl, rfl, rfl, rfl, rfl, rfl⟩)
  | error a => exact raiseIn_raises i s _ _

theorem skipIf_sameControl (s : State) (c : Bool) : SameControl s (s.skipIf c) := by
  cases c <;> exact ⟨rfl, rfl, rfl, rfl, rfl, rfl, rfl⟩

/-- Performing an instruction completes or raises a fault; it never stops the model (60_exceptions.md R225, R232). -/
theorem exec_completesOrRaises (i : Instr) (s : State) : CompletesOrRaises i s (exec i s) := by
  have plain : ∀ {t : State}, 
      t = { s with v := t.v, pc := t.pc, i := t.i, sp := t.sp, stack := t.stack, dt := t.dt, st := t.st,
                   fb := t.fb, dirty := t.dirty, mem := t.mem } → SameControl s t := by
    intro t h
    rw [h]
    exact ⟨rfl, rfl, rfl, rfl, rfl, rfl, rfl⟩
  cases i with
  | cls => exact completes_of_sameControl (plain rfl)
  | ret =>
    show CompletesOrRaises .ret s (execRet s)
    unfold execRet
    by_cases h : 0 < s.sp.val
    · rw [s.pop_of_pos h]
      exact completes_of_sameControl (plain rfl)
    · rw [s.pop_empty (by omega)]
      exact raiseIn_raises _ s _ _
  | jp nnn => exact completes_of_sameControl (plain rfl)
  | call nnn =>
    show CompletesOrRaises (.call nnn) s (execCall nnn s)
    unfold execCall
    by_cases h : s.sp.val < 16
    · rw [s.push_of_lt h]
      exact completes_of_sameControl (plain rfl)
    · rw [s.push_full (by omega)]
      exact raiseIn_raises _ s _ _
  | seImm x nn => exact completes_of_sameControl (skipIf_sameControl s _)
  | sneImm x nn => exact completes_of_sameControl (skipIf_sameControl s _)
  | seReg x y => exact completes_of_sameControl (skipIf_sameControl s _)
  | ldImm x nn => exact completes_of_sameControl (plain rfl)
  | addImm x nn => exact completes_of_sameControl (plain rfl)
  | ldReg x y => exact completes_of_sameControl (plain rfl)
  | orReg x y => exact completes_of_sameControl (plain rfl)
  | andReg x y => exact completes_of_sameControl (plain rfl)
  | xorReg x y => exact completes_of_sameControl (plain rfl)
  | addReg x y => exact completes_of_sameControl (plain rfl)
  | subReg x y => exact completes_of_sameControl (plain rfl)
  | shr x y => exact completes_of_sameControl (plain rfl)
  | subnReg x y => exact completes_of_sameControl (plain rfl)
  | shl x y => exact completes_of_sameControl (plain rfl)
  | sneReg x y => exact completes_of_sameControl (skipIf_sameControl s _)
  | ldI nnn => exact completes_of_sameControl (plain rfl)
  | jpV0 nnn => exact completes_of_sameControl (plain rfl)
  | rnd x nn => exact completes_of_sameControl (plain rfl)
  | drw x y n =>
    refine finishAccess_completesOrRaises fun t ht => ?_
    cases hr : drawRows x y n 0 (s.setReg vf 0) with
    | error a =>
      rw [hr] at ht
      simp [Except.map] at ht
    | ok u =>
      rw [hr] at ht
      obtain rfl := Except.ok.inj ht
      have := (drawRows_ok _ _ _ _ _ _ hr).1
      exact plain (by rw [this]; rfl)
  | skp x =>
    show CompletesOrRaises (.skp x) s (execSkp x s)
    unfold execSkp
    split
    · exact raiseIn_raises _ s _ _
    · exact completes_of_sameControl (skipIf_sameControl s _)
  | sknp x =>
    show CompletesOrRaises (.sknp x) s (execSknp x s)
    unfold execSknp
    split
    · exact raiseIn_raises _ s _ _
    · exact completes_of_sameControl (skipIf_sameControl s _)
  | ldVxDT x => exact completes_of_sameControl (plain rfl)
  | ldVxK x =>
    show CompletesOrRaises (.ldVxK x) s (execLdVxK x s)
    unfold execLdVxK
    split
    · exact completes_of_sameControl (plain rfl)
    · exact completes_of_sameControl (SameControl.refl s)
  | ldDTVx x => exact completes_of_sameControl (plain rfl)
  | ldSTVx x => exact completes_of_sameControl (plain rfl)
  | addI x => exact completes_of_sameControl (plain rfl)
  | ldF x => exact completes_of_sameControl (plain rfl)
  | ldB x =>
    refine finishAccess_completesOrRaises fun t ht => ?_
    rw [State.memWriteBytes_eq] at ht
    split at ht
    · obtain rfl := Except.ok.inj ht
      exact plain rfl
    · simp at ht
  | dump x =>
    refine finishAccess_completesOrRaises fun t ht => ?_
    rw [dumpRegs_eq] at ht
    split at ht
    · obtain rfl := Except.ok.inj ht
      exact plain rfl
    · simp at ht
  | load x =>
    refine finishAccess_completesOrRaises fun t ht => ?_
    have := loadRegs_cases (regsUpTo x) s
    split at this
    · obtain ⟨u, hu, hs⟩ := this
      obtain rfl := Except.ok.inj (hu.symm.trans ht)
      exact plain (by rw [hs])
    · simp [this] at ht

/-! ### The instructions that access memory, and `CALL` and `RET`, by what decides their outcome -/

/-- `LD B, Vx` completes exactly when its three addresses lie in memory (44_index_memory.md R176). -/
theorem execLdB_eq (x : RegIdx) (s : State) :
    execLdB x s =
      if s.i.toNat ≤ 0xFFD then
        .next { s with mem := s.mem.writeBytes s.i.toNat (bcdDigits (s.reg x)), pc := s.pc + 2 }
      else s.raiseIn (.ldB x) .addressOutOfRange (some (max s.i.toNat 0x1000)) := by
  unfold execLdB
  rw [State.memWriteBytes_eq]
  have hne : bcdDigits (s.reg x) ≠ [] := by simp [bcdDigits]
  have hlen : (bcdDigits (s.reg x)).length = 3 := rfl
  by_cases h : s.i.toNat ≤ 0xFFD
  · rw [if_pos h, if_pos (.inr (by omega))]
    rfl
  · rw [if_neg h, if_neg (by rintro (h' | h'); · exact hne h'
                             · omega)]
    rfl

/-- `LD [I], Vx` completes exactly when its last address lies in memory (R178). -/
theorem execDump_eq (x : RegIdx) (s : State) :
    execDump x s =
      if s.i.toNat + x.val ≤ 0xFFF then
        .next { s with mem := s.mem.writeBytes s.i.toNat ((regsUpTo x).map s.reg)
                       i := s.i + BitVec.ofNat 16 (x.val + 1), pc := s.pc + 2 }
      else s.raiseIn (.dump x) .addressOutOfRange (some (max s.i.toNat 0x1000)) := by
  unfold execDump
  rw [dumpRegs_eq, regsUpTo_length]
  have hne := regsUpTo_ne_nil x
  by_cases h : s.i.toNat + x.val ≤ 0xFFF
  · rw [if_pos h, if_pos (.inr (by omega))]
    rfl
  · rw [if_neg h, if_neg (by rintro (h' | h'); · exact hne h'
                             · omega)]
    rfl

/-- `LD Vx, [I]` completes exactly when its last address lies in memory, and writes `V`, `I` and `PC` only (R180). -/
theorem execLoad_cases (x : RegIdx) (s : State) :
    if s.i.toNat + x.val ≤ 0xFFF then
      ∃ t, execLoad x s = .next t ∧
        t = { s with v := t.v, i := s.i + BitVec.ofNat 16 (x.val + 1), pc := s.pc + 2 } ∧
        ∀ q : RegIdx, t.reg q = if q.val ≤ x.val then s.mem.read (s.i.toNat + q.val) else s.reg q
    else execLoad x s = s.raiseIn (.load x) .addressOutOfRange (some (max s.i.toNat 0x1000)) := by
  unfold execLoad
  have h := loadRegs_cases (regsUpTo x) s
  have hne := regsUpTo_ne_nil x
  rw [regsUpTo_length] at h
  by_cases hx : s.i.toNat + x.val ≤ 0xFFF
  · rw [if_pos (.inr (by omega))] at h
    rw [if_pos hx]
    obtain ⟨t, ht, hs⟩ := h
    have hreg := loadRegs_reg (regsUpTo x) 0 s t (regsUpTo_val x) ht
    refine ⟨t.advance, by rw [ht]; rfl, by rw [hs]; rfl, fun q => ?_⟩
    rw [State.reg_advance, hreg q, regsUpTo_length]
    by_cases hq : q.val ≤ x.val
    · rw [if_pos (by omega), if_pos hq, Nat.sub_zero]
    · rw [if_neg (by omega), if_neg hq]
  · rw [if_neg (by rintro (h' | h'); · exact hne h'
                   · omega)] at h
    rw [if_neg hx, h]
    rfl

/-- `DRW` completes, writing `VF`, the framebuffer, `dirty` and `PC` only, and leaving `VF` at 0 or 1; or it raises
`AddressOutOfRange` at an address it reads (45_display.md R192). -/
theorem execDrw_cases (x y : RegIdx) (n : Nat) (s : State) :
    (∃ t, execDrw x y n s = .next t ∧ t = { s with v := t.v, fb := t.fb, dirty := true, pc := s.pc + 2 } ∧
      (∀ q, q ≠ vf → t.reg q = s.reg q) ∧ (t.reg vf = 0 ∨ t.reg vf = 1)) ∨
    (∃ a, execDrw x y n s = s.raiseIn (.drw x y n) .addressOutOfRange (some a) ∧
      0xFFF < a ∧ s.i.toNat ≤ a ∧ a < s.i.toNat + n) := by
  unfold execDrw
  cases h : drawRows x y n 0 (s.setReg vf 0) with
  | ok u =>
    obtain ⟨hs, hreg, hvf⟩ := drawRows_ok _ _ _ _ _ _ h
    refine .inl ⟨u.markDirty.advance, rfl, by rw [hs]; rfl, fun q hq => ?_, ?_⟩
    · rw [State.reg_advance, State.reg_markDirty, hreg q hq, State.reg_setReg, if_neg hq]
    · rw [State.reg_advance, State.reg_markDirty]
      exact hvf (.inl (by rw [State.reg_setReg, if_pos rfl]))
  | error a =>
    have := drawRows_error _ _ _ _ _ _ h
    simp only [State.setReg_i] at this
    exact .inr ⟨a, rfl, by omega, by omega, by omega⟩

theorem execRet_of_pos {s : State} (h : 0 < s.sp.val) :
    execRet s = .next { s with sp := ⟨s.sp.val - 1, by have := s.sp.isLt; omega⟩
                               pc := s.stack[s.sp.val - 1]'(by have := s.sp.isLt; omega) + 2 } := by
  unfold execRet
  rw [s.pop_of_pos h]
  rfl

theorem execRet_empty {s : State} (h : s.sp.val = 0) : execRet s = s.raiseIn .ret .stackUnderflow none := by
  unfold execRet
  rw [s.pop_empty h]

theorem execCall_of_lt {s : State} (nnn : Addr12) (h : s.sp.val < 16) :
    execCall nnn s = .next { s with stack := s.stack.set s.sp.val s.pc, sp := ⟨s.sp.val + 1, Nat.succ_lt_succ h⟩
                                    pc := absAddr nnn } := by
  unfold execCall
  rw [s.push_of_lt h]
  rfl

theorem execCall_full {s : State} (nnn : Addr12) (h : s.sp.val = 16) :
    execCall nnn s = s.raiseIn (.call nnn) .stackOverflow none := by
  unfold execCall
  rw [s.push_full h]

/-! ### The rest of a cycle -/

/-- A timer after a tick: one less, and 0 stays 0 (60_exceptions.md R241). -/
theorem tickByte_toNat (b : Byte) : (tickByte b).toNat = b.toNat - 1 := by
  unfold tickByte
  split
  · subst b; rfl
  · rename_i h
    have : b.toNat ≠ 0 := fun e => h (BitVec.eq_of_toNat_eq e)
    have := b.isLt
    have one : (1 : Byte).toNat = 1 := rfl
    rw [BitVec.toNat_sub, one]
    omega

theorem State.endCycle_halted {s : State} (h : s.run = .halted) : s.endCycle = s.consumeInput := by
  simp only [State.endCycle, h]

theorem State.endCycle_running {s : State} (h : s.run = .running) :
    s.endCycle = s.tickTimers.present.tone.consumeInput := by
  simp only [State.endCycle, h]

/-- Phases 3 to 5 as one update (60_exceptions.md R221, R241, R244, R245). -/
theorem State.endCycle_eq {s : State} (h : s.run = .running) :
    s.endCycle = { s with
      dt := if s.portsIn.tick then tickByte s.dt else s.dt
      st := if s.portsIn.tick then tickByte s.st else s.st
      presentO := s.dirty
      dirty := false
      toneO := (if s.portsIn.tick then tickByte s.st else s.st) != 0
      feed := s.feed.tail
      cycle := s.cycle + 1 } := by
  rw [State.endCycle_running h]
  unfold State.tickTimers
  cases s.portsIn.tick <;> rfl

theorem step_halted {s : State} (h : s.run = .halted) : step s = .next s.haltedCycle := by
  simp only [step, State.runCycle, h]

theorem step_quit {s : State} (h : s.run = .running) (hq : s.portsIn.quit = true) :
    step s = .next s.sampleKeys.quitCycle := by
  simp only [step, State.runCycle, h, hq, if_true]

theorem step_running {s : State} (h : s.run = .running) (hq : s.portsIn.quit = false) :
    step s = s.sampleKeys.execCycle := by
  simp only [step, State.runCycle, h, hq]
  rfl

/-- The fetch, by where `PC` points (20_memory.md R66). -/
theorem State.fetch_eq (s : State) :
    s.fetch =
      if s.pc.toNat ≤ 0xFFE then .ok (wordOfBytes (s.mem.read s.pc.toNat) (s.mem.read (s.pc.toNat + 1)))
      else if s.pc.toNat = 0xFFF then .error 0x1000 else .error s.pc.toNat := by
  unfold State.fetch
  simp only [State.memRead_eq]
  by_cases h : s.pc.toNat ≤ 0xFFE
  · rw [if_pos h, if_pos (by omega)]
    simp only
    rw [if_pos (by omega)]
  · rw [if_neg h]
    by_cases h' : s.pc.toNat = 0xFFF
    · rw [if_pos (by omega), if_pos h']
      simp only
      rw [if_neg (by omega), h']
    · rw [if_neg (by omega), if_neg h']

/-- What a running cycle without a quit request does, said once: the fetch fails, or the word is illegal, or the
decoded instruction is performed; then the rest of the cycle. -/
theorem step_cases {s : State} (h : s.run = .running) (hq : s.portsIn.quit = false) :
    (∃ a, s.fetch = .error a ∧ step s = .next (s.sampleKeys.raise .addressOutOfRange none (some a)).endCycle) ∨
    (∃ w why, s.fetch = .ok w ∧ decodeWord w = .error why ∧
      step s = .next (s.sampleKeys.raise .decodeFault (some w) none).endCycle) ∨
    (∃ w i t, s.fetch = .ok w ∧ decodeWord w = .ok i ∧ exec i s.sampleKeys = .next t ∧ step s = .next t.endCycle) := by
  rw [step_running h hq]
  have hf : s.sampleKeys.fetch = s.fetch := rfl
  unfold State.execCycle
  rw [hf]
  cases hw : s.fetch with
  | error a => exact .inl ⟨a, rfl, rfl⟩
  | ok w =>
    cases hd : decodeWord w with
    | error why => exact .inr (.inl ⟨w, why, rfl, hd, by simp only [hd]⟩)
    | ok i =>
      refine .inr (.inr ?_)
      rcases exec_completesOrRaises i s.sampleKeys with ⟨t, ht, -⟩ | ⟨kind, addr, ht⟩
      · exact ⟨w, i, t, rfl, hd, ht, by simp only [hd, ht]⟩
      · exact ⟨w, i, _, rfl, hd, ht, by simp only [hd, ht]⟩

end Sys2Proof.Machine
end

