-- ==== Sys2Proof/Laws/PerInstr.lean ====
section
/-! SUPPORT. One statement for every instruction, as syntax: its word stands in its own row of the opcode table
(spec/30_encoding.md R94, R100). -/

namespace Sys2Proof.Laws.InRow

/-- The word of a well-formed instruction selects the instruction's row of the opcode table. -/
def Statement (i : Instr) : Prop := i.wellFormed = true → i.row.selects (encode i) = true

/-! ### What the three masks of the table keep of a word -/

/-- Mask 0xF000 keeps the family. -/
theorem mask_family (w : Word) : w &&& 0xF000 = w.extractLsb' 12 4 ++ (0 : BitVec 12) := by
  have m : ∀ j : Fin 16, (0xF000 : Word).getLsbD j.val = decide (12 ≤ j.val) := by decide
  apply BitVec.eq_of_getLsbD_eq
  intro j hj
  rw [BitVec.getLsbD_and, m ⟨j, hj⟩, BitVec.getLsbD_append]
  by_cases h : j < 12
  · simp [h, show ¬ 12 ≤ j by omega]
  · simp [h, show 12 ≤ j by omega, show 12 + (j - 12) = j by omega, show j - 12 < 4 by omega]

/-- Mask 0xF0FF keeps the family and the low byte. -/
theorem mask_lowByte (w : Word) :
    w &&& 0xF0FF = w.extractLsb' 12 4 ++ ((0 : BitVec 4) ++ w.extractLsb' 0 8) := by
  have m : ∀ j : Fin 16, (0xF0FF : Word).getLsbD j.val = (decide (12 ≤ j.val) || decide (j.val < 8)) := by decide
  apply BitVec.eq_of_getLsbD_eq
  intro j hj
  rw [BitVec.getLsbD_and, m ⟨j, hj⟩, BitVec.getLsbD_append, BitVec.getLsbD_append]
  by_cases h : j < 12
  · by_cases h8 : j < 8
    · simp [h, h8]
    · simp [h, h8, show ¬ 12 ≤ j by omega]
  · simp [h, show 12 ≤ j by omega, show 12 + (j - 12) = j by omega, show j - 12 < 4 by omega]

/-- Mask 0xF00F keeps the family and the low nibble. -/
theorem mask_lowNibble (w : Word) :
    w &&& 0xF00F = w.extractLsb' 12 4 ++ ((0 : BitVec 8) ++ w.extractLsb' 0 4) := by
  have m : ∀ j : Fin 16, (0xF00F : Word).getLsbD j.val = (decide (12 ≤ j.val) || decide (j.val < 4)) := by decide
  apply BitVec.eq_of_getLsbD_eq
  intro j hj
  rw [BitVec.getLsbD_and, m ⟨j, hj⟩, BitVec.getLsbD_append, BitVec.getLsbD_append]
  by_cases h : j < 12
  · by_cases h4 : j < 4
    · simp [h, h4]
    · simp [h, h4, show ¬ 12 ≤ j by omega]
  · simp [h, show 12 ≤ j by omega, show 12 + (j - 12) = j by omega, show j - 12 < 4 by omega]

/-! ### The words of each format select rows by their fixed fields -/

theorem selects_family {w bits : Word} {op : BitVec 4} (h : fieldOp w = op.toNat)
    (hb : op ++ (0 : BitVec 12) = bits) : OpcodeRow.selects ⟨bits, 0xF000⟩ w = true := by
  rw [OpcodeRow.selects, beq_iff_eq, mask_family, BitVec.eq_of_toNat_eq (x := w.extractLsb' 12 4) h, hb]

theorem selects_lowByte {w bits : Word} {op : BitVec 4} {code : Byte} (h : fieldOp w = op.toNat)
    (hc : fieldNN w = code) (hb : op ++ ((0 : BitVec 4) ++ code) = bits) :
    OpcodeRow.selects ⟨bits, 0xF0FF⟩ w = true := by
  rw [OpcodeRow.selects, beq_iff_eq, mask_lowByte, BitVec.eq_of_toNat_eq (x := w.extractLsb' 12 4) h,
    show w.extractLsb' 0 8 = code from hc, hb]

theorem selects_lowNibble {w bits : Word} {op code : BitVec 4} (h : fieldOp w = op.toNat)
    (hc : fieldN w = code.toNat) (hb : op ++ ((0 : BitVec 8) ++ code) = bits) :
    OpcodeRow.selects ⟨bits, 0xF00F⟩ w = true := by
  rw [OpcodeRow.selects, beq_iff_eq, mask_lowNibble, BitVec.eq_of_toNat_eq (x := w.extractLsb' 12 4) h,
    BitVec.eq_of_toNat_eq (x := w.extractLsb' 0 4) hc, hb]

theorem wordNNN_selects (op : BitVec 4) (nnn : Addr12) :
    OpcodeRow.selects ⟨op ++ (0 : BitVec 12), 0xF000⟩ (wordNNN op.toNat nnn) = true :=
  selects_family (by rw [fieldOp_eq, wordNNN_toNat op.isLt]; omega) rfl

theorem wordXNN_selects (op : BitVec 4) (x : RegIdx) (nn : Byte) :
    OpcodeRow.selects ⟨op ++ (0 : BitVec 12), 0xF000⟩ (wordXNN op.toNat x nn) = true :=
  selects_family (by rw [fieldOp_eq, wordXNN_toNat op.isLt]; omega) rfl

theorem wordXYN_selects_family (op : BitVec 4) (x y : RegIdx) {n : Nat} (hn : n < 16) :
    OpcodeRow.selects ⟨op ++ (0 : BitVec 12), 0xF000⟩ (wordXYN op.toNat x y n) = true :=
  selects_family (by rw [fieldOp_eq, wordXYN_toNat op.isLt x y hn]; omega) rfl

theorem wordXYN_selects (op code : BitVec 4) (x y : RegIdx) :
    OpcodeRow.selects ⟨op ++ ((0 : BitVec 8) ++ code), 0xF00F⟩ (wordXYN op.toNat x y code.toNat) = true :=
  selects_lowNibble (by rw [fieldOp_eq, wordXYN_toNat op.isLt x y code.isLt]; omega)
    (by rw [fieldN_eq, wordXYN_toNat op.isLt x y code.isLt]; omega) rfl

theorem wordX_selects (op : BitVec 4) (x : RegIdx) (code : Byte) :
    OpcodeRow.selects ⟨op ++ ((0 : BitVec 4) ++ code), 0xF0FF⟩ (wordX op.toNat x code.toNat) = true :=
  selects_lowByte (by rw [fieldOp_eq, wordX_toNat op.isLt x code.isLt]; omega)
    (BitVec.eq_of_toNat_eq (by rw [fieldNN_toNat, wordX_toNat op.isLt x code.isLt]; omega)) rfl

/-! ### One lemma per instruction -/

theorem cls : Statement .cls := fun _ => by decide
theorem ret : Statement .ret := fun _ => by decide
theorem jp (nnn : Addr12) : Statement (.jp nnn) := fun _ => wordNNN_selects 0x1 nnn
theorem call (nnn : Addr12) : Statement (.call nnn) := fun _ => wordNNN_selects 0x2 nnn
theorem seImm (x : RegIdx) (nn : Byte) : Statement (.seImm x nn) := fun _ => wordXNN_selects 0x3 x nn
theorem sneImm (x : RegIdx) (nn : Byte) : Statement (.sneImm x nn) := fun _ => wordXNN_selects 0x4 x nn
theorem seReg (x : RegIdx) (y : RegIdx) : Statement (.seReg x y) := fun _ => wordXYN_selects 0x5 0x0 x y
theorem ldImm (x : RegIdx) (nn : Byte) : Statement (.ldImm x nn) := fun _ => wordXNN_selects 0x6 x nn
theorem addImm (x : RegIdx) (nn : Byte) : Statement (.addImm x nn) := fun _ => wordXNN_selects 0x7 x nn
theorem ldReg (x : RegIdx) (y : RegIdx) : Statement (.ldReg x y) := fun _ => wordXYN_selects 0x8 0x0 x y
theorem orReg (x : RegIdx) (y : RegIdx) : Statement (.orReg x y) := fun _ => wordXYN_selects 0x8 0x1 x y
theorem andReg (x : RegIdx) (y : RegIdx) : Statement (.andReg x y) := fun _ => wordXYN_selects 0x8 0x2 x y
theorem xorReg (x : RegIdx) (y : RegIdx) : Statement (.xorReg x y) := fun _ => wordXYN_selects 0x8 0x3 x y
theorem addReg (x : RegIdx) (y : RegIdx) : Statement (.addReg x y) := fun _ => wordXYN_selects 0x8 0x4 x y
theorem subReg (x : RegIdx) (y : RegIdx) : Statement (.subReg x y) := fun _ => wordXYN_selects 0x8 0x5 x y
theorem shr (x : RegIdx) (y : RegIdx) : Statement (.shr x y) := fun _ => wordXYN_selects 0x8 0x6 x y
theorem subnReg (x : RegIdx) (y : RegIdx) : Statement (.subnReg x y) := fun _ => wordXYN_selects 0x8 0x7 x y
theorem shl (x : RegIdx) (y : RegIdx) : Statement (.shl x y) := fun _ => wordXYN_selects 0x8 0xE x y
theorem sneReg (x : RegIdx) (y : RegIdx) : Statement (.sneReg x y) := fun _ => wordXYN_selects 0x9 0x0 x y
theorem ldI (nnn : Addr12) : Statement (.ldI nnn) := fun _ => wordNNN_selects 0xA nnn
theorem jpV0 (nnn : Addr12) : Statement (.jpV0 nnn) := fun _ => wordNNN_selects 0xB nnn
theorem rnd (x : RegIdx) (nn : Byte) : Statement (.rnd x nn) := fun _ => wordXNN_selects 0xC x nn
theorem drw (x : RegIdx) (y : RegIdx) (n : Nat) : Statement (.drw x y n) := fun h => wordXYN_selects_family 0xD x y (Nat.lt_succ_of_le (of_decide_eq_true h))
theorem skp (x : RegIdx) : Statement (.skp x) := fun _ => wordX_selects 0xE x 0x9E
theorem sknp (x : RegIdx) : Statement (.sknp x) := fun _ => wordX_selects 0xE x 0xA1
theorem ldVxDT (x : RegIdx) : Statement (.ldVxDT x) := fun _ => wordX_selects 0xF x 0x07
theorem ldVxK (x : RegIdx) : Statement (.ldVxK x) := fun _ => wordX_selects 0xF x 0x0A
theorem ldDTVx (x : RegIdx) : Statement (.ldDTVx x) := fun _ => wordX_selects 0xF x 0x15
theorem ldSTVx (x : RegIdx) : Statement (.ldSTVx x) := fun _ => wordX_selects 0xF x 0x18
theorem addI (x : RegIdx) : Statement (.addI x) := fun _ => wordX_selects 0xF x 0x1E
theorem ldF (x : RegIdx) : Statement (.ldF x) := fun _ => wordX_selects 0xF x 0x29
theorem ldB (x : RegIdx) : Statement (.ldB x) := fun _ => wordX_selects 0xF x 0x33
theorem dump (x : RegIdx) : Statement (.dump x) := fun _ => wordX_selects 0xF x 0x55
theorem load (x : RegIdx) : Statement (.load x) := fun _ => wordX_selects 0xF x 0x65

end Sys2Proof.Laws.InRow
end

