-- ==== Sys2Proof/Tests/Slice0.lean ====
section
/-! SUPPORT. Tests of one step each, their expected results taken from spec/95_test_vectors.md (the vector is named), and
witnesses that the hypotheses of every statement of Certificates/Slice0/Obligations.lean can be met. -/

namespace Sys2Proof.Tests

open Sys2Proof Sys2Proof.Machine

/-! ### Small states (95_test_vectors.md, conventions for every vector) -/

/-- The reset state with the word `w` at `PC` and the inputs of the coming cycle. -/
def bootWith (inp : CycleInput) (pc w : Word) : State :=
  { State.reset with pc := pc, feed := [inp] }.storeWordAtPc w

/-- The reset state with the word `w` at 0x200 and no input in the coming cycle. -/
def boot (w : Word) : State := bootWith CycleInput.quiet 0x200 w

/-- Bytes put into memory for a test. -/
def withBytes (s : State) (a : Nat) (vs : List Byte) : State := { s with mem := s.mem.writeBytes a vs }

/-- The state after one step. -/
def after (s : State) : State :=
  match step s with
  | .next t => t
  | _ => s

/-- The registers named. -/
def regs (s : State) (rs : List RegIdx) : List Byte := rs.map s.reg

/-- The bytes at successive addresses. -/
def bytes (s : State) (a n : Nat) : List Byte := (List.range n).map fun j => s.mem.read (a + j)

/-- The pixels named. -/
def pixels (s : State) (ps : List (Fin 32 × Fin 64)) : List Bool := ps.map fun p => s.pixel p.1 p.2

/-- The number of pixels that are 1. -/
def lit (s : State) : Nat := (s.fb.toList.map fun row => row.toList.countP id).foldl (· + ·) 0

/-- The fault record a state is halted with. -/
def haltedWith (s : State) : Option FaultRecord := if s.run = .halted then s.fault else none

/-! ### Well-formedness: the one check, and a term it refuses -/

theorem test_wellFormed_refuses_sixteen_rows : (Instr.drw 0 0 16).wellFormed = false := by decide
theorem test_wellFormed_accepts_fifteen_rows : (Instr.drw 0 0 15).wellFormed = true := by decide

/-! ### Decoding: a word of every constructor, written from 30_encoding.md R91 and R100 -/

theorem test_decode_family0 : decodeWord 0x00E0 = .ok .cls ∧ decodeWord 0x00EE = .ok .ret := ⟨rfl, rfl⟩
theorem test_decode_jumps :
    decodeWord 0x1ABC = .ok (.jp 0xABC) ∧ decodeWord 0x2300 = .ok (.call 0x300) ∧
    decodeWord 0xBFFE = .ok (.jpV0 0xFFE) := ⟨rfl, rfl, rfl⟩
theorem test_decode_skips :
    decodeWord 0x3A05 = .ok (.seImm 10 5) ∧ decodeWord 0x4A05 = .ok (.sneImm 10 5) ∧
    decodeWord 0x5120 = .ok (.seReg 1 2) ∧ decodeWord 0x9120 = .ok (.sneReg 1 2) := ⟨rfl, rfl, rfl, rfl⟩
theorem test_decode_immediates :
    decodeWord 0x6A05 = .ok (.ldImm 10 5) ∧ decodeWord 0x7A01 = .ok (.addImm 10 1) ∧
    decodeWord 0xC30F = .ok (.rnd 3 0x0F) := ⟨rfl, rfl, rfl⟩
theorem test_decode_alu :
    decodeWord 0x8120 = .ok (.ldReg 1 2) ∧ decodeWord 0x8121 = .ok (.orReg 1 2) ∧
    decodeWord 0x8122 = .ok (.andReg 1 2) ∧ decodeWord 0x8123 = .ok (.xorReg 1 2) ∧
    decodeWord 0x8124 = .ok (.addReg 1 2) ∧ decodeWord 0x8125 = .ok (.subReg 1 2) ∧
    decodeWord 0x8126 = .ok (.shr 1 2) ∧ decodeWord 0x8127 = .ok (.subnReg 1 2) ∧
    decodeWord 0x812E = .ok (.shl 1 2) := ⟨rfl, rfl, rfl, rfl, rfl, rfl, rfl, rfl, rfl⟩
theorem test_decode_index_memory :
    decodeWord 0xA123 = .ok (.ldI 0x123) ∧ decodeWord 0xF11E = .ok (.addI 1) ∧ decodeWord 0xF129 = .ok (.ldF 1) ∧
    decodeWord 0xF033 = .ok (.ldB 0) ∧ decodeWord 0xF255 = .ok (.dump 2) ∧ decodeWord 0xFF65 = .ok (.load 15) := ⟨rfl, rfl, rfl, rfl, rfl, rfl⟩
theorem test_decode_display : decodeWord 0xD1FF = .ok (.drw 1 15 15) := rfl
theorem test_decode_keypad_timers :
    decodeWord 0xE59E = .ok (.skp 5) ∧ decodeWord 0xE5A1 = .ok (.sknp 5) ∧ decodeWord 0xF307 = .ok (.ldVxDT 3) ∧
    decodeWord 0xF20A = .ok (.ldVxK 2) ∧ decodeWord 0xF015 = .ok (.ldDTVx 0) ∧ decodeWord 0xF418 = .ok (.ldSTVx 4) := ⟨rfl, rfl, rfl, rfl, rfl, rfl⟩
/-- Illegal words: K11, K12, C11 to C13, P8, P9, P24 to P26, Y4 to Y10. -/
def illegalWords : List Word :=
  [0x5121, 0x9125, 0x8128, 0x812F, 0x8129, 0xE59F, 0xE0A2, 0xF008, 0xF000, 0xF0FF] ++
  [0x0000, 0x0123, 0x00E1, 0x01E0, 0x00EF, 0xFFFF, 0xE000]

theorem test_decode_refuses_illegal_words :
    illegalWords.all (fun w => (decodeWord w).toOption.isNone) = true := by decide
theorem test_decode_leaves_the_rest_of_the_bytes :
    decode [0x6A, 0x05, 0x12] = .ok (.ldImm 10 5, [0x12]) ∧ decode [0x6A] = .error .truncated := ⟨rfl, rfl⟩
theorem test_decodeTableWord : decodeTableWord 16 0xF265 = some (.load 2) ∧ decodeTableWord 16 0x5121 = none := by
  decide
theorem test_opcodeRows_disjoint :
    opcodeRows.Pairwise fun r q => r.bits &&& (r.mask &&& q.mask) ≠ q.bits &&& (r.mask &&& q.mask) := by decide
theorem test_withFetchWord_is_run_next :
    regs (after (State.reset.withFetchWord 16 0x6A05)) [10] = [5] ∧
    (State.reset.withFetchWord 16 0x6A05).mem = [(0x200, 0x6A), (0x201, 0x05)] := by decide

/-! ### Control transfer: T1, T2, T3, T6, T7, T9 -/

theorem test_ret :
    let s := { bootWith .quiet 0x30C 0x00EE with sp := 1, stack := State.reset.stack.set 0 0x204 }
    (after s).sp = 0 ∧ (after s).pc = 0x206 := by decide
theorem test_ret_empty_stack :
    haltedWith (after (bootWith .quiet 0x30C 0x00EE)) = some ⟨.stackUnderflow, 0x30C, some 0x00EE, none⟩ := by decide
theorem test_jp : (after (boot 0x1ABC)).pc = 0xABC := by decide
theorem test_call_sixteenth :
    let s := { bootWith .quiet 0x204 0x2300 with sp := 15 }
    (after s).stack[15] = 0x204 ∧ (after s).sp = 16 ∧ (after s).pc = 0x300 := by decide
theorem test_call_full_stack :
    haltedWith (after { bootWith .quiet 0x204 0x2300 with sp := 16 }) =
      some ⟨.stackOverflow, 0x204, some 0x2300, none⟩ := by decide
theorem test_jpV0_does_not_wrap : (after ((boot 0xBFFF).setReg 0 0xFF)).pc = 0x10FE := by decide

/-! ### Skips: K1 to K8, K13 -/

theorem test_seImm_equal : (after ((boot 0x3A05).setReg 10 5)).pc = 0x204 := by decide
theorem test_seImm_over_the_last_word : (after (bootWith .quiet 0xFFC 0x3000)).pc = 0x1000 := by decide
theorem test_sneImm_equal : (after ((boot 0x4A05).setReg 10 5)).pc = 0x202 := by decide
theorem test_sneImm_unequal : (after ((boot 0x4A05).setReg 10 6)).pc = 0x204 := by decide
theorem test_seReg_equal : (after (((boot 0x5120).setReg 1 7).setReg 2 7)).pc = 0x204 := by decide
theorem test_seReg_unequal : (after (((boot 0x5120).setReg 1 7).setReg 2 8)).pc = 0x202 := by decide
theorem test_sneReg_equal : (after (((boot 0x9120).setReg 1 7).setReg 2 7)).pc = 0x202 := by decide
theorem test_sneReg_unequal : (after (((boot 0x9120).setReg 1 7).setReg 2 8)).pc = 0x204 := by decide

/-! ### Immediates: I1, I3, I4, I6, I7 -/

theorem test_ldImm : regs (after (boot 0x6A05)) [10] = [5] ∧ (after (boot 0x6A05)).pc = 0x202 := by decide
theorem test_addImm_wraps_without_flag :
    regs (after (((boot 0x7A01).setReg 10 0xFF).setReg 15 0x55)) [10, 15] = [0x00, 0x55] := by decide
theorem test_addImm_on_vf : regs (after ((boot 0x7F01).setReg 15 0xFF)) [15] = [0] := by decide
theorem test_rnd : regs (after (bootWith ⟨0, false, false, 0xA7⟩ 0x200 0xC30F)) [3] = [0x07] := by decide
theorem test_rnd_mask_zero :
    regs (after ((bootWith ⟨0, false, false, 0xFF⟩ 0x200 0xC300).setReg 3 0x99)) [3] = [0x00] := by decide

/-! ### ALU: A0 to A4, A9, A11, B3, B5, B7, B10, C1, C4, C6, C9 -/

/-- `V[1]`, `V[2]` and `VF` before an ALU instruction. -/
def alu (w : Word) (a b f : Byte) : State := (((boot w).setReg 1 a).setReg 2 b).setReg 15 f

theorem test_ldReg : regs (after (alu 0x8120 0x11 0x22 0x77)) [1, 2, 15] = [0x22, 0x22, 0x77] := by decide
theorem test_orReg : regs (after (alu 0x8121 0x0F 0xF0 0x77)) [1, 2, 15] = [0xFF, 0xF0, 0x77] := by decide
theorem test_andReg : regs (after (alu 0x8122 0x3C 0x0F 0x77)) [1, 2, 15] = [0x0C, 0x0F, 0x77] := by decide
theorem test_xorReg : regs (after (alu 0x8123 0xFF 0x0F 0x77)) [1, 2, 15] = [0xF0, 0x0F, 0x77] := by decide
theorem test_addReg_carry : regs (after (alu 0x8124 0xC8 0x64 0x77)) [1, 15] = [0x2C, 1] := by decide
theorem test_addReg_into_vf : regs (after (alu 0x8F14 0x20 0 0xF0)) [1, 15] = [0x20, 1] := by decide
theorem test_subReg_equal : regs (after (alu 0x8125 0x07 0x07 1)) [1, 15] = [0x00, 0] := by decide
theorem test_subReg_vf_operand : regs (after (alu 0x81F5 0x0A 0 0x03)) [1, 15] = [0x07, 1] := by decide
theorem test_subnReg : regs (after (alu 0x8127 0x03 0x0A 0)) [1, 2, 15] = [0x07, 0x0A, 1] := by decide
theorem test_subnReg_borrow : regs (after (alu 0x8127 0x0A 0x03 1)) [1, 15] = [0xF9, 0] := by decide
theorem test_shr_ignores_y : regs (after (alu 0x8126 0x05 0xFF 0)) [1, 2, 15] = [0x02, 0xFF, 1] := by decide
theorem test_shr_vf : regs (after (alu 0x8F26 0 0 0x02)) [15] = [0] := by decide
theorem test_shl_ignores_y : regs (after (alu 0x812E 0x81 0xFF 0)) [1, 2, 15] = [0x02, 0xFF, 1] := by decide
theorem test_shl_vf : regs (after (alu 0x8F2E 0 0 0x41)) [15] = [0] := by decide

/-! ### Index and memory: M2, M3, M5, M8, M10, M12b, M13, M16, M17, M18 -/

theorem test_ldI : (after (boot 0xAFFF)).i = 0x0FFF := by decide
theorem test_addI_beyond_12_bits :
    (after ({ boot 0xF11E with i := 0x0FF8 }.setReg 1 0x10)).i = 0x1008 := by decide
theorem test_addI_wraps_at_16_bits :
    (after ({ boot 0xF11E with i := 0xFFFF }.setReg 1 0x02)).i = 0x0001 := by decide
theorem test_ldF_not_masked : (after ((boot 0xF129).setReg 1 0xFF)).i = 0x04FB := by decide
theorem test_ldB_leading_zeros :
    let t := after (withBytes ({ boot 0xF133 with i := 0x300 }.setReg 1 7) 0x300 [9, 9, 9])
    bytes t 0x300 3 = [0, 0, 7] ∧ t.i = 0x300 ∧ t.mem = [(0x200, 0xF1), (0x201, 0x33), (0x302, 7)] := by decide
theorem test_ldB_outside_memory :
    haltedWith (after ({ boot 0xF133 with i := 0x0FFE }.setReg 1 123)) =
      some ⟨.addressOutOfRange, 0x200, some 0xF133, some 0x1000⟩ := by decide
theorem test_dump :
    let t := after (((({ boot 0xF255 with i := 0x400 }.setReg 0 0x11).setReg 1 0x22).setReg 2 0x33).setReg 3 0x44)
    bytes t 0x400 4 = [0x11, 0x22, 0x33, 0x00] ∧ t.i = 0x403 := by decide
theorem test_dump_outside_memory :
    haltedWith (after ({ boot 0xF155 with i := 0x0FFF }.setReg 0 0xAA)) =
      some ⟨.addressOutOfRange, 0x200, some 0xF155, some 0x1000⟩ := by decide
theorem test_load :
    let t := after (withBytes ({ boot 0xF265 with i := 0x400 }.setReg 3 0x99) 0x400 [0x11, 0x22, 0x33, 0x44])
    regs t [0, 1, 2, 3] = [0x11, 0x22, 0x33, 0x99] ∧ t.i = 0x403 := by decide
theorem test_load_outside_memory :
    haltedWith (after { boot 0xF165 with i := 0x0FFF }) =
      some ⟨.addressOutOfRange, 0x200, some 0xF165, some 0x1000⟩ := by decide

/-! ### Display: D1, D2, D13, D14 -/

/-- D13, `x = 15`: a sprite of two rows 0x80, `VF = 10`, pixel `(0,0)` is 1. -/
def columnInVf : State :=
  (withBytes ({ boot 0xDF12 with i := 0x300 }.setReg 15 10) 0x300 [0x80, 0x80]).setPixel 0 0 true

/-- D14, `y = 15`: the same sprite, `V[1] = 3`, pixel `(0,3)` is 1. -/
def rowInVf : State :=
  (withBytes (({ boot 0xD1F2 with i := 0x300 }.setReg 15 10).setReg 1 3) 0x300 [0x80, 0x80]).setPixel 0 3 true

theorem test_cls :
    let t := after (((boot 0x00E0).setPixel 0 0 true).setPixel 31 63 true)
    lit t = 0 ∧ t.presentO = true ∧ t.dirty = false := by decide
theorem test_drw_clips_right_and_bottom :
    let t := after (((boot 0xD015).setReg 0 62).setReg 1 30)
    pixels t [(30, 62), (30, 63), (31, 62)] = [true, true, true] ∧ lit t = 3 ∧ t.reg 15 = 0 ∧ t.presentO = true := by
  decide
theorem test_drw_coordinates_from_vf :
    (let t := after columnInVf
     pixels t [(0, 0), (1, 0), (1, 1)] = [false, false, true] ∧ lit t = 1 ∧ t.reg 15 = 1) ∧
    (let t := after rowInVf
     pixels t [(0, 3), (1, 3), (2, 3)] = [false, false, true] ∧ lit t = 1 ∧ t.reg 15 = 1) := by decide

/-! ### Keypad and timers: P1, P3, P5, P6, P11, P13, P14, P18, P20, P21 -/

theorem test_skp_down : (after ((bootWith ⟨0x0080, false, false, 0⟩ 0x210 0xE59E).setReg 5 7)).pc = 0x214 := by decide
theorem test_skp_key_sixteen :
    haltedWith (after ((bootWith ⟨0xFFFF, false, false, 0⟩ 0x200 0xE59E).setReg 5 16)) =
      some ⟨.keyIndexOutOfRange, 0x200, some 0xE59E, some 16⟩ := by decide
theorem test_sknp_down : (after ((bootWith ⟨0x0080, false, false, 0⟩ 0x210 0xE5A1).setReg 5 7)).pc = 0x212 := by decide
theorem test_sknp_key_255 :
    haltedWith (after ((boot 0xE5A1).setReg 5 0xFF)) = some ⟨.keyIndexOutOfRange, 0x200, some 0xE5A1, some 255⟩ := by
  decide
theorem test_ldVxDT_before_the_tick :
    let t := after { bootWith ⟨0, false, true, 0⟩ 0x200 0xF307 with dt := 0x2A }
    t.reg 3 = 0x2A ∧ t.dt = 0x29 := by decide
theorem test_ldVxK_lowest :
    let t := after (bootWith ⟨0x0088, false, false, 0⟩ 0x20A 0xF20A)
    t.reg 2 = 3 ∧ t.pc = 0x20C := by decide
theorem test_ldVxK_waits :
    let t := after ({ bootWith ⟨0, false, true, 0⟩ 0x20A 0xF20A with dt := 5 }.setReg 2 0xEE)
    t.reg 2 = 0xEE ∧ t.pc = 0x20A ∧ t.dt = 4 := by decide
theorem test_ldDTVx_then_tick : (after ((bootWith ⟨0, false, true, 0⟩ 0x200 0xF015).setReg 0 3)).dt = 2 := by decide
theorem test_ldSTVx_sounds :
    let t := after ((boot 0xF418).setReg 4 0x10)
    t.st = 16 ∧ t.toneO = true := by decide
theorem test_ldSTVx_silent_after_the_tick :
    let t := after ((bootWith ⟨0, false, true, 0⟩ 0x200 0xF418).setReg 4 1)
    t.st = 0 ∧ t.toneO = false := by decide

/-! ### The cycle, reset and load: Y3, Y4, T11, L2, L3, L5 -/

theorem test_quit :
    let t := after { bootWith ⟨0x0004, true, true, 0⟩ 0x200 0x6A05 with st := 3 }
    t.run = .halted ∧ t.faultCode = 0 ∧ t.k.getLsbD 2 = true ∧ t.reg 10 = 0 ∧ t.st = 3 ∧ t.toneO = false ∧
      t.presentO = false ∧ t.pc = 0x200 ∧ t.haltedO = true := by decide
theorem test_illegal_word :
    let t := after { bootWith ⟨0, false, true, 0⟩ 0x200 0x0000 with dt := 3, st := 3 }
    haltedWith t = some ⟨.decodeFault, 0x200, some 0x0000, none⟩ ∧ t.toneO = false ∧ t.faultCode = 1 := by decide
theorem test_fetch_of_half_a_word :
    haltedWith (after { State.reset with pc := 0xFFF, feed := [.quiet] }) =
      some ⟨.addressOutOfRange, 0xFFF, none, some 0x1000⟩ := by decide
theorem test_load_one_byte : bytes (State.resetWith [0x12]) 0x1FF 4 = [0, 0x12, 0, 0] := by decide
theorem test_load_fault :
    haltedWith (State.resetWith (List.replicate 3585 0xAA)) = some ⟨.loadFault, 0x200, none, some 3585⟩ := by
  have h : ¬ (List.replicate 3585 (0xAA : Byte)).length ≤ Config.maxImage := fun hle =>
    absurd (Nat.le_trans (Nat.le_of_eq List.length_replicate.symm) hle) (by decide)
  rw [haltedWith, State.resetWith, if_neg h, List.length_replicate]
  rfl

/-! ### Witnesses: the hypotheses of every statement can be met, each clause at the edge of its range -/

theorem boot_aboutToRun : (boot 0x6A05).AboutToRun 0x6A05 := by unfold State.AboutToRun; decide

theorem witness_DecodeOfEncode : (Instr.drw 15 15 15).wellFormed = true ∧ (Instr.drw 0 0 0).wellFormed = true := by decide
theorem witness_EncodeOfDecode : ∃ w i, decodeWord w = .ok i := ⟨0xFF65, .load 15, rfl⟩
theorem witness_DecodeFollowsTheOneSelectedRow :
    (∃ r ∈ opcodeRows, r.selects 0xDFFF = true) ∧ (∃ r ∈ opcodeRows, r.selects 0x00E0 = true) := by decide
theorem witness_WordMatchingNoRow :
    illegalWords.all (fun w => opcodeRows.all fun r => !r.selects w) = true ∧ (boot 0x0000).AboutToRun 0x0000 ∧
    (boot 0xFFFF).AboutToRun 0xFFFF := by
  unfold State.AboutToRun; decide
theorem witness_StepRuns : ∃ s w i, State.AboutToRun s w ∧ decodeWord w = .ok i :=
  ⟨boot 0x6A05, 0x6A05, .ldImm 10 5, boot_aboutToRun, rfl⟩
theorem witness_CompletedCycle : ∃ s w i t, State.AboutToRun s w ∧ decodeWord w = .ok i ∧
    exec i { s with k := s.portsIn.keys } = .next t ∧ t.run = .running :=
  ⟨boot 0x6A05, 0x6A05, .ldImm 10 5, _, boot_aboutToRun, rfl, rfl, rfl⟩
theorem witness_FaultedCycle : ∃ s w i t, State.AboutToRun s w ∧ decodeWord w = .ok i ∧
    exec i { s with k := s.portsIn.keys } = .next t ∧ t.run = .halted :=
  ⟨boot 0x00EE, 0x00EE, .ret, _, by unfold State.AboutToRun; decide, rfl, rfl, rfl⟩
/-- The reset state at another address, with no input in the coming cycle. -/
def startAt (pc : Word) : State := { State.reset with pc := pc, feed := [.quiet] }

theorem witness_FetchOutside :
    [0xFFF, 0x1000, 0x10FE].all (fun pc => (startAt pc).run == .running && !(startAt pc).portsIn.quit &&
      decide (0xFFE < (startAt pc).pc.toNat)) = true := by decide
theorem witness_Quit :
    let s := bootWith ⟨0, true, false, 0⟩ 0x200 0x6A05
    s.run = .running ∧ s.portsIn.quit = true := by decide
theorem witness_Halted : { State.reset with run := .halted }.run = .halted := rfl
theorem witness_KeysAreSampled :
    (∃ s t, s.run = .running ∧ step s = .next t ∧ t.run = .running) ∧
    (∃ s t, s.run = .running ∧ step s = .next t ∧ s.portsIn.quit = true) :=
  ⟨⟨boot 0x6A05, _, rfl, rfl, rfl⟩, ⟨bootWith ⟨0, true, false, 0⟩ 0x200 0x6A05, _, rfl, rfl, rfl⟩⟩
theorem witness_Tone :
    (∃ s t, step s = .next t ∧ t.toneO = true) ∧ (∃ s t, step s = .next t ∧ t.toneO = false) :=
  ⟨⟨(boot 0xF418).setReg 4 2, _, rfl, rfl⟩, ⟨boot 0x6A05, _, rfl, rfl⟩⟩
theorem witness_FramebufferPresented : ∃ s w i t, State.AboutToRun s w ∧ decodeWord w = .ok i ∧ s.dirty = false ∧
    step s = .next t ∧ t.run = .running ∧ t.presentO = true :=
  ⟨boot 0x00E0, 0x00E0, .cls, _, by unfold State.AboutToRun; decide, rfl, rfl, rfl, rfl, rfl⟩
theorem witness_RunEnds :
    (∃ s t, s.run = .running ∧ s.fault = none ∧ step s = .next t ∧ t.run = .halted ∧ s.portsIn.quit = true) ∧
    (∃ s t, s.run = .running ∧ s.fault = none ∧ step s = .next t ∧ t.run = .halted ∧ s.portsIn.quit = false) :=
  ⟨⟨bootWith ⟨0, true, false, 0⟩ 0x200 0x6A05, _, rfl, rfl, rfl, rfl, rfl⟩, ⟨boot 0x0000, _, rfl, rfl, rfl, rfl, rfl⟩⟩
theorem boot_inv : (boot 0x2300).Inv := by decide
theorem witness_StepKeepsInv : ∃ s t : State, s.Inv ∧ step s = .next t ∧ t.run = .running :=
  ⟨boot 0x2300, _, boot_inv, rfl, rfl⟩
theorem witness_ResetLoads : ∃ image : List Byte, image.length ≤ 3584 ∧ 0 < image.length :=
  ⟨List.replicate 3584 0xAA, Nat.le_of_eq List.length_replicate,
    Nat.lt_of_lt_of_eq (by decide) List.length_replicate.symm⟩
theorem witness_OversizedImage :
    (∃ image : List Byte, 3584 < image.length) ∧ (∃ image : List Byte, image.length = 3584) ∧
    (∃ image : List Byte, image.length ≤ 3584) ∧ CycleInput.quiet.quit = false :=
  ⟨⟨List.replicate 3585 0, Nat.lt_of_lt_of_eq (by decide) List.length_replicate.symm⟩, ⟨List.replicate 3584 0, List.length_replicate⟩,
    ⟨[], by decide⟩, rfl⟩
theorem witness_MemoryAccesses :
    ∃ a b : Nat, a ≤ 0xFFF ∧ 0xFFF < b ∧ b = a + 1 := ⟨0xFFF, 0x1000, by decide, by decide, rfl⟩
theorem witness_Jump :
    (0x200 : Addr12).toNat = State.reset.pc.toNat ∧
    ∃ s t, exec (.jp 0xFFF) s = .next t ∧ t.run = .running ∧ t.portsIn.quit = false :=
  ⟨rfl, boot 0x1FFF, _, rfl, rfl, rfl⟩
theorem witness_Call :
    { State.reset with sp := 15 }.sp.val < 16 ∧ { State.reset with sp := 16 }.sp.val = 16 := by decide
theorem witness_Return : 0 < { State.reset with sp := 1 }.sp.val ∧ State.reset.sp.val = 0 := by decide
theorem witness_CallThenReturn : ∃ s t, ∃ h : s.sp.val < 16, exec (.call 0x300) s = .next t ∧
    ∃ u : State, u.sp = t.sp ∧ u.stack[s.sp.val] = s.pc :=
  ⟨{ State.reset with sp := 15 }, _, by decide, rfl, _, rfl, by decide⟩
theorem witness_SkipsOnTwoRegisters : ∃ n, 1 ≤ n ∧ n ≤ 15 ∧ (n = 1 ∨ n = 15) := ⟨15, by decide⟩
theorem witness_FlagInstrs : ∃ i r f, (i, r, f) ∈ flagInstrs (alu 0x8124 0xC8 0x64 0x77) 1 2 ∧ (1 : RegIdx) ≠ 15 :=
  ⟨.addReg 1 2, 0x2C, 1, by decide⟩
theorem witness_Bcd :
    { State.reset with i := 0xFFD }.i.toNat ≤ 0xFFD ∧ 0xFFD < { State.reset with i := 0xFFE }.i.toNat ∧
    0xFFF < { State.reset with i := 0x1000 }.i.toNat := by decide
theorem witness_DumpAndLoad :
    { State.reset with i := 0xFFE }.i.toNat + (1 : RegIdx).val ≤ 0xFFF ∧
    0xFFF < { State.reset with i := 0xFFF }.i.toNat + (1 : RegIdx).val ∧
    0xFFF < { State.reset with i := 0x1000 }.i.toNat + (0 : RegIdx).val := by decide
/-- `w` as the last instruction but one of memory, with `I` at the last word. -/
def storeToLastWord (w : Word) : State := { bootWith .quiet 0xFFC w with i := 0xFFE }

theorem witness_StoreIsSeen :
    (storeToLastWord 0xF155).pc.toNat ≤ 0xFFC ∧
    (storeToLastWord 0xF155).AboutToRun (BitVec.ofNat 16 (0xF055 + (1 : RegIdx).val * 0x100)) ∧
    (storeToLastWord 0xF155).i.toNat + (1 : RegIdx).val ≤ 0xFFF ∧
    { storeToLastWord 0xF133 with i := 0xFFD }.AboutToRun (BitVec.ofNat 16 (0xF033 + (1 : RegIdx).val * 0x100)) ∧
    { storeToLastWord 0xF133 with i := 0xFFD }.i.toNat + 2 ≤ 0xFFF := by
  unfold State.AboutToRun; decide

/-- A sprite whose second row is off the bottom of the screen and of memory (vector D10). -/
def lastByteSprite : State := { State.reset with i := 0xFFF }.setReg 1 31

theorem lastByteSprite_readable : SpriteReadable lastByteSprite 1 2 := by
  unfold SpriteReadable; decide
theorem lastByteSprite_readable_after_clear : SpriteReadable (lastByteSprite.setReg 15 0) 1 2 := by
  unfold SpriteReadable; decide
theorem witness_DrawInverts : (0 : RegIdx) ≠ 15 ∧ (1 : RegIdx) ≠ 15 ∧ SpriteReadable lastByteSprite 1 2 :=
  ⟨by decide, by decide, lastByteSprite_readable⟩
theorem witness_DrawingTwice : ∃ s t, (0 : RegIdx) ≠ 15 ∧ (1 : RegIdx) ≠ 15 ∧ SpriteReadable s 1 2 ∧
    exec (.drw 0 1 2) s = .next t :=
  ⟨lastByteSprite, _, by decide, by decide, lastByteSprite_readable, rfl⟩
theorem witness_DrawCompletes : 15 ≤ 15 ∧ SpriteReadable (State.reset.setReg 15 0) 15 15 :=
  ⟨by decide, by unfold SpriteReadable; decide⟩
theorem witness_DrawReadsTheFlag : 2 ≤ 15 ∧ SpriteReadable (lastByteSprite.setReg 15 0) 1 2 ∧
    ∀ row col, spritePixel (lastByteSprite.setReg 15 0) 15 1 2 row col = true → lastByteSprite.pixel row col = false :=
  ⟨by decide, lastByteSprite_readable_after_clear, fun _ _ _ => by simp [State.pixel, lastByteSprite, State.setReg, State.reset]⟩
theorem witness_DrawFirstHit_column :
    2 ≤ 15 ∧ SpriteReadable (columnInVf.setReg 15 0) 1 2 ∧ FirstHitAt columnInVf 15 1 2 0 0 :=
  ⟨by decide, by unfold SpriteReadable; decide, by decide, by decide, ⟨0, 0, ⟨rfl, rfl, rfl⟩, rfl⟩,
    fun _ _ _ _ h => by omega⟩
theorem witness_DrawFirstHit_row :
    2 ≤ 15 ∧ SpriteReadable (rowInVf.setReg 15 0) 15 2 ∧ FirstHitAt rowInVf 1 15 2 0 0 :=
  ⟨by decide, by unfold SpriteReadable; decide, by decide, by decide, ⟨0, 3, ⟨rfl, rfl, rfl⟩, rfl⟩,
    fun _ _ _ _ h => by omega⟩
theorem witness_DrawOutside : 2 ≤ 15 ∧ ¬ SpriteReadable ({ State.reset with i := 0xFFF }.setReg 15 0) 1 2 ∧
    ¬ SpriteReadable ({ State.reset with i := 0x1000 }.setReg 15 0) 1 1 := by
  unfold SpriteReadable; decide
theorem witness_KeySkips : (State.reset.setReg 5 15).reg 5 = 15 ∧ (State.reset.setReg 5 16).reg 5 = 16 := by decide
theorem witness_GetDelayTimer : (boot 0xF307).AboutToRun (BitVec.ofNat 16 (0xF007 + (3 : RegIdx).val * 0x100)) := by
  unfold State.AboutToRun; decide
theorem witness_SetTimers :
    (boot 0xF015).AboutToRun (BitVec.ofNat 16 (0xF015 + (0 : RegIdx).val * 0x100)) ∧
    (boot 0xF418).AboutToRun (BitVec.ofNat 16 (0xF018 + (4 : RegIdx).val * 0x100)) := by
  unfold State.AboutToRun; decide
theorem witness_KeyWait :
    (∀ j : Fin 16, State.reset.k.getLsbD j.val = false) ∧
    (∃ k : BitVec 16, k.getLsbD 15 = true ∧ ∀ l : Fin 16, l < 15 → k.getLsbD l.val = false) ∧
    (boot 0xF20A).AboutToRun (BitVec.ofNat 16 (0xF00A + (2 : RegIdx).val * 0x100)) ∧ (boot 0xF20A).portsIn.keys = 0 ∧
    (bootWith ⟨0, true, false, 0⟩ 0x200 0xF20A).portsIn.quit = true :=
  ⟨by decide, ⟨0x8000, by decide⟩, by unfold State.AboutToRun; decide, rfl, rfl⟩
theorem witness_OwnFault : ∃ i s t, exec i s = .next t ∧ s.run = .running ∧ t.run = .halted :=
  ⟨.ret, State.reset, _, rfl, rfl, rfl⟩
theorem witness_OnlyTheListedRegisters : ∃ i s t r, exec i s = .next t ∧ t.run = .running ∧ ¬ writesReg i r :=
  ⟨.addReg 1 2, State.reset, _, 2, rfl, rfl, by unfold writesReg; decide⟩
theorem witness_EachPart : ∃ i s t, exec i s = .next t ∧ t.run = .running ∧ i ≠ .cls ∧ i ≠ .ret :=
  ⟨.dump 2, State.reset, _, rfl, rfl, by decide, by decide⟩
theorem witness_ProgramCounterFollows : ∃ i s t, exec i s = .next t ∧ t.run = .running :=
  ⟨.jpV0 0xFFF, State.reset, _, rfl, rfl⟩
theorem witness_ProgramCounterNeverWraps : ∃ s w i t, State.Inv s ∧ State.AboutToRun s w ∧ decodeWord w = .ok i ∧
    exec i { s with k := s.portsIn.keys } = .next t ∧ t.run = .running ∧ t.pc = 0x10FE :=
  ⟨(boot 0xBFFF).setReg 0 0xFF, 0xBFFF, .jpV0 0xFFF, _, by decide, by unfold State.AboutToRun; decide, rfl, rfl, rfl, rfl⟩
theorem witness_SelfJump : (boot 0x1200).AtSelfJump ∧ (boot 0x1200).portsIn.quit = false :=
  ⟨⟨rfl, 0x1200, 0x200, rfl, rfl, rfl⟩, rfl⟩

end Sys2Proof.Tests
end

section
/-! ### Memory primitives (20_memory.md R62, R63) -/

namespace Sys2Proof.Proofs
open Sys2Proof Sys2Proof.Machine

/-- Settles O22: inside memory the written state differs from `s` in its memory only, which reads as `v` at `a` and as
before elsewhere (`Memory.read_write`); above 0xFFF both accesses take their fault branch. -/
theorem memoryAccessesAreBoundsChecked : Obligations.MemoryAccessesAreBoundsChecked := by
  unfold Obligations.MemoryAccessesAreBoundsChecked
  intro s a v
  rw [State.memRead_eq, State.memWrite_eq]
  constructor
  · intro hin
    rw [if_pos hin, if_pos hin]
    refine ⟨rfl, { s with mem := s.mem.write a v }, rfl, rfl, ?_, fun b hb => ?_⟩
    · rw [Memory.read_write, if_pos rfl]
    · rw [Memory.read_write, if_neg hb]
  · intro hout
    rw [if_neg (Nat.not_le.mpr hout), if_neg (Nat.not_le.mpr hout)]
    exact ⟨rfl, rfl⟩

end Sys2Proof.Proofs
end

section
/-! ### The illegal words (30_encoding.md R94, R108) -/

namespace Sys2Proof.Proofs
open Sys2Proof Sys2Proof.Machine Sys2Proof.Laws.InRow

/-! Selecting a row compares the fields its mask keeps, as numbers. -/

theorem append_toNat {m n : Nat} (x : BitVec m) (y : BitVec n) :
    (x ++ y).toNat = x.toNat * 2 ^ n + y.toNat := by
  rw [BitVec.toNat_append, Nat.shiftLeft_eq, Nat.mul_comm, ← Nat.two_pow_add_eq_or_of_lt y.isLt]

theorem selects_iff_toNat_and (bits mask w : Word) :
    OpcodeRow.selects ⟨bits, mask⟩ w = true ↔ (w &&& mask).toNat = bits.toNat := by
  rw [OpcodeRow.selects, beq_iff_eq, BitVec.toNat_inj]

theorem selects_wholeWord_iff (bits w : Word) :
    OpcodeRow.selects ⟨bits, 0xFFFF⟩ w = true ↔ w.toNat = bits.toNat := by
  have all : w &&& 0xFFFF = w := BitVec.and_allOnes
  rw [selects_iff_toNat_and, all]

theorem selects_family_iff {bits : Word} (hb : bits &&& 0xF000 = bits) (w : Word) :
    OpcodeRow.selects ⟨bits, 0xF000⟩ w = true ↔ w.toNat / 4096 = bits.toNat / 4096 := by
  have kept (u : Word) : (u &&& 0xF000).toNat = u.toNat / 4096 * 4096 := by
    rw [mask_family, append_toNat, ← fieldOp_eq, BitVec.ofNat_eq_ofNat, BitVec.toNat_zero, Nat.add_zero]
    rfl
  have hbits := congrArg BitVec.toNat hb
  rw [kept] at hbits
  rw [selects_iff_toNat_and, kept]
  omega

theorem selects_lowByte_iff {bits : Word} (hb : bits &&& 0xF0FF = bits) (w : Word) :
    OpcodeRow.selects ⟨bits, 0xF0FF⟩ w = true ↔
      w.toNat / 4096 = bits.toNat / 4096 ∧ w.toNat % 256 = bits.toNat % 256 := by
  have kept (u : Word) : (u &&& 0xF0FF).toNat = u.toNat / 4096 * 4096 + u.toNat % 256 := by
    rw [mask_lowByte, append_toNat, append_toNat, ← fieldOp_eq, ← fieldNN_toNat, BitVec.ofNat_eq_ofNat,
      BitVec.toNat_zero, Nat.zero_mul, Nat.zero_add]
    rfl
  have hbits := congrArg BitVec.toNat hb
  rw [kept] at hbits
  rw [selects_iff_toNat_and, kept]
  omega

theorem selects_lowNibble_iff {bits : Word} (hb : bits &&& 0xF00F = bits) (w : Word) :
    OpcodeRow.selects ⟨bits, 0xF00F⟩ w = true ↔
      w.toNat / 4096 = bits.toNat / 4096 ∧ w.toNat % 16 = bits.toNat % 16 := by
  have kept (u : Word) : (u &&& 0xF00F).toNat = u.toNat / 4096 * 4096 + u.toNat % 16 := by
    rw [mask_lowNibble, append_toNat, append_toNat, ← fieldOp_eq, ← fieldN_eq, BitVec.ofNat_eq_ofNat,
      BitVec.toNat_zero, Nat.zero_mul, Nat.zero_add]
    rfl
  have hbits := congrArg BitVec.toNat hb
  rw [kept] at hbits
  rw [selects_iff_toNat_and, kept]
  omega

/-- The family of a word is four bits (R91). -/
theorem family_cases (w : Word) :
    w.toNat / 4096 = 0x0 ∨ w.toNat / 4096 = 0x1 ∨ w.toNat / 4096 = 0x2 ∨ w.toNat / 4096 = 0x3 ∨
    w.toNat / 4096 = 0x4 ∨ w.toNat / 4096 = 0x5 ∨ w.toNat / 4096 = 0x6 ∨ w.toNat / 4096 = 0x7 ∨
    w.toNat / 4096 = 0x8 ∨ w.toNat / 4096 = 0x9 ∨ w.toNat / 4096 = 0xA ∨ w.toNat / 4096 = 0xB ∨
    w.toNat / 4096 = 0xC ∨ w.toNat / 4096 = 0xD ∨ w.toNat / 4096 = 0xE ∨ w.toNat / 4096 = 0xF := by
  have := w.isLt
  omega

/-- The 34 rows taken together leave out exactly R108's list: family by family, what the rows of that family compare is
what the list excludes. -/
theorem matchesNoRow_iff_illegalWord (w : Word) : (∀ r ∈ opcodeRows, r.selects w = false) ↔ IllegalWord w := by
  simp (disch := decide) only [opcodeRows, rowSamples, List.cons_append, List.nil_append, List.map_cons, List.map_nil,
    Instr.row, List.forall_mem_cons, List.not_mem_nil, false_imp_iff, implies_true, and_true,
    ← Bool.not_eq_true, selects_wholeWord_iff, selects_family_iff, selects_lowByte_iff, selects_lowNibble_iff,
    IllegalWord, BitVec.reduceToNat, Nat.reduceDiv, Nat.reduceMod]
  -- In one family, the rows and the lines of the list that fix another drop out; what stays compares the low bits.
  rcases family_cases w with hf | hf | hf | hf | hf | hf | hf | hf | hf | hf | hf | hf | hf | hf | hf | hf <;>
    simp only [hf, Nat.reduceEqDiff, reduceCtorEq, false_and, true_and, and_false, and_true, false_or, or_false,
      not_true_eq_false, not_false_eq_true, ne_eq] <;>
    omega

/-! The decoder answers `illegal` on each entry of R108's list. -/

theorem decodeFamily0_illegal {w : Word} (hcls : w.toNat ≠ 0x00E0) (hret : w.toNat ≠ 0x00EE) :
    decodeFamily0 w = .error .family0 := by
  unfold decodeFamily0
  split
  · contradiction
  · contradiction
  · rfl

theorem decodeFamily5_illegal {w : Word} (h : w.toNat % 16 ≠ 0) : decodeFamily5 w = .error .family5 := by
  rw [← fieldN_eq] at h
  unfold decodeFamily5
  split
  · contradiction
  · rfl

theorem decodeFamily9_illegal {w : Word} (h : w.toNat % 16 ≠ 0) : decodeFamily9 w = .error .family9 := by
  rw [← fieldN_eq] at h
  unfold decodeFamily9
  split
  · contradiction
  · rfl

theorem decodeFamily8_illegal {w : Word}
    (h : 0x8 ≤ w.toNat % 16 ∧ w.toNat % 16 ≤ 0xD ∨ w.toNat % 16 = 0xF) : decodeFamily8 w = .error .family8 := by
  rw [← fieldN_eq] at h
  unfold decodeFamily8
  split
  case h_10 => rfl
  all_goals omega

theorem decodeFamilyE_illegal {w : Word} (hskp : w.toNat % 256 ≠ 0x9E) (hsknp : w.toNat % 256 ≠ 0xA1) :
    decodeFamilyE w = .error .familyE := by
  rw [← fieldNN_toNat] at hskp hsknp
  unfold decodeFamilyE
  split
  · contradiction
  · contradiction
  · rfl

theorem decodeFamilyF_illegal {w : Word}
    (h : w.toNat % 256 ≠ 0x07 ∧ w.toNat % 256 ≠ 0x0A ∧ w.toNat % 256 ≠ 0x15 ∧ w.toNat % 256 ≠ 0x18 ∧
      w.toNat % 256 ≠ 0x1E ∧ w.toNat % 256 ≠ 0x29 ∧ w.toNat % 256 ≠ 0x33 ∧ w.toNat % 256 ≠ 0x55 ∧
      w.toNat % 256 ≠ 0x65) : decodeFamilyF w = .error .familyF := by
  rw [← fieldNN_toNat] at h
  unfold decodeFamilyF
  split
  case h_10 => rfl
  all_goals omega

theorem decodeWord_of_illegalWord {w : Word} (h : IllegalWord w) : ∃ why, decodeWord w = .error why := by
  unfold IllegalWord at h
  simp only [← fieldOp_eq] at h
  unfold decodeWord
  rcases h with ⟨hf, hcls, hret⟩ | ⟨hf | hf, hn⟩ | ⟨hf, hn⟩ | ⟨hf, hskp, hsknp⟩ | ⟨hf, hnn⟩ <;> rw [hf]
  · exact ⟨_, decodeFamily0_illegal hcls hret⟩
  · exact ⟨_, decodeFamily5_illegal hn⟩
  · exact ⟨_, decodeFamily9_illegal hn⟩
  · exact ⟨_, decodeFamily8_illegal hn⟩
  · exact ⟨_, decodeFamilyE_illegal hskp hsknp⟩
  · exact ⟨_, decodeFamilyF_illegal hnn⟩

/-! Fetching such a word halts the machine. -/

/-- The word the machine is about to run is the word it fetches (20_memory.md R66). -/
theorem fetch_of_aboutToRun {s : State} {w : Word} (h : s.AboutToRun w) : s.fetch = .ok w := by
  obtain ⟨-, -, hpc, hword⟩ := h
  rw [State.fetch_eq, if_pos hpc]
  exact congrArg Except.ok (BitVec.eq_of_toNat_eq ((wordOfBytes_toNat _ _).trans hword))

/-- A cycle that fetches a word the decoder refuses is the decode fault and nothing more. -/
theorem step_of_decodeWord_error {s : State} {w : Word} {why : Illegal} (h : s.AboutToRun w)
    (hw : decodeWord w = .error why) :
    step s = .next (s.sampleKeys.raise .decodeFault (some w) none).consumeInput := by
  have hfetch : s.sampleKeys.fetch = .ok w := fetch_of_aboutToRun h
  obtain ⟨hrun, hquit, -, -⟩ := h
  rw [step_running hrun hquit, State.execCycle, hfetch]
  simp only [hw]
  rw [State.endCycle_halted (State.raise_run ..)]

/-- Settles O4: the rows leave out R108's list (`matchesNoRow_iff_illegalWord`), the decoder refuses each word of that list
(`decodeWord_of_illegalWord`), and a refused word makes the cycle a decode fault at `PC`. -/
theorem wordMatchingNoRowRaisesDecodeFault : Obligations.WordMatchingNoRowRaisesDecodeFault := by
  unfold Obligations.WordMatchingNoRowRaisesDecodeFault
  refine ⟨matchesNoRow_iff_illegalWord, fun s w hs hnoRow => ?_⟩
  obtain ⟨why, hw⟩ := decodeWord_of_illegalWord ((matchesNoRow_iff_illegalWord w).mp hnoRow)
  exact ⟨_, step_of_decodeWord_error hs hw, rfl, rfl, rfl, rfl⟩

end Sys2Proof.Proofs
end

section
/-! ### Jumps (40_control_transfer.md R122) -/

namespace Sys2Proof.Proofs
open Sys2Proof Sys2Proof.Machine

/-! The fields of a word of format NNN (30_encoding.md R91). -/

@[simp] theorem fieldOp_wordNNN {op : Nat} (hop : op < 16) (nnn : Addr12) : fieldOp (wordNNN op nnn) = op := by
  have := nnn.isLt
  rw [fieldOp_eq, wordNNN_toNat hop]
  omega

@[simp] theorem fieldNNN_wordNNN {op : Nat} (hop : op < 16) (nnn : Addr12) : fieldNNN (wordNNN op nnn) = nnn := by
  apply BitVec.eq_of_toNat_eq
  have := nnn.isLt
  rw [fieldNNN_toNat, wordNNN_toNat hop]
  omega

theorem decodeWord_jp (nnn : Addr12) : decodeWord (wordNNN 0x1 nnn) = .ok (.jp nnn) := by
  have hop : 0x1 < 16 := by decide
  simp only [decodeWord, fieldOp_wordNNN hop, fieldNNN_wordNNN hop]

/-- An absolute address, by its number (30_encoding.md R92). -/
theorem absAddr_eq_ofNat (nnn : Addr12) : absAddr nnn = BitVec.ofNat 16 nnn.toNat :=
  (BitVec.ofNat_toNat ..).symm

theorem exec_jp (nnn : Addr12) (s : State) : exec (.jp nnn) s = .next (s.setPc (absAddr nnn)) := rfl

/-- Setting `PC` to the address it holds is no change (R122, the self-jump). -/
theorem setPc_absAddr_self {s : State} {nnn : Addr12} (h : nnn.toNat = s.pc.toNat) :
    s.setPc (absAddr nnn) = s := by
  have hpc : absAddr nnn = s.pc := by rw [absAddr_eq_ofNat, h, BitVec.ofNat_toNat, BitVec.setWidth_eq]
  rw [hpc]
  rfl

/-- A fetch that fails makes the cycle an `AddressOutOfRange` and nothing more (20_memory.md R66). -/
theorem step_of_fetch_error {s : State} {a : Nat} (hrun : s.run = .running) (hquit : s.portsIn.quit = false)
    (hfetch : s.fetch = .error a) :
    step s = .next (s.sampleKeys.raise .addressOutOfRange none (some a)).consumeInput := by
  have hsampled : s.sampleKeys.fetch = .error a := hfetch
  rw [step_running hrun hquit, State.execCycle, hsampled]
  simp only
  rw [State.endCycle_halted (State.raise_run ..)]

/-- At 0xFFF the high byte of the word is the last byte of memory and the low byte is outside (20_memory.md R66). -/
theorem fetch_at_0xFFF {s : State} (hpc : s.pc = 0xFFF) : s.fetch = .error 0x1000 := by
  rw [State.fetch_eq, hpc]
  rfl

/-- Settles O24: the word is format NNN of family 0x1, the instruction is one `setPc` (a self-jump sets `PC` to what it
holds), and with `PC` at 0xFFF the low byte of the next fetch lies outside memory. -/
theorem jumpSetsTheProgramCounter : Obligations.JumpSetsTheProgramCounter := by
  unfold Obligations.JumpSetsTheProgramCounter
  refine ⟨decodeWord_jp, fun s nnn => ?_, fun s nnn hself => ?_, fun s t hjump hrun hquit => ?_⟩
  · rw [exec_jp, absAddr_eq_ofNat]
    rfl
  · rw [exec_jp, setPc_absAddr_self hself]
  · rw [exec_jp] at hjump
    obtain rfl : s.setPc (absAddr 0xFFF) = t := Host.Outcome.next.inj hjump
    have hpc : (s.setPc (absAddr 0xFFF)).pc = 0xFFF := rfl
    exact ⟨_, step_of_fetch_error hrun hquit (fetch_at_0xFFF hpc), rfl, rfl, rfl, rfl⟩

end Sys2Proof.Proofs
end

section
/-! ### Skips (41_skips.md R131 to R134) -/

namespace Sys2Proof.Proofs
open Sys2Proof Sys2Proof.Machine

/-! The fields of a word of format XNN, XY or XYN (30_encoding.md R91). -/

@[simp] theorem fieldOp_wordXNN {op : Nat} (hop : op < 16) (x : RegIdx) (nn : Byte) :
    fieldOp (wordXNN op x nn) = op := by
  rw [fieldOp_eq, wordXNN_toNat hop]
  omega

@[simp] theorem fieldX_wordXNN {op : Nat} (hop : op < 16) (x : RegIdx) (nn : Byte) :
    fieldX (wordXNN op x nn) = x := by
  apply Fin.ext
  rw [fieldX_val, wordXNN_toNat hop]
  omega

@[simp] theorem fieldNN_wordXNN {op : Nat} (hop : op < 16) (x : RegIdx) (nn : Byte) :
    fieldNN (wordXNN op x nn) = nn := by
  apply BitVec.eq_of_toNat_eq
  rw [fieldNN_toNat, wordXNN_toNat hop]
  omega

@[simp] theorem fieldOp_wordXYN {op n : Nat} (hop : op < 16) (hn : n < 16) (x y : RegIdx) :
    fieldOp (wordXYN op x y n) = op := by
  rw [fieldOp_eq, wordXYN_toNat hop x y hn]
  omega

@[simp] theorem fieldX_wordXYN {op n : Nat} (hop : op < 16) (hn : n < 16) (x y : RegIdx) :
    fieldX (wordXYN op x y n) = x := by
  apply Fin.ext
  rw [fieldX_val, wordXYN_toNat hop x y hn]
  omega

@[simp] theorem fieldY_wordXYN {op n : Nat} (hop : op < 16) (hn : n < 16) (x y : RegIdx) :
    fieldY (wordXYN op x y n) = y := by
  apply Fin.ext
  rw [fieldY_val, wordXYN_toNat hop x y hn]
  omega

@[simp] theorem fieldN_wordXYN {op n : Nat} (hop : op < 16) (hn : n < 16) (x y : RegIdx) :
    fieldN (wordXYN op x y n) = n := by
  rw [fieldN_eq, wordXYN_toNat hop x y hn]
  omega

/-! The words of the four skips. -/

theorem decodeWord_seImm (x : RegIdx) (nn : Byte) : decodeWord (wordXNN 0x3 x nn) = .ok (.seImm x nn) := by
  have hop : 0x3 < 16 := by decide
  simp only [decodeWord, fieldOp_wordXNN hop, fieldX_wordXNN hop, fieldNN_wordXNN hop]

theorem decodeWord_sneImm (x : RegIdx) (nn : Byte) : decodeWord (wordXNN 0x4 x nn) = .ok (.sneImm x nn) := by
  have hop : 0x4 < 16 := by decide
  simp only [decodeWord, fieldOp_wordXNN hop, fieldX_wordXNN hop, fieldNN_wordXNN hop]

theorem decodeWord_seReg (x y : RegIdx) : decodeWord (wordXYN 0x5 x y 0x0) = .ok (.seReg x y) := by
  have hop : 0x5 < 16 := by decide
  have hn : 0x0 < 16 := by decide
  simp only [decodeWord, decodeFamily5, fieldOp_wordXYN hop hn, fieldN_wordXYN hop hn, fieldX_wordXYN hop hn,
    fieldY_wordXYN hop hn]

theorem decodeWord_sneReg (x y : RegIdx) : decodeWord (wordXYN 0x9 x y 0x0) = .ok (.sneReg x y) := by
  have hop : 0x9 < 16 := by decide
  have hn : 0x0 < 16 := by decide
  simp only [decodeWord, decodeFamily9, fieldOp_wordXYN hop hn, fieldN_wordXYN hop hn, fieldX_wordXYN hop hn,
    fieldY_wordXYN hop hn]

/-- In families 0x5 and 0x9 a low nibble that is not 0 is on R108's list (30_encoding.md R106). -/
theorem illegalWord_wordXYN {op n : Nat} (hop : op = 0x5 ∨ op = 0x9) (hpos : 1 ≤ n) (hn : n ≤ 15) (x y : RegIdx) :
    IllegalWord (wordXYN op x y n) := by
  have hop16 : op < 16 := by omega
  have hn16 : n < 16 := by omega
  have hfamily : (wordXYN op x y n).toNat / 4096 = op := by rw [← fieldOp_eq, fieldOp_wordXYN hop16 hn16]
  have hnibble : (wordXYN op x y n).toNat % 16 = n := by rw [← fieldN_eq, fieldN_wordXYN hop16 hn16]
  unfold IllegalWord
  rw [hfamily, hnibble]
  exact .inr (.inl ⟨hop, by omega⟩)

/-! Performing a skip sets `PC` and nothing else (R130). -/

/-- A skip on equality compares the two bytes as numbers. -/
theorem skipIf_beq (s : State) (a b : Byte) :
    s.skipIf (a == b) = s.setPc (if a.toNat = b.toNat then s.pc + 4 else s.pc + 2) := by
  simp only [State.skipIf_eq, beq_iff_eq, BitVec.toNat_inj]

/-- A skip on inequality compares the two bytes as numbers. -/
theorem skipIf_bne (s : State) (a b : Byte) :
    s.skipIf (a != b) = s.setPc (if a.toNat = b.toNat then s.pc + 2 else s.pc + 4) := by
  simp only [State.skipIf_eq, bne_iff_ne, ne_eq, ite_not, BitVec.toNat_inj]

theorem exec_seImm (x : RegIdx) (nn : Byte) (s : State) :
    exec (.seImm x nn) s = .next (s.setPc (if (s.reg x).toNat = nn.toNat then s.pc + 4 else s.pc + 2)) :=
  congrArg _ (skipIf_beq s (s.reg x) nn)

theorem exec_sneImm (x : RegIdx) (nn : Byte) (s : State) :
    exec (.sneImm x nn) s = .next (s.setPc (if (s.reg x).toNat = nn.toNat then s.pc + 2 else s.pc + 4)) :=
  congrArg _ (skipIf_bne s (s.reg x) nn)

theorem exec_seReg (x y : RegIdx) (s : State) :
    exec (.seReg x y) s = .next (s.setPc (if (s.reg x).toNat = (s.reg y).toNat then s.pc + 4 else s.pc + 2)) :=
  congrArg _ (skipIf_beq s (s.reg x) (s.reg y))

theorem exec_sneReg (x y : RegIdx) (s : State) :
    exec (.sneReg x y) s = .next (s.setPc (if (s.reg x).toNat = (s.reg y).toNat then s.pc + 2 else s.pc + 4)) :=
  congrArg _ (skipIf_bne s (s.reg x) (s.reg y))

/-- `5XX0` always skips (R133). -/
theorem exec_seReg_self (x : RegIdx) (s : State) : exec (.seReg x x) s = .next (s.setPc (s.pc + 4)) := by
  rw [exec_seReg, if_pos rfl]

/-- `9XX0` never skips (R134). -/
theorem exec_sneReg_self (x : RegIdx) (s : State) : exec (.sneReg x x) s = .next (s.setPc (s.pc + 2)) := by
  rw [exec_sneReg, if_pos rfl]

/-- Settles O29: the words are format XNN of families 0x3 and 0x4, and each instruction is one `setPc`. -/
theorem skipsOnAnImmediate : Obligations.SkipsOnAnImmediate := by
  unfold Obligations.SkipsOnAnImmediate
  intro s x nn
  exact ⟨decodeWord_seImm x nn, exec_seImm x nn s, decodeWord_sneImm x nn, exec_sneImm x nn s⟩

/-- Settles O30: the words are format XY of families 0x5 and 0x9, whose other low nibbles stand on R108's list; each
instruction is one `setPc`, and a register always equals itself. -/
theorem skipsOnTwoRegisters : Obligations.SkipsOnTwoRegisters := by
  unfold Obligations.SkipsOnTwoRegisters
  intro s x y
  refine ⟨decodeWord_seReg x y, exec_seReg x y s, decodeWord_sneReg x y, exec_sneReg x y s, fun n hpos hn => ⟨?_, ?_⟩,
    exec_seReg_self x s, exec_sneReg_self x s⟩
  · exact decodeWord_of_illegalWord (illegalWord_wordXYN (.inl rfl) hpos hn x y)
  · exact decodeWord_of_illegalWord (illegalWord_wordXYN (.inr rfl) hpos hn x y)

end Sys2Proof.Proofs
end

section
/-! ### Register-immediate instructions (42_immediate.md R141, R142) -/

namespace Sys2Proof.Proofs
open Sys2Proof Sys2Proof.Machine

theorem decodeWord_ldImm (x : RegIdx) (nn : Byte) : decodeWord (wordXNN 0x6 x nn) = .ok (.ldImm x nn) := by
  have hop : 0x6 < 16 := by decide
  simp only [decodeWord, fieldOp_wordXNN hop, fieldX_wordXNN hop, fieldNN_wordXNN hop]

theorem decodeWord_addImm (x : RegIdx) (nn : Byte) : decodeWord (wordXNN 0x7 x nn) = .ok (.addImm x nn) := by
  have hop : 0x7 < 16 := by decide
  simp only [decodeWord, fieldOp_wordXNN hop, fieldX_wordXNN hop, fieldNN_wordXNN hop]

/-- Writing a register and moving on changes that register and `PC` and nothing else. -/
theorem setReg_advance_eq (s : State) (x : RegIdx) (b : Byte) :
    (s.setReg x b).advance = { s with v := s.v.set x.val b, pc := s.pc + 2 } := rfl

/-- The sum of two bytes is their sum as numbers, modulo 256 (R142). -/
theorem byte_add_eq_ofNat_mod (a b : Byte) : a + b = BitVec.ofNat 8 ((a.toNat + b.toNat) % 256) :=
  BitVec.eq_of_toNat_eq (by rw [BitVec.toNat_add, BitVec.toNat_ofNat, Nat.mod_mod])

theorem exec_ldImm (x : RegIdx) (nn : Byte) (s : State) :
    exec (.ldImm x nn) s = .next { s with v := s.v.set x.val nn, pc := s.pc + 2 } :=
  congrArg Host.Outcome.next (setReg_advance_eq s x nn)

theorem exec_addImm (x : RegIdx) (nn : Byte) (s : State) :
    exec (.addImm x nn) s =
      .next { s with v := s.v.set x.val (BitVec.ofNat 8 (((s.reg x).toNat + nn.toNat) % 256)), pc := s.pc + 2 } := by
  rw [← byte_add_eq_ofNat_mod]
  exact congrArg Host.Outcome.next (setReg_advance_eq s x (s.reg x + nn))

/-- Settles O31: the words are format XNN of families 0x6 and 0x7, and each instruction is one register write, of the
immediate or of the byte sum, before `PC` moves on. -/
theorem loadAndAddImmediate : Obligations.LoadAndAddImmediate := by
  unfold Obligations.LoadAndAddImmediate
  intro s x nn
  exact ⟨decodeWord_ldImm x nn, exec_ldImm x nn s, decodeWord_addImm x nn, exec_addImm x nn s⟩

end Sys2Proof.Proofs
end

section
/-! ### Register-register instructions (43_alu.md R152 to R162) -/

namespace Sys2Proof.Proofs
open Sys2Proof Sys2Proof.Machine

/-! The words of family 0x8 (30_encoding.md R103). -/

/-- What family 0x8 makes of the low nibble `n`, it makes of the word with the fields 0x8, `x`, `y` and `n`. -/
theorem decodeWord_family8 {n : Nat} {mk : RegIdx → RegIdx → Instr} (hn : n < 16)
    (hrow : ∀ w, fieldN w = n → decodeFamily8 w = .ok (mk (fieldX w) (fieldY w))) (x y : RegIdx) :
    decodeWord (BitVec.ofNat 16 (0x8000 + n + x.val * 0x100 + y.val * 0x10)) = .ok (mk x y) := by
  have hop : 0x8 < 16 := by decide
  have hword : BitVec.ofNat 16 (0x8000 + n + x.val * 0x100 + y.val * 0x10) = wordXYN 0x8 x y n :=
    congrArg (BitVec.ofNat 16) (by omega)
  have hfamily : decodeFamily8 (wordXYN 0x8 x y n) = .ok (mk x y) := by
    rw [hrow _ (fieldN_wordXYN hop hn x y), fieldX_wordXYN hop hn, fieldY_wordXYN hop hn]
  simp only [hword, decodeWord, fieldOp_wordXYN hop hn, hfamily]

theorem decodeWord_orReg (x y : RegIdx) :
    decodeWord (BitVec.ofNat 16 (0x8001 + x.val * 0x100 + y.val * 0x10)) = .ok (.orReg x y) :=
  decodeWord_family8 (n := 0x1) (by decide) (fun w h => by simp only [decodeFamily8, h]) x y

theorem decodeWord_andReg (x y : RegIdx) :
    decodeWord (BitVec.ofNat 16 (0x8002 + x.val * 0x100 + y.val * 0x10)) = .ok (.andReg x y) :=
  decodeWord_family8 (n := 0x2) (by decide) (fun w h => by simp only [decodeFamily8, h]) x y

theorem decodeWord_xorReg (x y : RegIdx) :
    decodeWord (BitVec.ofNat 16 (0x8003 + x.val * 0x100 + y.val * 0x10)) = .ok (.xorReg x y) :=
  decodeWord_family8 (n := 0x3) (by decide) (fun w h => by simp only [decodeFamily8, h]) x y

theorem decodeWord_addReg (x y : RegIdx) :
    decodeWord (BitVec.ofNat 16 (0x8004 + x.val * 0x100 + y.val * 0x10)) = .ok (.addReg x y) :=
  decodeWord_family8 (n := 0x4) (by decide) (fun w h => by simp only [decodeFamily8, h]) x y

theorem decodeWord_subReg (x y : RegIdx) :
    decodeWord (BitVec.ofNat 16 (0x8005 + x.val * 0x100 + y.val * 0x10)) = .ok (.subReg x y) :=
  decodeWord_family8 (n := 0x5) (by decide) (fun w h => by simp only [decodeFamily8, h]) x y

theorem decodeWord_shr (x y : RegIdx) :
    decodeWord (BitVec.ofNat 16 (0x8006 + x.val * 0x100 + y.val * 0x10)) = .ok (.shr x y) :=
  decodeWord_family8 (n := 0x6) (by decide) (fun w h => by simp only [decodeFamily8, h]) x y

theorem decodeWord_subnReg (x y : RegIdx) :
    decodeWord (BitVec.ofNat 16 (0x8007 + x.val * 0x100 + y.val * 0x10)) = .ok (.subnReg x y) :=
  decodeWord_family8 (n := 0x7) (by decide) (fun w h => by simp only [decodeFamily8, h]) x y

theorem decodeWord_shl (x y : RegIdx) :
    decodeWord (BitVec.ofNat 16 (0x800E + x.val * 0x100 + y.val * 0x10)) = .ok (.shl x y) :=
  decodeWord_family8 (n := 0xE) (by decide) (fun w h => by simp only [decodeFamily8, h]) x y

/-! The results as numbers (the sum is `byte_add_eq_ofNat_mod`). -/

/-- The difference of two bytes is their difference as numbers, modulo 256 (R159, R161). -/
theorem byte_sub_eq_ofNat_mod (a b : Byte) : a - b = BitVec.ofNat 8 ((256 + a.toNat - b.toNat) % 256) := by
  apply BitVec.eq_of_toNat_eq
  rw [BitVec.toNat_sub, BitVec.toNat_ofNat]
  omega

/-- A right shift by one halves (R160). -/
theorem byte_ushiftRight_one_eq_ofNat (a : Byte) : a >>> 1 = BitVec.ofNat 8 (a.toNat / 2) := by
  apply BitVec.eq_of_toNat_eq
  rw [BitVec.toNat_ushiftRight, BitVec.toNat_ofNat, Nat.shiftRight_eq_div_pow]
  omega

/-- A left shift by one doubles, modulo 256 (R162). -/
theorem byte_shiftLeft_one_eq_ofNat_mod (a : Byte) : a <<< 1 = BitVec.ofNat 8 (a.toNat * 2 % 256) := by
  apply BitVec.eq_of_toNat_eq
  rw [BitVec.toNat_shiftLeft, BitVec.toNat_ofNat, Nat.shiftLeft_eq]
  omega

/-! The flags as numbers. -/

@[simp] theorem flagByte_decide (p : Prop) [Decidable p] : flagByte (decide p) = if p then 1 else 0 := by
  simp only [flagByte, decide_eq_true_eq]

theorem flagByte_eq_ofNat (b : Bool) : flagByte b = BitVec.ofNat 8 b.toNat := by
  cases b <;> rfl

theorem carryFlag_eq_ite (a b : Byte) : carryFlag a b = if a.toNat + b.toNat > 255 then 1 else 0 :=
  flagByte_decide _

theorem noBorrowFlag_eq_ite (a b : Byte) : noBorrowFlag a b = if a.toNat > b.toNat then 1 else 0 :=
  flagByte_decide _

/-- The carry is bit 8 of the exact sum (R158). -/
theorem carryFlag_eq_ofNat (a b : Byte) : carryFlag a b = BitVec.ofNat 8 ((a.toNat + b.toNat) / 256) := by
  rw [carryFlag_eq_ite]
  split
  · rw [show (a.toNat + b.toNat) / 256 = 1 by omega]; rfl
  · rw [show (a.toNat + b.toNat) / 256 = 0 by omega]; rfl

theorem noBorrowFlag_eq_ofNat (a b : Byte) :
    noBorrowFlag a b = BitVec.ofNat 8 (if a.toNat > b.toNat then 1 else 0) := by
  rw [noBorrowFlag_eq_ite]
  split <;> rfl

/-- The bit a right shift shifts out is the remainder (R160). -/
theorem lowBitFlag_eq_ofNat (a : Byte) : lowBitFlag a = BitVec.ofNat 8 (a.toNat % 2) := by
  rw [lowBitFlag, flagByte_eq_ofNat, BitVec.getLsbD, Nat.toNat_testBit, Nat.pow_zero, Nat.div_one]

/-- The bit a left shift shifts out is the top bit, a byte being less than 256 (R162). -/
theorem highBitFlag_eq_ofNat (a : Byte) : highBitFlag a = BitVec.ofNat 8 (a.toNat / 128) := by
  rw [highBitFlag, flagByte_eq_ofNat, BitVec.getLsbD, Nat.toNat_testBit]
  congr 1
  omega

/-! The logic operations write one register (R153 to R155). -/

/-- An instruction that is one write of `b` to `V[x]` leaves `b`'s bits there and touches nothing else but `PC`. -/
theorem next_of_exec_setReg {i : Instr} {s : State} {x : RegIdx} {b : Byte} {bit : Nat → Bool}
    (hexec : exec i s = .next (s.setReg x b).advance) (hbit : ∀ j, b.getLsbD j = bit j) :
    ∃ t, exec i s = .next t ∧ (∀ j, (t.reg x).getLsbD j = bit j) ∧ (∀ r, r ≠ x → t.reg r = s.reg r) ∧
      t = { s with v := t.v, pc := s.pc + 2 } := by
  refine ⟨_, hexec, fun j => ?_, fun r hr => ?_, rfl⟩
  · rw [State.reg_advance, State.reg_setReg, if_pos rfl, hbit]
  · rw [State.reg_advance, State.reg_setReg, if_neg hr]

theorem exec_orReg (x y : RegIdx) (s : State) :
    exec (.orReg x y) s = .next (s.setReg x (s.reg x ||| s.reg y)).advance := rfl

theorem exec_andReg (x y : RegIdx) (s : State) :
    exec (.andReg x y) s = .next (s.setReg x (s.reg x &&& s.reg y)).advance := rfl

theorem exec_xorReg (x y : RegIdx) (s : State) :
    exec (.xorReg x y) s = .next (s.setReg x (s.reg x ^^^ s.reg y)).advance := rfl

/-- Settles O34: each word is format XY of family 0x8, and each instruction is one register write, whose bits are the
bits of the two operands combined. -/
theorem logicOperationsTouchNoFlag : Obligations.LogicOperationsTouchNoFlag := by
  unfold Obligations.LogicOperationsTouchNoFlag
  intro s x y
  exact ⟨
    decodeWord_orReg x y, next_of_exec_setReg (exec_orReg x y s) fun _ => BitVec.getLsbD_or,
    decodeWord_andReg x y, next_of_exec_setReg (exec_andReg x y s) fun _ => BitVec.getLsbD_and,
    decodeWord_xorReg x y, next_of_exec_setReg (exec_xorReg x y s) fun _ => BitVec.getLsbD_xor⟩

/-! The five flag-writing instructions write a result, then a flag (R152). -/

/-- Writing a result and a flag and moving on changes `V[x]`, then `V[15]`, and `PC`, and nothing else. -/
theorem setResultFlag_advance_eq (s : State) (x : RegIdx) (b f : Byte) :
    (s.setResultFlag x b f).advance = { s with v := (s.v.set x.val b).set 15 f, pc := s.pc + 2 } := rfl

theorem exec_addReg (x y : RegIdx) (s : State) :
    exec (.addReg x y) s =
      .next (s.setResultFlag x (BitVec.ofNat 8 (((s.reg x).toNat + (s.reg y).toNat) % 256))
        (carryFlag (s.reg x) (s.reg y))).advance := by
  rw [← byte_add_eq_ofNat_mod]
  rfl

theorem exec_subReg (x y : RegIdx) (s : State) :
    exec (.subReg x y) s =
      .next (s.setResultFlag x (BitVec.ofNat 8 ((256 + (s.reg x).toNat - (s.reg y).toNat) % 256))
        (noBorrowFlag (s.reg x) (s.reg y))).advance := by
  rw [← byte_sub_eq_ofNat_mod]
  rfl

theorem exec_subnReg (x y : RegIdx) (s : State) :
    exec (.subnReg x y) s =
      .next (s.setResultFlag x (BitVec.ofNat 8 ((256 + (s.reg y).toNat - (s.reg x).toNat) % 256))
        (noBorrowFlag (s.reg y) (s.reg x))).advance := by
  rw [← byte_sub_eq_ofNat_mod]
  rfl

theorem exec_shr (x y : RegIdx) (s : State) :
    exec (.shr x y) s =
      .next (s.setResultFlag x (BitVec.ofNat 8 ((s.reg x).toNat / 2))
        (BitVec.ofNat 8 ((s.reg x).toNat % 2))).advance := by
  rw [← byte_ushiftRight_one_eq_ofNat, ← lowBitFlag_eq_ofNat]
  rfl

theorem exec_shl (x y : RegIdx) (s : State) :
    exec (.shl x y) s =
      .next (s.setResultFlag x (BitVec.ofNat 8 ((s.reg x).toNat * 2 % 256))
        (BitVec.ofNat 8 ((s.reg x).toNat / 128))).advance := by
  rw [← byte_shiftLeft_one_eq_ofNat_mod, ← highBitFlag_eq_ofNat]
  rfl

/-- Settles O35: the word is format XY of family 0x8, the byte sum is the sum modulo 256, and the carry flag asks whether
the exact sum exceeds 255. -/
theorem addSetsTheCarryFlag : Obligations.AddSetsTheCarryFlag := by
  unfold Obligations.AddSetsTheCarryFlag
  intro s x y
  refine ⟨decodeWord_addReg x y, ?_⟩
  rw [exec_addReg, carryFlag_eq_ite, setResultFlag_advance_eq]

/-- Settles O36: the words are format XY of family 0x8, the byte difference is the difference modulo 256, and the flag
compares minuend and subtrahend strictly; the two instructions differ in the order of the operands. -/
theorem subtractionsSetNoBorrowStrictly : Obligations.SubtractionsSetNoBorrowStrictly := by
  unfold Obligations.SubtractionsSetNoBorrowStrictly
  intro s x y
  refine ⟨decodeWord_subReg x y, ?_, decodeWord_subnReg x y, ?_⟩
  · rw [exec_subReg, noBorrowFlag_eq_ite, setResultFlag_advance_eq]
  · rw [exec_subnReg, noBorrowFlag_eq_ite, setResultFlag_advance_eq]

/-- Settles O37: the words are format XY of family 0x8, and halving and doubling shift out the remainder by 2 and the
quotient by 128. -/
theorem shiftsWriteTheBitShiftedOut : Obligations.ShiftsWriteTheBitShiftedOut := by
  unfold Obligations.ShiftsWriteTheBitShiftedOut
  intro s x y
  refine ⟨decodeWord_shr x y, ?_, decodeWord_shl x y, ?_⟩
  · rw [exec_shr, setResultFlag_advance_eq]
  · rw [exec_shl, setResultFlag_advance_eq]

/-- Each of the five writes its row's result, then its row's flag, and both numbers are bytes. -/
theorem exec_of_mem_flagInstrs {s : State} {x y : RegIdx} {i : Instr} {result flag : Nat}
    (h : (i, result, flag) ∈ flagInstrs s x y) :
    exec i s = .next (s.setResultFlag x (BitVec.ofNat 8 result) (BitVec.ofNat 8 flag)).advance ∧
      result < 256 ∧ flag < 256 := by
  simp only [flagInstrs, List.mem_cons, List.not_mem_nil, or_false, Prod.mk.injEq] at h
  obtain ⟨rfl, rfl, rfl⟩ | ⟨rfl, rfl, rfl⟩ | ⟨rfl, rfl, rfl⟩ | ⟨rfl, rfl, rfl⟩ | ⟨rfl, rfl, rfl⟩ := h
  · exact ⟨by rw [exec_addReg, carryFlag_eq_ofNat], by omega, by omega⟩
  · exact ⟨by rw [exec_subReg, noBorrowFlag_eq_ofNat], by omega, by split <;> decide⟩
  · exact ⟨exec_shr x y s, by omega, by omega⟩
  · exact ⟨by rw [exec_subnReg, noBorrowFlag_eq_ofNat], by omega, by split <;> decide⟩
  · exact ⟨exec_shl x y s, by omega, by omega⟩

/-- Settles O38: each of the five is one `setResultFlag` of its row's two numbers, so `V[15]` holds the flag, `V[x]` the
result unless `x` is 15, and every other register what it held. -/
theorem flagIsComputedFirstAndWrittenLast : Obligations.FlagIsComputedFirstAndWrittenLast := by
  unfold Obligations.FlagIsComputedFirstAndWrittenLast
  intro s x y i result flag hrow
  obtain ⟨hexec, hresult, hflag⟩ := exec_of_mem_flagInstrs hrow
  refine ⟨_, hexec, ?_, fun hx => ?_, fun r hrx hr => ?_⟩
  · rw [State.reg_advance, State.reg_setResultFlag, if_pos (show 15 = vf from rfl), BitVec.toNat_ofNat,
      Nat.mod_eq_of_lt hflag]
  · rw [State.reg_advance, State.reg_setResultFlag, if_neg (show ¬ x = vf from hx), if_pos rfl, BitVec.toNat_ofNat,
      Nat.mod_eq_of_lt hresult]
  · rw [State.reg_advance, State.reg_setResultFlag, if_neg (show ¬ r = vf from hr), if_neg hrx]

end Sys2Proof.Proofs
end

section
/-! ### Index loads (44_index_memory.md R171, R175) -/

namespace Sys2Proof.Proofs
open Sys2Proof Sys2Proof.Machine

/-! The fields of a word of format X (30_encoding.md R91), and the words of family 0xF (R105). -/

@[simp] theorem fieldOp_wordX {op code : Nat} (hop : op < 16) (hcode : code < 256) (x : RegIdx) :
    fieldOp (wordX op x code) = op := by
  rw [fieldOp_eq, wordX_toNat hop x hcode]
  omega

@[simp] theorem fieldX_wordX {op code : Nat} (hop : op < 16) (hcode : code < 256) (x : RegIdx) :
    fieldX (wordX op x code) = x := by
  apply Fin.ext
  rw [fieldX_val, wordX_toNat hop x hcode]
  omega

@[simp] theorem fieldNN_toNat_wordX {op code : Nat} (hop : op < 16) (hcode : code < 256) (x : RegIdx) :
    (fieldNN (wordX op x code)).toNat = code := by
  rw [fieldNN_toNat, wordX_toNat hop x hcode]
  omega

/-- What family 0xF makes of the low byte `code`, it makes of the word with the fields 0xF, `x` and `code`. -/
theorem decodeWord_familyF {code : Nat} {mk : RegIdx → Instr} (hcode : code < 256)
    (hrow : ∀ w, (fieldNN w).toNat = code → decodeFamilyF w = .ok (mk (fieldX w))) (x : RegIdx) :
    decodeWord (BitVec.ofNat 16 (0xF000 + code + x.val * 0x100)) = .ok (mk x) := by
  have hop : 0xF < 16 := by decide
  have hword : BitVec.ofNat 16 (0xF000 + code + x.val * 0x100) = wordX 0xF x code :=
    congrArg (BitVec.ofNat 16) (by omega)
  have hfamily : decodeFamilyF (wordX 0xF x code) = .ok (mk x) := by
    rw [hrow _ (fieldNN_toNat_wordX hop hcode x), fieldX_wordX hop hcode]
  simp only [hword, decodeWord, fieldOp_wordX hop hcode, hfamily]

theorem decodeWord_ldI (nnn : Addr12) : decodeWord (wordNNN 0xA nnn) = .ok (.ldI nnn) := by
  have hop : 0xA < 16 := by decide
  simp only [decodeWord, fieldOp_wordNNN hop, fieldNNN_wordNNN hop]

theorem decodeWord_ldF (x : RegIdx) : decodeWord (BitVec.ofNat 16 (0xF029 + x.val * 0x100)) = .ok (.ldF x) :=
  decodeWord_familyF (code := 0x29) (by decide) (fun w h => by simp only [decodeFamilyF, h]) x

/-! The addresses as numbers. -/

/-- A 12-bit address is zero-extended (30_encoding.md R92). -/
@[simp] theorem absAddr_toNat (nnn : Addr12) : (absAddr nnn).toNat = nnn.toNat :=
  BitVec.toNat_setWidth_of_le (by decide)

/-- Five times a byte is at most 1275, so the glyph address does not wrap (R175). -/
@[simp] theorem glyphAddr_toNat (b : Byte) : (glyphAddr b).toNat = b.toNat * 5 := by
  rw [glyphAddr, Config.glyphSize, BitVec.toNat_ofNat]
  omega

/-! The two instructions are one write of `I`. -/

/-- An instruction that is one write of `a` to `I` leaves `a`'s number there and touches nothing else but `PC`. -/
theorem next_of_exec_setI {i : Instr} {s : State} {a : Word} {n : Nat} (hexec : exec i s = .next (s.setI a).advance)
    (ha : a.toNat = n) :
    ∃ t, exec i s = .next t ∧ t.i.toNat = n ∧ t = { s with i := t.i, pc := s.pc + 2 } :=
  ⟨_, hexec, ha, rfl⟩

theorem exec_ldI (nnn : Addr12) (s : State) : exec (.ldI nnn) s = .next (s.setI (absAddr nnn)).advance := rfl

theorem exec_ldF (x : RegIdx) (s : State) : exec (.ldF x) s = .next (s.setI (glyphAddr (s.reg x))).advance := rfl

/-- Settles O39: the words are format NNN of family 0xA and format X of family 0xF, and each instruction is one write of
`I`, of the zero-extended address or of five times the whole of `V[x]`. -/
theorem loadIndexAndGlyphAddress : Obligations.LoadIndexAndGlyphAddress := by
  unfold Obligations.LoadIndexAndGlyphAddress
  intro s x nnn
  exact ⟨
    decodeWord_ldI nnn, next_of_exec_setI (exec_ldI nnn s) (absAddr_toNat nnn),
    decodeWord_ldF x, next_of_exec_setI (exec_ldF x s) (glyphAddr_toNat (s.reg x))⟩

end Sys2Proof.Proofs
end

section
/-! ### Clearing the screen (45_display.md R190) -/

namespace Sys2Proof.Proofs
open Sys2Proof Sys2Proof.Machine

theorem decodeWord_cls : decodeWord 0x00E0 = .ok .cls := rfl

theorem exec_cls (s : State) : exec .cls s = .next s.clearFb.markDirty.advance := rfl

/-- After `CLS` no pixel is left: only `clearFb` touches the framebuffer. -/
theorem pixel_clearFb_markDirty_advance (s : State) (row : Fin 32) (col : Fin 64) :
    s.clearFb.markDirty.advance.pixel row col = false := by
  rw [State.pixel_advance, State.pixel_markDirty, State.pixel_clearFb]

/-- Settles O45: `CLS` clears the framebuffer, sets `dirty` and moves `PC` on, and these three writes are all it does. -/
theorem clearScreenZeroesEveryPixel : Obligations.ClearScreenZeroesEveryPixel := by
  unfold Obligations.ClearScreenZeroesEveryPixel
  exact ⟨decodeWord_cls, fun s => ⟨_, exec_cls s, pixel_clearFb_markDirty_advance s, rfl⟩⟩

end Sys2Proof.Proofs
end

section
/-! ### The rest of a cycle, seen from the instruction (60_exceptions.md R221 phases 3 to 5) -/

namespace Sys2Proof.Proofs
open Sys2Proof Sys2Proof.Machine

/-- When the decoded instruction completes from the sampled state, the step is that and the rest of the cycle (R225). -/
theorem step_of_exec {s t : State} {w : Word} {i : Instr} (h : s.AboutToRun w) (hw : decodeWord w = .ok i)
    (hexec : exec i s.sampleKeys = .next t) : step s = .next t.endCycle := by
  have hfetch : s.sampleKeys.fetch = .ok w := fetch_of_aboutToRun h
  obtain ⟨hrun, hquit, -, -⟩ := h
  simp only [step_running hrun hquit, State.execCycle, hfetch, hw, hexec]

section
variable {t : State} (hrun : t.run = .running)
include hrun

theorem endCycle_run : t.endCycle.run = .running := by rw [State.endCycle_eq hrun, hrun]
theorem endCycle_v : t.endCycle.v = t.v := by rw [State.endCycle_eq hrun]
theorem endCycle_reg (x : RegIdx) : t.endCycle.reg x = t.reg x := by rw [State.reg, endCycle_v hrun, State.reg]
theorem endCycle_pc : t.endCycle.pc = t.pc := by rw [State.endCycle_eq hrun]
theorem endCycle_k : t.endCycle.k = t.k := by rw [State.endCycle_eq hrun]
theorem endCycle_presentO : t.endCycle.presentO = t.dirty := by rw [State.endCycle_eq hrun]

/-- The tick takes one off `DT`, and 0 stays 0 (R241). -/
theorem endCycle_dt_toNat : t.endCycle.dt.toNat = if t.portsIn.tick then t.dt.toNat - 1 else t.dt.toNat := by
  rw [State.endCycle_eq hrun, ← tickByte_toNat, ← apply_ite BitVec.toNat]

/-- The tick takes one off `ST`, and 0 stays 0 (R241). -/
theorem endCycle_st_toNat : t.endCycle.st.toNat = if t.portsIn.tick then t.st.toNat - 1 else t.st.toNat := by
  rw [State.endCycle_eq hrun, ← tickByte_toNat, ← apply_ite BitVec.toNat]

/-- The tone follows `ST` as the tick left it (R245). -/
theorem endCycle_toneO : t.endCycle.toneO = decide (t.endCycle.st ≠ 0) := by
  rw [State.endCycle_eq hrun]
  exact (decide_not ..).symm

end

end Sys2Proof.Proofs
end

section
/-! ### The timer instructions (46_keypad_timers.md R203, R205, R206) -/

namespace Sys2Proof.Proofs
open Sys2Proof Sys2Proof.Machine

theorem decodeWord_ldVxDT (x : RegIdx) : decodeWord (BitVec.ofNat 16 (0xF007 + x.val * 0x100)) = .ok (.ldVxDT x) :=
  decodeWord_familyF (code := 0x07) (by decide) (fun w h => by simp only [decodeFamilyF, h]) x

theorem decodeWord_ldDTVx (x : RegIdx) : decodeWord (BitVec.ofNat 16 (0xF015 + x.val * 0x100)) = .ok (.ldDTVx x) :=
  decodeWord_familyF (code := 0x15) (by decide) (fun w h => by simp only [decodeFamilyF, h]) x

theorem decodeWord_ldSTVx (x : RegIdx) : decodeWord (BitVec.ofNat 16 (0xF018 + x.val * 0x100)) = .ok (.ldSTVx x) :=
  decodeWord_familyF (code := 0x18) (by decide) (fun w h => by simp only [decodeFamilyF, h]) x

theorem exec_ldVxDT (x : RegIdx) (s : State) : exec (.ldVxDT x) s = .next (s.setReg x s.dt).advance := rfl

theorem exec_ldDTVx (x : RegIdx) (s : State) : exec (.ldDTVx x) s = .next (s.setDt (s.reg x)).advance := rfl

theorem exec_ldSTVx (x : RegIdx) (s : State) : exec (.ldSTVx x) s = .next (s.setSt (s.reg x)).advance := rfl

/-- Settles O52: the instruction is one register write, of `DT` as earlier cycles left it, and the tick of the rest of
the cycle changes no register. -/
theorem getDelayTimerReadsTheValueBeforeTheTick : Obligations.GetDelayTimerReadsTheValueBeforeTheTick := by
  unfold Obligations.GetDelayTimerReadsTheValueBeforeTheTick
  refine ⟨fun s x => ⟨decodeWord_ldVxDT x, ?_⟩, fun s x hs => ?_⟩
  · rw [exec_ldVxDT, setReg_advance_eq]
  · have hrun : (s.sampleKeys.setReg x s.dt).advance.run = .running := hs.1
    refine ⟨_, step_of_exec hs (decodeWord_ldVxDT x) (exec_ldVxDT x s.sampleKeys), endCycle_run hrun, ?_,
      endCycle_dt_toNat hrun⟩
    rw [State.sampleKeys_dt, endCycle_reg hrun, State.reg_advance, State.reg_setReg, if_pos rfl]

/-- Settles O53: each instruction is one write of its timer, and what the rest of the cycle ticks, and the tone follows,
is the value written. -/
theorem setTimersThenTick : Obligations.SetTimersThenTick := by
  unfold Obligations.SetTimersThenTick
  refine ⟨fun s x => ⟨decodeWord_ldDTVx x, ?_, decodeWord_ldSTVx x, ?_⟩, fun s x hs => ?_, fun s x hs => ?_⟩
  · rw [exec_ldDTVx]
    rfl
  · rw [exec_ldSTVx]
    rfl
  · have hrun : (s.sampleKeys.setDt (s.reg x)).advance.run = .running := hs.1
    exact ⟨_, step_of_exec hs (decodeWord_ldDTVx x) (exec_ldDTVx x s.sampleKeys), endCycle_run hrun,
      endCycle_dt_toNat hrun⟩
  · have hrun : (s.sampleKeys.setSt (s.reg x)).advance.run = .running := hs.1
    exact ⟨_, step_of_exec hs (decodeWord_ldSTVx x) (exec_ldSTVx x s.sampleKeys), endCycle_run hrun,
      endCycle_st_toNat hrun, endCycle_toneO hrun⟩

end Sys2Proof.Proofs
end

section
/-! ### The key wait (46_keypad_timers.md R204) -/

namespace Sys2Proof.Proofs
open Sys2Proof Sys2Proof.Machine

theorem allIdx_eq_finRange : allIdx = List.finRange 16 := rfl

theorem firstKey_eq_none {k : BitVec 16} (h : ∀ j : Fin 16, k.getLsbD j.val = false) : firstKey k = none :=
  List.find?_eq_none.mpr fun j _ => Bool.eq_false_iff.mp (h j)

/-- The scan goes up from key 0, so what it finds is the least key that is down. -/
theorem firstKey_eq_some {k : BitVec 16} {j : Fin 16} (hdown : k.getLsbD j.val = true)
    (hleast : ∀ l : Fin 16, l < j → k.getLsbD l.val = false) : firstKey k = some j := by
  rw [firstKey, allIdx_eq_finRange, List.find?_eq_some_iff_getElem]
  refine ⟨hdown, j.val, by simp only [List.length_finRange, j.isLt], List.getElem_finRange _, fun l hl => ?_⟩
  have hup : k.getLsbD l = false := hleast ⟨l, Nat.lt_trans hl j.isLt⟩ hl
  simp only [List.getElem_finRange, Fin.cast_mk, hup, Bool.not_false]

theorem decodeWord_ldVxK (x : RegIdx) : decodeWord (BitVec.ofNat 16 (0xF00A + x.val * 0x100)) = .ok (.ldVxK x) :=
  decodeWord_familyF (code := 0x0A) (by decide) (fun w h => by simp only [decodeFamilyF, h]) x

theorem exec_ldVxK_of_no_key {s : State} (x : RegIdx) (h : ∀ j : Fin 16, s.k.getLsbD j.val = false) :
    exec (.ldVxK x) s = .next s := by
  simp only [exec, execLdVxK, firstKey_eq_none h]

theorem exec_ldVxK_of_least_key {s : State} (x : RegIdx) {j : Fin 16} (hdown : s.k.getLsbD j.val = true)
    (hleast : ∀ l : Fin 16, l < j → s.k.getLsbD l.val = false) :
    exec (.ldVxK x) s = .next { s with v := s.v.set x.val (BitVec.ofNat 8 j.val), pc := s.pc + 2 } := by
  simp only [exec, execLdVxK, firstKey_eq_some hdown hleast, setReg_advance_eq]

/-- Settles O54: the scan finds no key or the least one that is down; with none down the instruction leaves the sampled
state as it is, and the rest of the cycle runs on it; a quit request halts before the fetch. -/
theorem keyWaitTakesTheLowestKeyDown : Obligations.KeyWaitTakesTheLowestKeyDown := by
  unfold Obligations.KeyWaitTakesTheLowestKeyDown
  refine ⟨fun s x => ⟨decodeWord_ldVxK x, exec_ldVxK_of_no_key x, fun j => exec_ldVxK_of_least_key x⟩,
    fun s x hs hkeys => ?_, fun s hrun hquit => ⟨_, step_quit hrun hquit, rfl, rfl⟩⟩
  have hrun : s.sampleKeys.run = .running := hs.1
  have hnone (j : Fin 16) : s.sampleKeys.k.getLsbD j.val = false := by
    rw [State.sampleKeys_k, hkeys]
    exact BitVec.getLsbD_zero
  exact ⟨_, step_of_exec hs (decodeWord_ldVxK x) (exec_ldVxK_of_no_key x hnone), endCycle_run hrun, endCycle_pc hrun,
    endCycle_v hrun, (endCycle_k hrun).trans hkeys, endCycle_dt_toNat hrun, endCycle_st_toNat hrun,
    endCycle_presentO hrun, endCycle_toneO hrun⟩

end Sys2Proof.Proofs
end

section
/-! ### The machine cycle (60_exceptions.md R222, R245) -/

namespace Sys2Proof.Proofs
open Sys2Proof Sys2Proof.Machine

/-- A running cycle without a quit request ends in the rest of a cycle after an instruction that completed, or in a
fault; both start from the sampled keys (R221, R232). -/
theorem step_completesOrRaises {s : State} (hrun : s.run = .running) (hquit : s.portsIn.quit = false) :
    (∃ t, SameControl s.sampleKeys t ∧ step s = .next t.endCycle) ∨
      ∃ kind word addr, step s = .next (s.sampleKeys.raise kind word addr).consumeInput := by
  have raised (kind : FaultKind) (word : Option Word) (addr : Option Nat) :
      (s.sampleKeys.raise kind word addr).endCycle = (s.sampleKeys.raise kind word addr).consumeInput :=
    State.endCycle_halted (State.raise_run ..)
  rcases step_cases hrun hquit with ⟨a, -, hstep⟩ | ⟨w, why, -, -, hstep⟩ | ⟨w, i, t, -, -, hexec, hstep⟩
  · exact .inr ⟨_, _, _, hstep.trans (congrArg _ (raised ..))⟩
  · exact .inr ⟨_, _, _, hstep.trans (congrArg _ (raised ..))⟩
  · rcases exec_completesOrRaises i s.sampleKeys with ⟨u, hu, hcontrol⟩ | ⟨kind, addr, hfault⟩
    · obtain rfl : u = t := Host.Outcome.next.inj (hu.symm.trans hexec)
      exact .inl ⟨u, hcontrol, hstep⟩
    · obtain rfl : s.sampleKeys.raise kind (some (encode i)) addr = t :=
        Host.Outcome.next.inj (hfault.symm.trans hexec)
      exact .inr ⟨_, _, _, hstep.trans (congrArg _ (raised ..))⟩

/-- Performing an instruction always answers a next state, a fault among them. -/
theorem exists_exec_eq_next (i : Instr) (s : State) : ∃ t, exec i s = .next t := by
  rcases exec_completesOrRaises i s with ⟨t, ht, -⟩ | ⟨kind, addr, hfault⟩
  · exact ⟨t, ht⟩
  · exact ⟨_, hfault⟩

/-- After a running cycle that did not end in a fault, `K` holds the sample. -/
theorem step_k {s t : State} (hrun : s.run = .running) (hstep : step s = .next t)
    (hend : t.run = .running ∨ s.portsIn.quit = true) : t.k = s.portsIn.keys := by
  cases hquit : s.portsIn.quit with
  | true =>
    obtain rfl : s.sampleKeys.quitCycle = t := Host.Outcome.next.inj ((step_quit hrun hquit).symm.trans hstep)
    rfl
  | false =>
    rcases step_completesOrRaises hrun hquit with ⟨u, hcontrol, hu⟩ | ⟨kind, word, addr, hfault⟩
    · obtain rfl : u.endCycle = t := Host.Outcome.next.inj (hu.symm.trans hstep)
      exact (endCycle_k (hcontrol.run.trans hrun)).trans hcontrol.k
    · obtain rfl := Host.Outcome.next.inj (hfault.symm.trans hstep)
      simp [hquit] at hend

/-- The sample overwrites `K`, and a running cycle starts with it. -/
theorem step_with_k {s : State} (k : BitVec 16) (hrun : s.run = .running) : step { s with k := k } = step s := by
  have hsampled : State.sampleKeys { s with k := k } = s.sampleKeys := rfl
  cases hquit : s.portsIn.quit with
  | true => rw [step_quit hrun hquit, step_quit (s := { s with k := k }) hrun hquit, hsampled]
  | false => rw [step_running hrun hquit, step_running (s := { s with k := k }) hrun hquit, hsampled]

/-- Settles O13: what a running cycle does is said of `sampleKeys`, which overwrites `K`; of what follows, only a fault
writes `K` again. -/
theorem keysAreSampledAtTheStartOfTheCycle : Obligations.KeysAreSampledAtTheStartOfTheCycle := by
  unfold Obligations.KeysAreSampledAtTheStartOfTheCycle
  refine ⟨fun s t => step_k, fun s w i hs hw => ?_, fun s => step_with_k⟩
  obtain ⟨t, hexec⟩ := exists_exec_eq_next i s.sampleKeys
  exact ⟨t, hexec, step_of_exec hs hw hexec⟩

/-- Settles O14: the tone follows `ST` at the end of a cycle that completes, and is low in the three other cycles, of
which the first starts halted and the other two end halted: a halted cycle, a quit request and a fault. -/
theorem toneSoundsExactlyWhenTheSoundTimerIsNonzero : Obligations.ToneSoundsExactlyWhenTheSoundTimerIsNonzero := by
  unfold Obligations.ToneSoundsExactlyWhenTheSoundTimerIsNonzero
  intro s t hstep
  cases hrun : s.run with
  | halted =>
    obtain rfl := Host.Outcome.next.inj ((step_halted hrun).symm.trans hstep)
    simp
  | running =>
    cases hquit : s.portsIn.quit with
    | true =>
      obtain rfl := Host.Outcome.next.inj ((step_quit hrun hquit).symm.trans hstep)
      simp
    | false =>
      rcases step_completesOrRaises hrun hquit with ⟨u, hcontrol, hu⟩ | ⟨kind, word, addr, hfault⟩
      · obtain rfl := Host.Outcome.next.inj (hu.symm.trans hstep)
        have hurun : u.run = .running := hcontrol.run.trans hrun
        simp [endCycle_toneO hurun, endCycle_run hurun]
      · obtain rfl := Host.Outcome.next.inj (hfault.symm.trans hstep)
        simp

end Sys2Proof.Proofs
end

section
/-! ### The instruction words (30_encoding.md R91, R94, R100) -/

namespace Sys2Proof.Proofs
open Sys2Proof Sys2Proof.Machine

/-! The words of the instructions that have no lemma yet. -/

theorem decodeWord_ret : decodeWord 0x00EE = .ok .ret := rfl

theorem decodeWord_call (nnn : Addr12) : decodeWord (wordNNN 0x2 nnn) = .ok (.call nnn) := by
  have hop : 0x2 < 16 := by decide
  simp only [decodeWord, fieldOp_wordNNN hop, fieldNNN_wordNNN hop]

theorem decodeWord_jpV0 (nnn : Addr12) : decodeWord (wordNNN 0xB nnn) = .ok (.jpV0 nnn) := by
  have hop : 0xB < 16 := by decide
  simp only [decodeWord, fieldOp_wordNNN hop, fieldNNN_wordNNN hop]

theorem decodeWord_rnd (x : RegIdx) (nn : Byte) : decodeWord (wordXNN 0xC x nn) = .ok (.rnd x nn) := by
  have hop : 0xC < 16 := by decide
  simp only [decodeWord, fieldOp_wordXNN hop, fieldX_wordXNN hop, fieldNN_wordXNN hop]

theorem decodeWord_drw (x y : RegIdx) {n : Nat} (hn : n < 16) : decodeWord (wordXYN 0xD x y n) = .ok (.drw x y n) := by
  have hop : 0xD < 16 := by decide
  simp only [decodeWord, fieldOp_wordXYN hop hn, fieldX_wordXYN hop hn, fieldY_wordXYN hop hn, fieldN_wordXYN hop hn]

theorem decodeWord_ldReg (x y : RegIdx) :
    decodeWord (BitVec.ofNat 16 (0x8000 + x.val * 0x100 + y.val * 0x10)) = .ok (.ldReg x y) :=
  decodeWord_family8 (n := 0x0) (by decide) (fun w h => by simp only [decodeFamily8, h]) x y

/-- What family 0xE makes of the low byte `code`, it makes of the word with the fields 0xE, `x` and `code` (R104). -/
theorem decodeWord_familyE {code : Nat} {mk : RegIdx → Instr} (hcode : code < 256)
    (hrow : ∀ w, (fieldNN w).toNat = code → decodeFamilyE w = .ok (mk (fieldX w))) (x : RegIdx) :
    decodeWord (BitVec.ofNat 16 (0xE000 + code + x.val * 0x100)) = .ok (mk x) := by
  have hop : 0xE < 16 := by decide
  have hword : BitVec.ofNat 16 (0xE000 + code + x.val * 0x100) = wordX 0xE x code :=
    congrArg (BitVec.ofNat 16) (by omega)
  have hfamily : decodeFamilyE (wordX 0xE x code) = .ok (mk x) := by
    rw [hrow _ (fieldNN_toNat_wordX hop hcode x), fieldX_wordX hop hcode]
  simp only [hword, decodeWord, fieldOp_wordX hop hcode, hfamily]

theorem decodeWord_skp (x : RegIdx) : decodeWord (BitVec.ofNat 16 (0xE09E + x.val * 0x100)) = .ok (.skp x) :=
  decodeWord_familyE (code := 0x9E) (by decide) (fun w h => by simp only [decodeFamilyE, h]) x

theorem decodeWord_sknp (x : RegIdx) : decodeWord (BitVec.ofNat 16 (0xE0A1 + x.val * 0x100)) = .ok (.sknp x) :=
  decodeWord_familyE (code := 0xA1) (by decide) (fun w h => by simp only [decodeFamilyE, h]) x

theorem decodeWord_addI (x : RegIdx) : decodeWord (BitVec.ofNat 16 (0xF01E + x.val * 0x100)) = .ok (.addI x) :=
  decodeWord_familyF (code := 0x1E) (by decide) (fun w h => by simp only [decodeFamilyF, h]) x

theorem decodeWord_ldB (x : RegIdx) : decodeWord (BitVec.ofNat 16 (0xF033 + x.val * 0x100)) = .ok (.ldB x) :=
  decodeWord_familyF (code := 0x33) (by decide) (fun w h => by simp only [decodeFamilyF, h]) x

theorem decodeWord_dump (x : RegIdx) : decodeWord (BitVec.ofNat 16 (0xF055 + x.val * 0x100)) = .ok (.dump x) :=
  decodeWord_familyF (code := 0x55) (by decide) (fun w h => by simp only [decodeFamilyF, h]) x

theorem decodeWord_load (x : RegIdx) : decodeWord (BitVec.ofNat 16 (0xF065 + x.val * 0x100)) = .ok (.load x) :=
  decodeWord_familyF (code := 0x65) (by decide) (fun w h => by simp only [decodeFamilyF, h]) x

/-! Decoding what was encoded. -/

/-- The word of format X, its code written with the family. -/
theorem wordX_eq_ofNat (op : Nat) (x : RegIdx) (code : Nat) :
    wordX op x code = BitVec.ofNat 16 (op * 0x1000 + code + x.val * 0x100) :=
  congrArg (BitVec.ofNat 16) (by omega)

/-- The word of format XY, its code written with the family. -/
theorem wordXYN_eq_ofNat (op : Nat) (x y : RegIdx) (n : Nat) :
    wordXYN op x y n = BitVec.ofNat 16 (op * 0x1000 + n + x.val * 0x100 + y.val * 0x10) :=
  congrArg (BitVec.ofNat 16) (by omega)

theorem decodeWord_encode {i : Instr} (hwf : i.wellFormed = true) : decodeWord (encode i) = .ok i := by
  have formX {op code : Nat} {x : RegIdx} {r : Except Illegal Instr}
      (h : decodeWord (BitVec.ofNat 16 (op * 0x1000 + code + x.val * 0x100)) = r) : decodeWord (wordX op x code) = r := by
    rw [wordX_eq_ofNat, h]
  have formXY {op n : Nat} {x y : RegIdx} {r : Except Illegal Instr}
      (h : decodeWord (BitVec.ofNat 16 (op * 0x1000 + n + x.val * 0x100 + y.val * 0x10)) = r) :
      decodeWord (wordXYN op x y n) = r := by
    rw [wordXYN_eq_ofNat, h]
  cases i with
  | cls => exact decodeWord_cls
  | ret => exact decodeWord_ret
  | jp nnn => exact decodeWord_jp nnn
  | call nnn => exact decodeWord_call nnn
  | seImm x nn => exact decodeWord_seImm x nn
  | sneImm x nn => exact decodeWord_sneImm x nn
  | seReg x y => exact decodeWord_seReg x y
  | ldImm x nn => exact decodeWord_ldImm x nn
  | addImm x nn => exact decodeWord_addImm x nn
  | ldReg x y => exact formXY (op := 0x8) (n := 0x0) (decodeWord_ldReg x y)
  | orReg x y => exact formXY (op := 0x8) (n := 0x1) (decodeWord_orReg x y)
  | andReg x y => exact formXY (op := 0x8) (n := 0x2) (decodeWord_andReg x y)
  | xorReg x y => exact formXY (op := 0x8) (n := 0x3) (decodeWord_xorReg x y)
  | addReg x y => exact formXY (op := 0x8) (n := 0x4) (decodeWord_addReg x y)
  | subReg x y => exact formXY (op := 0x8) (n := 0x5) (decodeWord_subReg x y)
  | shr x y => exact formXY (op := 0x8) (n := 0x6) (decodeWord_shr x y)
  | subnReg x y => exact formXY (op := 0x8) (n := 0x7) (decodeWord_subnReg x y)
  | shl x y => exact formXY (op := 0x8) (n := 0xE) (decodeWord_shl x y)
  | sneReg x y => exact decodeWord_sneReg x y
  | ldI nnn => exact decodeWord_ldI nnn
  | jpV0 nnn => exact decodeWord_jpV0 nnn
  | rnd x nn => exact decodeWord_rnd x nn
  | drw x y n => exact decodeWord_drw x y (Nat.lt_succ_of_le (of_decide_eq_true hwf))
  | skp x => exact formX (op := 0xE) (code := 0x9E) (decodeWord_skp x)
  | sknp x => exact formX (op := 0xE) (code := 0xA1) (decodeWord_sknp x)
  | ldVxDT x => exact formX (op := 0xF) (code := 0x07) (decodeWord_ldVxDT x)
  | ldVxK x => exact formX (op := 0xF) (code := 0x0A) (decodeWord_ldVxK x)
  | ldDTVx x => exact formX (op := 0xF) (code := 0x15) (decodeWord_ldDTVx x)
  | ldSTVx x => exact formX (op := 0xF) (code := 0x18) (decodeWord_ldSTVx x)
  | addI x => exact formX (op := 0xF) (code := 0x1E) (decodeWord_addI x)
  | ldF x => exact formX (op := 0xF) (code := 0x29) (decodeWord_ldF x)
  | ldB x => exact formX (op := 0xF) (code := 0x33) (decodeWord_ldB x)
  | dump x => exact formX (op := 0xF) (code := 0x55) (decodeWord_dump x)
  | load x => exact formX (op := 0xF) (code := 0x65) (decodeWord_load x)

/-- Settles O1: an instruction's word is its fields put together by its format, and the decoder takes them apart again
(the lemmas `decodeWord_…`, one for each of the 34 instructions). -/
theorem decodeOfEncodeIsTheInstruction : Obligations.DecodeOfEncodeIsTheInstruction := by
  unfold Obligations.DecodeOfEncodeIsTheInstruction
  exact fun _ => decodeWord_encode

/-! Encoding what was decoded: a word is its fields put together again (R91). -/

theorem wordNNN_of_fields {w : Word} {op : Nat} (hop : fieldOp w = op) : wordNNN op (fieldNNN w) = w := by
  apply BitVec.eq_of_toNat_eq
  rw [fieldOp_eq] at hop
  rw [wordNNN, BitVec.toNat_ofNat, fieldNNN_toNat]
  omega

theorem wordXNN_of_fields {w : Word} {op : Nat} (hop : fieldOp w = op) : wordXNN op (fieldX w) (fieldNN w) = w := by
  apply BitVec.eq_of_toNat_eq
  rw [fieldOp_eq] at hop
  rw [wordXNN, BitVec.toNat_ofNat, fieldX_val, fieldNN_toNat]
  omega

theorem wordXYN_of_fields {w : Word} {op n : Nat} (hop : fieldOp w = op) (hn : fieldN w = n) :
    wordXYN op (fieldX w) (fieldY w) n = w := by
  apply BitVec.eq_of_toNat_eq
  rw [fieldOp_eq] at hop
  rw [fieldN_eq] at hn
  rw [wordXYN, BitVec.toNat_ofNat, fieldX_val, fieldY_val]
  omega

theorem wordX_of_fields {w : Word} {op code : Nat} (hop : fieldOp w = op) (hcode : (fieldNN w).toNat = code) :
    wordX op (fieldX w) code = w := by
  rw [← hcode]
  exact wordXNN_of_fields hop

theorem encode_of_decodeFamily0 {w : Word} {i : Instr} (h : decodeFamily0 w = .ok i) :
    encode i = w ∧ i.wellFormed = true := by
  unfold decodeFamily0 at h
  split at h
  case h_3 => contradiction
  all_goals
    obtain rfl := Except.ok.inj h
    exact ⟨(BitVec.eq_of_toNat_eq ‹w.toNat = _›).symm, rfl⟩

theorem encode_of_decodeFamily5 {w : Word} {i : Instr} (hop : fieldOp w = 0x5) (h : decodeFamily5 w = .ok i) :
    encode i = w ∧ i.wellFormed = true := by
  unfold decodeFamily5 at h
  split at h
  case h_2 => contradiction
  obtain rfl := Except.ok.inj h
  exact ⟨wordXYN_of_fields hop ‹_›, rfl⟩

theorem encode_of_decodeFamily8 {w : Word} {i : Instr} (hop : fieldOp w = 0x8) (h : decodeFamily8 w = .ok i) :
    encode i = w ∧ i.wellFormed = true := by
  unfold decodeFamily8 at h
  split at h
  case h_10 => contradiction
  all_goals
    obtain rfl := Except.ok.inj h
    exact ⟨wordXYN_of_fields hop ‹_›, rfl⟩

theorem encode_of_decodeFamily9 {w : Word} {i : Instr} (hop : fieldOp w = 0x9) (h : decodeFamily9 w = .ok i) :
    encode i = w ∧ i.wellFormed = true := by
  unfold decodeFamily9 at h
  split at h
  case h_2 => contradiction
  obtain rfl := Except.ok.inj h
  exact ⟨wordXYN_of_fields hop ‹_›, rfl⟩

theorem encode_of_decodeFamilyE {w : Word} {i : Instr} (hop : fieldOp w = 0xE) (h : decodeFamilyE w = .ok i) :
    encode i = w ∧ i.wellFormed = true := by
  unfold decodeFamilyE at h
  split at h
  case h_3 => contradiction
  all_goals
    obtain rfl := Except.ok.inj h
    exact ⟨wordX_of_fields hop ‹_›, rfl⟩

theorem encode_of_decodeFamilyF {w : Word} {i : Instr} (hop : fieldOp w = 0xF) (h : decodeFamilyF w = .ok i) :
    encode i = w ∧ i.wellFormed = true := by
  unfold decodeFamilyF at h
  split at h
  case h_10 => contradiction
  all_goals
    obtain rfl := Except.ok.inj h
    exact ⟨wordX_of_fields hop ‹_›, rfl⟩

/-- The row count of a decoded `DRW` is four bits (R92). -/
theorem rowCountOk_fieldN (w : Word) : rowCountOk (fieldN w) = true :=
  decide_eq_true (Nat.le_of_lt_succ (BitVec.isLt _))

theorem encode_of_decodeWord {w : Word} {i : Instr} (h : decodeWord w = .ok i) :
    encode i = w ∧ i.wellFormed = true := by
  have hcases := family_cases w
  rw [← fieldOp_eq] at hcases
  rcases hcases with hop | hop | hop | hop | hop | hop | hop | hop | hop | hop | hop | hop | hop | hop | hop | hop <;>
    simp only [decodeWord, hop, Except.ok.injEq] at h
  · exact encode_of_decodeFamily0 h
  · subst h
    exact ⟨wordNNN_of_fields hop, rfl⟩
  · subst h
    exact ⟨wordNNN_of_fields hop, rfl⟩
  · subst h
    exact ⟨wordXNN_of_fields hop, rfl⟩
  · subst h
    exact ⟨wordXNN_of_fields hop, rfl⟩
  · exact encode_of_decodeFamily5 hop h
  · subst h
    exact ⟨wordXNN_of_fields hop, rfl⟩
  · subst h
    exact ⟨wordXNN_of_fields hop, rfl⟩
  · exact encode_of_decodeFamily8 hop h
  · exact encode_of_decodeFamily9 hop h
  · subst h
    exact ⟨wordNNN_of_fields hop, rfl⟩
  · subst h
    exact ⟨wordNNN_of_fields hop, rfl⟩
  · subst h
    exact ⟨wordXNN_of_fields hop, rfl⟩
  · subst h
    exact ⟨wordXYN_of_fields hop rfl, rowCountOk_fieldN w⟩
  · exact encode_of_decodeFamilyE hop h
  · exact encode_of_decodeFamilyF hop h

/-- Settles O2: each branch of the decoder fixes the family and the secondary code and reads the other fields off the
word, so putting them together by the instruction's format gives the word back. -/
theorem encodeOfDecodeIsTheWord : Obligations.EncodeOfDecodeIsTheWord := by
  unfold Obligations.EncodeOfDecodeIsTheWord
  exact fun _ _ => encode_of_decodeWord

/-! The one row a word selects (R94). -/

theorem row_mem_opcodeRows (i : Instr) : i.row ∈ opcodeRows := by
  cases i <;> simp [Instr.row, opcodeRows, rowSamples]

/-- An instruction's word selects the instruction's row (the lemmas `Laws.InRow`, one for each instruction). -/
theorem row_selects_encode {i : Instr} (hwf : i.wellFormed = true) : i.row.selects (encode i) = true := by
  cases i with
  | cls => exact Laws.InRow.cls hwf
  | ret => exact Laws.InRow.ret hwf
  | jp nnn => exact Laws.InRow.jp nnn hwf
  | call nnn => exact Laws.InRow.call nnn hwf
  | seImm x nn => exact Laws.InRow.seImm x nn hwf
  | sneImm x nn => exact Laws.InRow.sneImm x nn hwf
  | seReg x y => exact Laws.InRow.seReg x y hwf
  | ldImm x nn => exact Laws.InRow.ldImm x nn hwf
  | addImm x nn => exact Laws.InRow.addImm x nn hwf
  | ldReg x y => exact Laws.InRow.ldReg x y hwf
  | orReg x y => exact Laws.InRow.orReg x y hwf
  | andReg x y => exact Laws.InRow.andReg x y hwf
  | xorReg x y => exact Laws.InRow.xorReg x y hwf
  | addReg x y => exact Laws.InRow.addReg x y hwf
  | subReg x y => exact Laws.InRow.subReg x y hwf
  | shr x y => exact Laws.InRow.shr x y hwf
  | subnReg x y => exact Laws.InRow.subnReg x y hwf
  | shl x y => exact Laws.InRow.shl x y hwf
  | sneReg x y => exact Laws.InRow.sneReg x y hwf
  | ldI nnn => exact Laws.InRow.ldI nnn hwf
  | jpV0 nnn => exact Laws.InRow.jpV0 nnn hwf
  | rnd x nn => exact Laws.InRow.rnd x nn hwf
  | drw x y n => exact Laws.InRow.drw x y n hwf
  | skp x => exact Laws.InRow.skp x hwf
  | sknp x => exact Laws.InRow.sknp x hwf
  | ldVxDT x => exact Laws.InRow.ldVxDT x hwf
  | ldVxK x => exact Laws.InRow.ldVxK x hwf
  | ldDTVx x => exact Laws.InRow.ldDTVx x hwf
  | ldSTVx x => exact Laws.InRow.ldSTVx x hwf
  | addI x => exact Laws.InRow.addI x hwf
  | ldF x => exact Laws.InRow.ldF x hwf
  | ldB x => exact Laws.InRow.ldB x hwf
  | dump x => exact Laws.InRow.dump x hwf
  | load x => exact Laws.InRow.load x hwf

theorem row_selects_of_decodeWord {w : Word} {i : Instr} (h : decodeWord w = .ok i) : i.row.selects w = true := by
  obtain ⟨rfl, hwf⟩ := encode_of_decodeWord h
  exact row_selects_encode hwf

/-- Two rows whose fixed bits agree where both fix a bit are one row (R94: the rows are disjoint). -/
theorem opcodeRows_disjoint :
    ∀ r ∈ opcodeRows, ∀ q ∈ opcodeRows, r.bits &&& q.mask = q.bits &&& r.mask → r = q := by decide

/-- A word selects at most one row: where two rows fix a bit, the word has that bit. -/
theorem row_unique {w : Word} {r q : OpcodeRow} (hr : r ∈ opcodeRows) (hq : q ∈ opcodeRows)
    (hrw : r.selects w = true) (hqw : q.selects w = true) : r = q := by
  rw [OpcodeRow.selects, beq_iff_eq] at hrw hqw
  refine opcodeRows_disjoint r hr q hq ?_
  rw [← hrw, ← hqw, BitVec.and_assoc, BitVec.and_assoc, BitVec.and_comm r.mask]

/-- What the decoder refuses is on R108's list: in a family without a secondary dispatch it refuses nothing, and in the
six others every code that is not on the list stands for an instruction. -/
theorem illegalWord_of_decodeWord_error {w : Word} {why : Illegal} (h : decodeWord w = .error why) : IllegalWord w := by
  unfold IllegalWord
  rcases family_cases w with hf | hf | hf | hf | hf | hf | hf | hf | hf | hf | hf | hf | hf | hf | hf | hf <;>
    simp only [decodeWord, fieldOp_eq, hf, reduceCtorEq] at h
  · refine .inl ⟨hf, ?_, ?_⟩ <;> intro hw <;> simp [decodeFamily0, hw] at h
  · refine .inr (.inl ⟨.inl hf, fun hn => ?_⟩)
    simp [decodeFamily5, fieldN_eq, hn] at h
  · refine .inr (.inr (.inl ⟨hf, ?_⟩))
    refine Classical.byContradiction fun hlist => ?_
    have hn : w.toNat % 16 = 0x0 ∨ w.toNat % 16 = 0x1 ∨ w.toNat % 16 = 0x2 ∨ w.toNat % 16 = 0x3 ∨ w.toNat % 16 = 0x4 ∨
        w.toNat % 16 = 0x5 ∨ w.toNat % 16 = 0x6 ∨ w.toNat % 16 = 0x7 ∨ w.toNat % 16 = 0xE := by omega
    rcases hn with hn | hn | hn | hn | hn | hn | hn | hn | hn <;> simp [decodeFamily8, fieldN_eq, hn] at h
  · refine .inr (.inl ⟨.inr hf, fun hn => ?_⟩)
    simp [decodeFamily9, fieldN_eq, hn] at h
  · refine .inr (.inr (.inr (.inl ⟨hf, ?_, ?_⟩))) <;> intro hnn <;> simp [decodeFamilyE, fieldNN_toNat, hnn] at h
  · refine .inr (.inr (.inr (.inr ⟨hf, ?_, ?_, ?_, ?_, ?_, ?_, ?_, ?_, ?_⟩))) <;> intro hnn <;>
      simp [decodeFamilyF, fieldNN_toNat, hnn] at h

/-- Every row is a row of instructions: a word that selects it decodes, because no row meets R108's list, and what it
decodes to stands in the one row that the word selects. -/
theorem decodeWord_of_selects {w : Word} {r : OpcodeRow} (hr : r ∈ opcodeRows) (hrw : r.selects w = true) :
    ∃ i, decodeWord w = .ok i ∧ i.row = r := by
  cases hw : decodeWord w with
  | ok i => exact ⟨i, rfl, row_unique (row_mem_opcodeRows i) hr (row_selects_of_decodeWord hw) hrw⟩
  | error why =>
    have hnone := (matchesNoRow_iff_illegalWord w).mpr (illegalWord_of_decodeWord_error hw) r hr
    exact absurd hrw (Bool.eq_false_iff.mp hnone)

/-- Settles O3: what a word decodes to has that word (`encode_of_decodeWord`), so its row selects it; the rows are
disjoint; and a word the decoder refuses is on the list that no row meets. -/
theorem decodeFollowsTheOneSelectedRow : Obligations.DecodeFollowsTheOneSelectedRow := by
  unfold Obligations.DecodeFollowsTheOneSelectedRow
  exact ⟨rfl, fun w i h => ⟨row_mem_opcodeRows i, row_selects_of_decodeWord h⟩, fun w r => decodeWord_of_selects⟩

/-- Settles O5: the decoder is run on each of the seventeen words. -/
theorem wordsWrittenOutDecodeToTheirInstructions : Obligations.WordsWrittenOutDecodeToTheirInstructions := by
  unfold Obligations.WordsWrittenOutDecodeToTheirInstructions
  exact ⟨rfl, rfl, rfl, rfl, rfl, rfl, rfl, rfl, rfl, rfl, rfl, rfl, rfl, rfl, rfl, rfl, rfl⟩

end Sys2Proof.Proofs
end

section
/-! ### What performing an instruction changes (10_state.md R23 to R36, 60_exceptions.md R231) -/

namespace Sys2Proof.Proofs
open Sys2Proof Sys2Proof.Machine

/-- How an instruction that completes takes `s` to `t`: it writes the registers of R23's table at most, leaves `PC` as R26's
table says, and writes each other part of the state only where the spec names it. What an instruction does not touch at
all is filled in by `rfl`. -/
structure InstrEffect (i : Instr) (s t : State) : Prop where
  control : SameControl s t := by exact ⟨rfl, rfl, rfl, rfl, rfl, rfl, rfl⟩
  reg : ∀ r, ¬ writesReg i r → t.reg r = s.reg r := by intros; rfl
  pc : t.pc.toNat = pcAfter i s % 65536
  fb : i ≠ .cls → (∀ x y n, i ≠ .drw x y n) → t.fb = s.fb ∧ t.dirty = s.dirty := by intros; exact ⟨rfl, rfl⟩
  sp : i ≠ .ret → (∀ a, i ≠ .call a) → t.sp = s.sp := by intros; rfl
  stack : (∀ a, i ≠ .call a) → t.stack = s.stack := by intros; rfl
  mem : (∀ x, i ≠ .ldB x) → (∀ x, i ≠ .dump x) → t.mem = s.mem := by intros; rfl
  index : (∀ a, i ≠ .ldI a) → (∀ x, i ≠ .addI x) → (∀ x, i ≠ .ldF x) → (∀ x, i ≠ .dump x) → (∀ x, i ≠ .load x) →
    t.i = s.i := by intros; rfl
  dt : (∀ x, i ≠ .ldDTVx x) → t.dt = s.dt := by intros; rfl
  st : (∀ x, i ≠ .ldSTVx x) → t.st = s.st := by intros; rfl

/-- An instruction in `s` completes with its effect, or raises its own kind of fault in `s`. -/
def EffectOrOwnFault (i : Instr) (s : State) (r : Result) : Prop :=
  (∃ t, r = .next t ∧ InstrEffect i s t) ∨
    ∃ kind addr, ownFault i = some kind ∧ r = .next (s.raise kind (some (encode i)) addr)

theorem completes_of_effect {i : Instr} {s t : State} (h : InstrEffect i s t) : EffectOrOwnFault i s (.next t) :=
  .inl ⟨t, rfl, h⟩

theorem raises_ownFault {i : Instr} {kind : FaultKind} (s : State) (addr : Option Nat) (h : ownFault i = some kind) :
    EffectOrOwnFault i s (s.raiseIn i kind addr) :=
  .inr ⟨kind, addr, h, rfl⟩

/-! The effects that several instructions share. -/

theorem pc_add_two_toNat (s : State) : (s.pc + 2).toNat = (s.pc.toNat + 2) % 65536 := BitVec.toNat_add ..

theorem effect_setReg {i : Instr} {s : State} {x : RegIdx} {b : Byte} (hx : writesReg i x)
    (hpc : pcAfter i s = s.pc.toNat + 2) : InstrEffect i s (s.setReg x b).advance where
  reg r hr := by
    have hrx : r ≠ x := fun h => hr (h ▸ hx)
    rw [State.reg_advance, State.reg_setReg, if_neg hrx]
  pc := hpc ▸ pc_add_two_toNat s

theorem effect_setResultFlag {i : Instr} {s : State} {x : RegIdx} {b f : Byte} (hx : writesReg i x)
    (hvf : writesReg i 15) (hpc : pcAfter i s = s.pc.toNat + 2) : InstrEffect i s (s.setResultFlag x b f).advance where
  reg r hr := by
    have hrvf : r ≠ vf := fun h => hr (h ▸ hvf)
    have hrx : r ≠ x := fun h => hr (h ▸ hx)
    rw [State.reg_advance, State.reg_setResultFlag, if_neg hrvf, if_neg hrx]
  pc := hpc ▸ pc_add_two_toNat s

theorem effect_setPc {i : Instr} {s : State} {a : Word} (hpc : a.toNat = pcAfter i s % 65536) :
    InstrEffect i s (s.setPc a) where
  pc := hpc

theorem effect_skipIf {i : Instr} {s : State} {c : Bool}
    (hpc : pcAfter i s = if c then s.pc.toNat + 4 else s.pc.toNat + 2) : InstrEffect i s (s.skipIf c) := by
  rw [State.skipIf_eq]
  refine effect_setPc ?_
  rw [hpc]
  cases c <;> exact BitVec.toNat_add ..

/-! The operands that `PC` depends on. -/

/-- A register is zero-extended to an address offset (40_control_transfer.md R126, 44_index_memory.md R173). -/
@[simp] theorem offsetOf_toNat (b : Byte) : (offsetOf b).toNat = b.toNat :=
  BitVec.toNat_setWidth_of_le (by decide)

theorem firstKey_eq_none_iff {k : BitVec 16} : firstKey k = none ↔ k = 0 := by
  refine ⟨fun h => ?_, fun h => by rw [h]; rfl⟩
  rw [firstKey, allIdx_eq_finRange, List.find?_eq_none] at h
  apply BitVec.eq_of_getLsbD_eq
  intro j hj
  have hup := h ⟨j, hj⟩ (List.mem_finRange _)
  rw [Bool.not_eq_true] at hup
  rw [hup]
  exact BitVec.getLsbD_zero.symm

/-- What performing an instruction can do, said once, with all that the instruction may change (R23, R26, R231). -/
theorem exec_effectOrOwnFault (i : Instr) (s : State) : EffectOrOwnFault i s (exec i s) := by
  cases i with
  | cls => exact completes_of_effect { pc := pc_add_two_toNat s, fb := fun h => absurd rfl h }
  | ret =>
    show EffectOrOwnFault .ret s (execRet s)
    by_cases h : 0 < s.sp.val
    · rw [execRet_of_pos h]
      refine completes_of_effect { pc := ?_, sp := fun h => absurd rfl h }
      rw [pcAfter, dif_pos h]
      exact BitVec.toNat_add ..
    · rw [execRet_empty (by omega)]
      exact raises_ownFault s _ rfl
  | jp nnn => exact completes_of_effect (effect_setPc (by rw [absAddr_toNat, pcAfter]; omega))
  | call nnn =>
    show EffectOrOwnFault (.call nnn) s (execCall nnn s)
    by_cases h : s.sp.val < 16
    · rw [execCall_of_lt nnn h]
      refine completes_of_effect
        { pc := ?_, sp := fun _ h => absurd rfl (h nnn), stack := fun h => absurd rfl (h nnn) }
      rw [absAddr_toNat, pcAfter]
      omega
    · rw [execCall_full nnn (by omega)]
      exact raises_ownFault s _ rfl
  | seImm x nn => exact completes_of_effect (effect_skipIf rfl)
  | sneImm x nn => exact completes_of_effect (effect_skipIf rfl)
  | seReg x y => exact completes_of_effect (effect_skipIf rfl)
  | ldImm x nn => exact completes_of_effect (effect_setReg rfl rfl)
  | addImm x nn => exact completes_of_effect (effect_setReg rfl rfl)
  | ldReg x y => exact completes_of_effect (effect_setReg rfl rfl)
  | orReg x y => exact completes_of_effect (effect_setReg rfl rfl)
  | andReg x y => exact completes_of_effect (effect_setReg rfl rfl)
  | xorReg x y => exact completes_of_effect (effect_setReg rfl rfl)
  | addReg x y => exact completes_of_effect (effect_setResultFlag (.inl rfl) (.inr rfl) rfl)
  | subReg x y => exact completes_of_effect (effect_setResultFlag (.inl rfl) (.inr rfl) rfl)
  | shr x y => exact completes_of_effect (effect_setResultFlag (.inl rfl) (.inr rfl) rfl)
  | subnReg x y => exact completes_of_effect (effect_setResultFlag (.inl rfl) (.inr rfl) rfl)
  | shl x y => exact completes_of_effect (effect_setResultFlag (.inl rfl) (.inr rfl) rfl)
  | sneReg x y => exact completes_of_effect (effect_skipIf rfl)
  | ldI nnn => exact completes_of_effect { pc := pc_add_two_toNat s, index := fun h => absurd rfl (h nnn) }
  | jpV0 nnn =>
    refine completes_of_effect (effect_setPc ?_)
    rw [BitVec.toNat_add, offsetOf_toNat, absAddr_toNat]
    rfl
  | rnd x nn => exact completes_of_effect (effect_setReg rfl rfl)
  | drw x y n =>
    show EffectOrOwnFault (.drw x y n) s (execDrw x y n s)
    rcases execDrw_cases x y n s with ⟨t, ht, hframe, hreg, -⟩ | ⟨a, ht, -⟩
    · rw [ht]
      obtain ⟨v, fb, rfl⟩ : ∃ v fb, t = { s with v := v, fb := fb, dirty := true, pc := s.pc + 2 } := ⟨_, _, hframe⟩
      exact completes_of_effect { reg := hreg, pc := pc_add_two_toNat s, fb := fun _ h => absurd rfl (h x y n) }
    · rw [ht]
      exact raises_ownFault s _ rfl
  | skp x =>
    show EffectOrOwnFault (.skp x) s (execSkp x s)
    unfold execSkp
    split
    · exact raises_ownFault s _ rfl
    · exact completes_of_effect (effect_skipIf rfl)
  | sknp x =>
    show EffectOrOwnFault (.sknp x) s (execSknp x s)
    unfold execSknp
    split
    · exact raises_ownFault s _ rfl
    · exact completes_of_effect (effect_skipIf rfl)
  | ldVxDT x => exact completes_of_effect (effect_setReg rfl rfl)
  | ldVxK x =>
    show EffectOrOwnFault (.ldVxK x) s (execLdVxK x s)
    unfold execLdVxK
    cases hkey : firstKey s.k with
    | some j =>
      have hk : s.k ≠ 0 := fun h => by simp [firstKey_eq_none_iff.mpr h] at hkey
      exact completes_of_effect (effect_setReg rfl (if_neg hk))
    | none =>
      have hk : pcAfter (.ldVxK x) s = s.pc.toNat := if_pos (firstKey_eq_none_iff.mp hkey)
      exact completes_of_effect { pc := by rw [hk]; omega }
  | ldDTVx x => exact completes_of_effect { pc := pc_add_two_toNat s, dt := fun h => absurd rfl (h x) }
  | ldSTVx x => exact completes_of_effect { pc := pc_add_two_toNat s, st := fun h => absurd rfl (h x) }
  | addI x => exact completes_of_effect { pc := pc_add_two_toNat s, index := fun _ h => absurd rfl (h x) }
  | ldF x => exact completes_of_effect { pc := pc_add_two_toNat s, index := fun _ _ h => absurd rfl (h x) }
  | ldB x =>
    show EffectOrOwnFault (.ldB x) s (execLdB x s)
    rw [execLdB_eq]
    split
    · exact completes_of_effect { pc := pc_add_two_toNat s, mem := fun h => absurd rfl (h x) }
    · exact raises_ownFault s _ rfl
  | dump x =>
    show EffectOrOwnFault (.dump x) s (execDump x s)
    rw [execDump_eq]
    split
    · exact completes_of_effect
        { pc := pc_add_two_toNat s, mem := fun _ h => absurd rfl (h x), index := fun _ _ _ h => absurd rfl (h x) }
    · exact raises_ownFault s _ rfl
  | load x =>
    show EffectOrOwnFault (.load x) s (execLoad x s)
    have hcases := execLoad_cases x s
    split at hcases
    · obtain ⟨t, ht, hframe, hreg⟩ := hcases
      rw [ht]
      obtain ⟨v, rfl⟩ : ∃ v, t = { s with v := v, i := s.i + BitVec.ofNat 16 (x.val + 1), pc := s.pc + 2 } :=
        ⟨_, hframe⟩
      exact completes_of_effect
        { reg := fun r hr => (hreg r).trans (if_neg hr)
          pc := pc_add_two_toNat s
          index := fun _ _ _ _ h => absurd rfl (h x) }
    · rw [hcases]
      exact raises_ownFault s _ rfl

/-- An instruction that leaves the machine running has completed. -/
theorem effect_of_running {i : Instr} {s t : State} (hexec : exec i s = .next t) (hrun : t.run = .running) :
    InstrEffect i s t := by
  rcases exec_effectOrOwnFault i s with ⟨u, hu, heffect⟩ | ⟨kind, addr, -, hfault⟩
  · obtain rfl : u = t := Host.Outcome.next.inj (hu.symm.trans hexec)
    exact heffect
  · obtain rfl := Host.Outcome.next.inj (hfault.symm.trans hexec)
    simp at hrun

/-- An instruction that halts a running machine has raised its own kind of fault: one that completes leaves `run` alone. -/
theorem raised_of_halted {i : Instr} {s t : State} (hexec : exec i s = .next t) (hrun : s.run = .running)
    (hhalted : t.run = .halted) : ∃ kind addr, ownFault i = some kind ∧ t = s.raise kind (some (encode i)) addr := by
  rcases exec_effectOrOwnFault i s with ⟨u, hu, heffect⟩ | ⟨kind, addr, hkind, hfault⟩
  · obtain rfl : u = t := Host.Outcome.next.inj (hu.symm.trans hexec)
    simp [heffect.control.run, hrun] at hhalted
  · exact ⟨kind, addr, hkind, (Host.Outcome.next.inj (hfault.symm.trans hexec)).symm⟩

/-- Settles O55: only `raise` halts, and an instruction raises no fault but its own kind. -/
theorem instructionsRaiseOnlyTheirOwnFault : Obligations.InstructionsRaiseOnlyTheirOwnFault := by
  unfold Obligations.InstructionsRaiseOnlyTheirOwnFault
  intro i s t hexec hrun hhalted
  obtain ⟨kind, addr, hkind, rfl⟩ := raised_of_halted hexec hrun hhalted
  exact ⟨_, ⟨rfl, rfl, rfl, rfl⟩, hkind, rfl, rfl⟩

/-- Settles O56: with the machine left running the instruction has completed, and its effect (`InstrEffect`) names the
registers. -/
theorem onlyTheListedRegistersAreWritten : Obligations.OnlyTheListedRegistersAreWritten := by
  unfold Obligations.OnlyTheListedRegistersAreWritten
  intro i s t r hexec hrun hr
  exact (effect_of_running hexec hrun).reg r hr

/-- Settles O57: the effect of a completed instruction bounds each part of the state. -/
theorem eachPartIsWrittenOnlyByItsInstructions : Obligations.EachPartIsWrittenOnlyByItsInstructions := by
  unfold Obligations.EachPartIsWrittenOnlyByItsInstructions
  intro i s t hexec hrun
  have he := effect_of_running hexec hrun
  have hc := he.control
  exact ⟨he.fb, he.sp, he.stack, he.mem, he.index, he.dt, he.st, hc.k, hc.fault, hc.presentO, hc.toneO, hc.feed, hc.cycle⟩

/-- Settles O58: the effect of a completed instruction says where `PC` goes. -/
theorem programCounterFollowsTheTable : Obligations.ProgramCounterFollowsTheTable := by
  unfold Obligations.ProgramCounterFollowsTheTable
  intro i s t hexec hrun
  exact (effect_of_running hexec hrun).pc

end Sys2Proof.Proofs
end

section
/-! ### How a cycle goes (60_exceptions.md R221 to R245, 70_reset_and_hazards.md R284) -/

namespace Sys2Proof.Proofs
open Sys2Proof Sys2Proof.Machine

/-- A word that is fetched in a running cycle without a quit request is about to run (20_memory.md R66). -/
theorem aboutToRun_of_fetch {s : State} {w : Word} (hrun : s.run = .running) (hquit : s.portsIn.quit = false)
    (hfetch : s.fetch = .ok w) : s.AboutToRun w := by
  rw [State.fetch_eq] at hfetch
  split at hfetch
  · obtain rfl := Except.ok.inj hfetch
    exact ⟨hrun, hquit, ‹_›, (wordOfBytes_toNat _ _).symm⟩
  · split at hfetch <;> contradiction

section
variable {t : State} (hrun : t.run = .running)
include hrun

theorem endCycle_i : t.endCycle.i = t.i := by rw [State.endCycle_eq hrun]
theorem endCycle_sp : t.endCycle.sp = t.sp := by rw [State.endCycle_eq hrun]
theorem endCycle_stack : t.endCycle.stack = t.stack := by rw [State.endCycle_eq hrun]
theorem endCycle_fb : t.endCycle.fb = t.fb := by rw [State.endCycle_eq hrun]
theorem endCycle_dirty : t.endCycle.dirty = false := by rw [State.endCycle_eq hrun]
theorem endCycle_fault : t.endCycle.fault = t.fault := by rw [State.endCycle_eq hrun]
theorem endCycle_mem : t.endCycle.mem = t.mem := by rw [State.endCycle_eq hrun]

/-- The rest of the cycle changes neither `PC` nor memory, so the next fetch is the one the instruction left. -/
theorem endCycle_fetch : t.endCycle.fetch = t.fetch := by
  rw [State.endCycle_eq hrun]
  rfl

end

theorem endCycle_run_eq (t : State) : t.endCycle.run = t.run := by
  cases hrun : t.run with
  | running => exact endCycle_run hrun
  | halted => rw [State.endCycle_halted hrun, State.consumeInput_run, hrun]

/-- What a step does, said once: a halted cycle, a quit request, an instruction that completes, or a fault. -/
theorem step_next_cases {s t : State} (hstep : step s = .next t) :
    (s.run = .halted ∧ t = s.haltedCycle) ∨
    (s.run = .running ∧ s.portsIn.quit = true ∧ t = s.sampleKeys.quitCycle) ∨
    (∃ w i u, s.AboutToRun w ∧ decodeWord w = .ok i ∧ exec i s.sampleKeys = .next u ∧ u.run = .running ∧
      t = u.endCycle) ∨
    (s.run = .running ∧ s.portsIn.quit = false ∧
      ∃ kind word addr, t = (s.sampleKeys.raise kind word addr).consumeInput) := by
  have raised (kind : FaultKind) (word : Option Word) (addr : Option Nat) :
      (s.sampleKeys.raise kind word addr).endCycle = (s.sampleKeys.raise kind word addr).consumeInput :=
    State.endCycle_halted (State.raise_run ..)
  cases hrun : s.run with
  | halted => exact .inl ⟨rfl, Host.Outcome.next.inj (hstep.symm.trans (step_halted hrun))⟩
  | running =>
    cases hquit : s.portsIn.quit with
    | true => exact .inr (.inl ⟨rfl, rfl, Host.Outcome.next.inj (hstep.symm.trans (step_quit hrun hquit))⟩)
    | false =>
      right; right
      rcases step_cases hrun hquit with ⟨a, -, h⟩ | ⟨w, why, -, -, h⟩ | ⟨w, i, u, hfetch, hw, hexec, h⟩ <;>
        obtain rfl := Host.Outcome.next.inj (hstep.symm.trans h)
      · exact .inr ⟨rfl, rfl, _, _, _, raised ..⟩
      · exact .inr ⟨rfl, rfl, _, _, _, raised ..⟩
      · cases hu : u.run with
        | running => exact .inl ⟨w, i, u, aboutToRun_of_fetch hrun hquit hfetch, hw, hexec, hu, rfl⟩
        | halted =>
          obtain ⟨kind, addr, -, rfl⟩ := raised_of_halted hexec hrun hu
          exact .inr ⟨rfl, rfl, _, _, _, raised ..⟩

/-! Every step answers a next state. -/

/-- Settles O6: the instruction always answers a next state, and the cycle goes on from there. -/
theorem stepRunsTheDecodedInstruction : Obligations.StepRunsTheDecodedInstruction := by
  unfold Obligations.StepRunsTheDecodedInstruction
  intro s w i hs hw
  obtain ⟨t, hexec⟩ := exists_exec_eq_next i s.sampleKeys
  exact ⟨t, hexec, step_of_exec hs hw hexec⟩

/-- Settles O10: the quit cycle samples the keys, halts and uses up its inputs. -/
theorem quitHaltsBeforeTheFetch : Obligations.QuitHaltsBeforeTheFetch := by
  unfold Obligations.QuitHaltsBeforeTheFetch
  exact fun s hrun hquit => step_quit hrun hquit

/-- Settles O11: the halted cycle writes the two outputs and nothing else. -/
theorem haltedMachineChangesNothing : Obligations.HaltedMachineChangesNothing := by
  unfold Obligations.HaltedMachineChangesNothing
  exact fun s => step_halted

/-- Settles O12: a halted cycle, a quit request, a completed instruction and a fault each end in a next state. -/
theorem everyStepAnswersANextState : Obligations.EveryStepAnswersANextState := by
  unfold Obligations.EveryStepAnswersANextState
  intro s
  cases hrun : s.run with
  | halted => exact ⟨_, step_halted hrun⟩
  | running =>
    cases hquit : s.portsIn.quit with
    | true => exact ⟨_, step_quit hrun hquit⟩
    | false =>
      rcases step_completesOrRaises hrun hquit with ⟨t, -, hstep⟩ | ⟨kind, word, addr, hstep⟩
      · exact ⟨_, hstep⟩
      · exact ⟨_, hstep⟩

/-! The end of a cycle. -/

theorem portsIn_of_sameControl {s t : State} (h : SameControl s t) : t.portsIn = s.portsIn :=
  State.portsIn_congr h.feed h.cycle

/-- Settles O7: the rest of the cycle runs on the state `t` that the instruction left, which has the inputs of `s` still
unused. -/
theorem completedCycleTicksThenPresentsThenSounds : Obligations.CompletedCycleTicksThenPresentsThenSounds := by
  unfold Obligations.CompletedCycleTicksThenPresentsThenSounds
  intro s w i t hs hw hexec hrun
  have hcontrol : SameControl s.sampleKeys t := (effect_of_running hexec hrun).control
  have hports : t.portsIn = s.portsIn := (portsIn_of_sameControl hcontrol).trans (State.portsIn_sampleKeys s)
  refine ⟨_, step_of_exec hs hw hexec, ?_, ?_, endCycle_toneO hrun, ?_⟩
  · rw [endCycle_dt_toNat hrun, hports]
  · rw [endCycle_st_toNat hrun, hports]
  · rw [State.endCycle_eq hrun, hcontrol.feed, hcontrol.cycle]
    rfl

/-- Settles O8: an instruction that halts the machine has raised a fault, whose record holds `PC` and the word fetched, and
the rest of a halted cycle only uses up the inputs. -/
theorem faultedCycleEndsAtTheFault : Obligations.FaultedCycleEndsAtTheFault := by
  unfold Obligations.FaultedCycleEndsAtTheFault
  intro s w i t hs hw hexec hhalted
  obtain ⟨kind, addr, -, rfl⟩ := raised_of_halted hexec hs.1 hhalted
  refine ⟨_, ⟨rfl, rfl, rfl, rfl⟩, rfl, congrArg some (encode_of_decodeWord hw).1, ?_⟩
  rw [step_of_exec hs hw hexec, State.endCycle_halted hhalted]
  rfl

/-- Settles O9: above 0xFFE the fetch fails at the first of its two addresses that is outside memory. -/
theorem fetchOutsideMemoryHalts : Obligations.FetchOutsideMemoryHalts := by
  unfold Obligations.FetchOutsideMemoryHalts
  intro s hrun hquit hpc
  have hfetch : s.fetch = .error (if s.pc.toNat = 0xFFF then 0x1000 else s.pc.toNat) := by
    rw [State.fetch_eq, if_neg (Nat.not_le.mpr hpc), ← apply_ite Except.error]
  exact ⟨_, step_of_fetch_error hrun hquit hfetch, rfl, rfl, rfl, rfl⟩

/-- `CLS` and `DRW` mark the framebuffer dirty when they complete (R244). -/
theorem dirty_of_drawing {i : Instr} {s t : State} (hexec : exec i s = .next t) (hrun : t.run = .running)
    (hi : i = .cls ∨ ∃ x y n, i = .drw x y n) : t.dirty = true := by
  obtain rfl | ⟨x, y, n, rfl⟩ := hi
  · obtain rfl := Host.Outcome.next.inj hexec
    rfl
  · rcases execDrw_cases x y n s with ⟨u, hu, hframe, -⟩ | ⟨a, hfault, -⟩
    · obtain rfl : u = t := Host.Outcome.next.inj (hu.symm.trans hexec)
      rw [hframe]
    · obtain rfl := Host.Outcome.next.inj (hfault.symm.trans hexec)
      simp at hrun

/-- Settles O15: phase 4 presents what the instruction left in `dirty`, which is set by `CLS` and `DRW` and left alone, so
0, by every other instruction. -/
theorem framebufferPresentedExactlyAfterDrawing : Obligations.FramebufferPresentedExactlyAfterDrawing := by
  unfold Obligations.FramebufferPresentedExactlyAfterDrawing
  intro s w i t hs hw hdirty hstep hrun
  obtain ⟨u, hexec⟩ := exists_exec_eq_next i s.sampleKeys
  obtain rfl : u.endCycle = t := Host.Outcome.next.inj ((step_of_exec hs hw hexec).symm.trans hstep)
  have hurun : u.run = .running := (endCycle_run_eq u).symm.trans hrun
  refine ⟨endCycle_dirty hurun, ?_⟩
  rw [endCycle_presentO hurun]
  refine ⟨fun hu => ?_, dirty_of_drawing hexec hurun⟩
  refine Classical.byContradiction fun hi => ?_
  obtain ⟨hcls, hdrw⟩ := not_or.mp hi
  have hsame := ((effect_of_running hexec hurun).fb hcls fun x y n h => hdrw ⟨x, y, n, h⟩).2
  simp [hsame, hdirty] at hu

/-- Settles O16: of the four ways a step goes, a halted cycle does not start running and a completed instruction does not
end halted; a quit request leaves the fault record empty, and a fault fills it. -/
theorem runEndsOnlyByQuitOrFault : Obligations.RunEndsOnlyByQuitOrFault := by
  unfold Obligations.RunEndsOnlyByQuitOrFault
  intro s t hrun hnofault hstep hhalted
  rcases step_next_cases hstep with ⟨hs, -⟩ | ⟨-, hquit, rfl⟩ | ⟨w, i, u, -, -, -, hu, rfl⟩ | ⟨-, hquit, k, w, a, rfl⟩
  · simp [hrun] at hs
  · exact .inl ⟨hquit, rfl, hnofault⟩
  · simp [endCycle_run hu] at hhalted
  · exact .inr ⟨hquit, rfl, by simp⟩

/-- Settles O60: the jump sets `PC` to what it holds, so only the rest of the cycle changes anything, and it changes neither
`PC` nor memory, so the next word fetched is the same jump. -/
theorem selfJumpOnlyCountsTimersAndSamplesKeys : Obligations.SelfJumpOnlyCountsTimersAndSamplesKeys := by
  unfold Obligations.SelfJumpOnlyCountsTimersAndSamplesKeys
  rintro s ⟨hrun, w, nnn, hfetch, hw, hself⟩ hquit
  have hexec : exec (.jp nnn) s.sampleKeys = .next s.sampleKeys := by
    rw [exec_jp, setPc_absAddr_self (by rw [← absAddr_toNat, hself]; rfl)]
  have hrun' : s.sampleKeys.run = .running := hrun
  exact ⟨_, step_of_exec (aboutToRun_of_fetch hrun hquit hfetch) hw hexec, endCycle_run hrun', endCycle_v hrun',
    endCycle_pc hrun', endCycle_i hrun', endCycle_sp hrun', endCycle_stack hrun', endCycle_mem hrun', endCycle_fb hrun',
    endCycle_k hrun', endCycle_dt_toNat hrun', endCycle_st_toNat hrun',
    endCycle_run hrun', w, nnn, (endCycle_fetch hrun').trans hfetch, hw, hself.trans (endCycle_pc hrun').symm⟩

end Sys2Proof.Proofs
end

section
/-! ### The invariant of the machine (10_state.md R27, R52) -/

namespace Sys2Proof.Proofs
open Sys2Proof Sys2Proof.Machine

/-! Memory stays in canonical form. -/

/-- An instruction that completes keeps the canonical form of memory: only `LD B` and `LD [I]` store, inside memory. -/
theorem exec_mem_wf {i : Instr} {s t : State} (hwf : s.mem.wf) (hexec : exec i s = .next t) (hrun : t.run = .running) :
    t.mem.wf := by
  have heffect := effect_of_running hexec hrun
  by_cases hb : ∃ x, i = .ldB x
  · obtain ⟨x, rfl⟩ := hb
    have h := (execLdB_eq x s).symm.trans hexec
    split at h
    · obtain rfl := Host.Outcome.next.inj h
      exact Memory.wf_writeBytes hwf (by rw [bcdDigits]; simp only [List.length_cons, List.length_nil]; omega)
    · obtain rfl := Host.Outcome.next.inj h
      simp at hrun
  by_cases hd : ∃ x, i = .dump x
  · obtain ⟨x, rfl⟩ := hd
    have h := (execDump_eq x s).symm.trans hexec
    split at h
    · obtain rfl := Host.Outcome.next.inj h
      exact Memory.wf_writeBytes hwf (by rw [List.length_map, regsUpTo_length]; omega)
    · obtain rfl := Host.Outcome.next.inj h
      simp at hrun
  rw [heffect.mem (fun x h => hb ⟨x, h⟩) fun x h => hd ⟨x, h⟩]
  exact hwf

/-! The live stack entries are addresses that a `CALL` was fetched from. -/

/-- Every live stack entry is at most 0xFFE (R52). -/
def StackBounded (s : State) : Prop := ∀ j : Fin 16, j.val < s.sp.val → s.stack[j.val].toNat ≤ 0xFFE

/-- An instruction fetched from memory that completes keeps the live stack entries at most 0xFFE: `CALL` adds its own
address, `RET` takes one away, and no other instruction touches `SP` or an entry. -/
theorem exec_stackBounded {i : Instr} {s t : State} (hstack : StackBounded s) (hpc : s.pc.toNat ≤ 0xFFE)
    (hexec : exec i s = .next t) (hrun : t.run = .running) : StackBounded t := by
  have heffect := effect_of_running hexec hrun
  by_cases hcall : ∃ a, i = .call a
  · obtain ⟨a, rfl⟩ := hcall
    by_cases hsp : s.sp.val < 16
    · obtain rfl := Host.Outcome.next.inj ((execCall_of_lt a hsp).symm.trans hexec)
      intro j hj
      simp only [Vector.getElem_set] at hj ⊢
      split
      · exact hpc
      · exact hstack j (by omega)
    · obtain rfl := Host.Outcome.next.inj ((execCall_full a (by omega)).symm.trans hexec)
      simp at hrun
  have hentries : t.stack = s.stack := heffect.stack fun a h => hcall ⟨a, h⟩
  have hlive : t.sp.val ≤ s.sp.val := by
    by_cases hret : i = .ret
    · subst hret
      by_cases hsp : 0 < s.sp.val
      · obtain rfl := Host.Outcome.next.inj ((execRet_of_pos hsp).symm.trans hexec)
        exact Nat.sub_le ..
      · obtain rfl := Host.Outcome.next.inj ((execRet_empty (by omega)).symm.trans hexec)
        simp at hrun
    · exact Nat.le_of_eq (congrArg Fin.val (heffect.sp hret fun a h => hcall ⟨a, h⟩))
  intro j hj
  simp only [hentries]
  exact hstack j (by omega)

/-! `PC` is bounded. -/

/-- From an instruction in memory, R26's table leads to 0x10FE at most: `JP V0` reaches furthest (R27). -/
theorem pcAfter_le (i : Instr) {s : State} (hstack : StackBounded s) (hpc : s.pc.toNat ≤ 0xFFE) :
    pcAfter i s ≤ 0x10FE := by
  have skip (c : Bool) : (if c then s.pc.toNat + 4 else s.pc.toNat + 2) ≤ 0x10FE := by split <;> omega
  cases i with
  | jp nnn | call nnn =>
    simp only [pcAfter]
    omega
  | ret =>
    simp only [pcAfter]
    split
    · have := hstack ⟨s.sp.val - 1, by have := s.sp.isLt; omega⟩ (by simp only; omega)
      simp only at this
      omega
    · omega
  | jpV0 nnn =>
    simp only [pcAfter]
    omega
  | seImm | sneImm | seReg | sneReg | skp | sknp => exact skip _
  | ldVxK x =>
    simp only [pcAfter]
    split <;> omega
  | _ =>
    simp only [pcAfter]
    omega

/-- An instruction fetched from memory that completes leaves `PC` at the table's value itself. -/
theorem exec_pc_eq_pcAfter {i : Instr} {s t : State} (hstack : StackBounded s) (hpc : s.pc.toNat ≤ 0xFFE)
    (hexec : exec i s = .next t) (hrun : t.run = .running) : t.pc.toNat = pcAfter i s := by
  have := pcAfter_le i hstack hpc
  rw [(effect_of_running hexec hrun).pc, Nat.mod_eq_of_lt (by omega)]

theorem pc_le_of_aboutToRun {s : State} {w : Word} (h : s.AboutToRun w) : s.pc.toNat ≤ 0xFFE := by
  obtain ⟨-, -, hpc, -⟩ := h
  exact hpc

/-- Settles O17: of the four ways a step goes, three leave the machine halted with memory in canonical form; an instruction
that completes was fetched from memory, and keeps canonical form (`exec_mem_wf`), the stack (`exec_stackBounded`) and the
bound on `PC` (`pcAfter_le`), and the rest of the cycle clears `dirty`. -/
theorem stepKeepsTheMachineInvariant : Obligations.StepKeepsTheMachineInvariant := by
  unfold Obligations.StepKeepsTheMachineInvariant
  rintro s t ⟨hmem, hrunning⟩ hstep
  rcases step_next_cases hstep with
    ⟨hs, rfl⟩ | ⟨-, -, rfl⟩ | ⟨w, i, u, hs, hw, hexec, hu, rfl⟩ | ⟨-, -, k, w, a, rfl⟩
  · exact ⟨hmem, fun h => by simp [hs] at h⟩
  · exact ⟨hmem, fun h => by simp at h⟩
  · obtain ⟨hnofault, -, -, hstack⟩ := hrunning hs.1
    have hpc : s.sampleKeys.pc.toNat ≤ 0xFFE := pc_le_of_aboutToRun hs
    have hmem' : s.sampleKeys.mem.wf := hmem
    have hstack' : StackBounded s.sampleKeys := hstack
    refine ⟨?_, fun _ => ⟨?_, endCycle_dirty hu, ?_, ?_⟩⟩
    · rw [endCycle_mem hu]
      exact exec_mem_wf hmem' hexec hu
    · rw [endCycle_fault hu, (effect_of_running hexec hu).control.fault]
      exact hnofault
    · rw [endCycle_pc hu, exec_pc_eq_pcAfter hstack' hpc hexec hu]
      exact pcAfter_le i hstack' hpc
    · simp only [endCycle_sp hu, endCycle_stack hu]
      exact exec_stackBounded hstack' hpc hexec hu
  · exact ⟨Memory.wf_normalize _, fun h => by simp at h⟩

/-- Settles O18: an image that fits is written inside memory, over the empty memory, and one that does not is not
written; no entry of the stack is live. -/
theorem resetMeetsTheMachineInvariant : Obligations.ResetMeetsTheMachineInvariant := by
  unfold Obligations.ResetMeetsTheMachineInvariant
  refine ⟨by decide, fun image => ?_⟩
  unfold State.resetWith
  split
  case isTrue hlength =>
    rw [Config.maxImage] at hlength
    have hpc : State.reset.pc.toNat ≤ 0x10FE := by decide
    refine ⟨Memory.wf_writeBytes Memory.wf_nil (by rw [Config.entry]; omega), fun _ => ⟨rfl, rfl, hpc, ?_⟩⟩
    exact fun j hj => absurd hj (Nat.not_lt_zero _)
  case isFalse => exact ⟨Memory.wf_nil, fun h => by simp at h⟩

/-- Settles O59: the invariant and a fetch from memory keep the table's value at most 0x10FE, so reducing it modulo 65536
does nothing, and the rest of the cycle leaves `PC` alone. -/
theorem programCounterNeverWraps : Obligations.ProgramCounterNeverWraps := by
  unfold Obligations.ProgramCounterNeverWraps
  intro s w i t hinv hs hw hexec hrun
  obtain ⟨-, -, -, hstack⟩ := hinv.2 hs.1
  have hstack' : StackBounded s.sampleKeys := hstack
  have hpc : s.sampleKeys.pc.toNat ≤ 0xFFE := pc_le_of_aboutToRun hs
  have htable := exec_pc_eq_pcAfter hstack' hpc hexec hrun
  refine ⟨htable, ?_, _, step_of_exec hs hw hexec, endCycle_pc hrun⟩
  rw [htable]
  exact pcAfter_le i hstack' hpc

end Sys2Proof.Proofs
end

section
/-! ### Reset and the framebuffer port (10_state.md R46, R50, 70_reset_and_hazards.md R270 to R276) -/

namespace Sys2Proof.Proofs
open Sys2Proof Sys2Proof.Machine

/-- Past the 80 font bytes memory is 0x00 at reset (R50, R271). -/
theorem resetByte_of_ge {a : Nat} (ha : 0x50 ≤ a) : resetByte a = 0 := by
  have hlength : fontTable.length ≤ a - Config.fontBase := ha
  rw [resetByte, if_pos (show Config.fontBase ≤ a from Nat.zero_le a), List.getElem?_eq_none hlength]
  rfl

/-- Settles O19: the registers, the stack and the framebuffer are filled with one value each, memory lists nothing, so it
reads as the font and as 0x00 after it, and the other fields are as written. -/
theorem resetLeavesTheStatedValues : Obligations.ResetLeavesTheStatedValues := by
  unfold Obligations.ResetLeavesTheStatedValues
  refine ⟨rfl, fun r => Vector.getElem_replicate _, rfl, rfl, fun j => Vector.getElem_replicate _, rfl, rfl, rfl,
    fun r c => ?_, rfl, rfl, rfl, fun a => resetByte_of_ge, by decide⟩
  rw [State.pixel, State.reset, Vector.getElem_replicate, Vector.getElem_replicate]

theorem resetWith_of_le {image : List Byte} (h : image.length ≤ 3584) :
    State.resetWith image = { State.reset with mem := Memory.writeBytes [] 0x200 image } :=
  if_pos h

theorem resetWith_of_gt {image : List Byte} (h : 3584 < image.length) :
    State.resetWith image =
      { State.reset with run := .halted, fault := some ⟨.loadFault, 0x200, none, some image.length⟩ } :=
  if_neg (Nat.not_le.mpr h)

/-- Memory after reset with an image that fits: the image from 0x200 on, and the reset contents around it (R271). -/
theorem read_resetWith {image : List Byte} (h : image.length ≤ 3584) (a : Nat) :
    (State.resetWith image).mem.read a =
      if 0x200 ≤ a ∧ a < 0x200 + image.length then image.getD (a - 0x200) 0 else State.reset.mem.read a := by
  rw [resetWith_of_le h]
  exact Memory.read_writeBytes [] 0x200 image a

theorem read_resetWith_image {image : List Byte} (h : image.length ≤ 3584) {j : Nat} (hj : j < image.length) :
    (State.resetWith image).mem.read (0x200 + j) = image[j] := by
  rw [read_resetWith h, if_pos (by omega), Nat.add_sub_cancel_left, List.getD_eq_getElem?_getD,
    List.getElem?_eq_getElem hj, Option.getD_some]

/-- Settles O20: the image is written over the empty memory from 0x200 on, and no other field depends on it. -/
theorem resetLoadsTheImageFromAddress0x200 : Obligations.ResetLoadsTheImageFromAddress0x200 := by
  unfold Obligations.ResetLoadsTheImageFromAddress0x200
  intro image s h
  refine ⟨?_, fun j => read_resetWith_image h, fun a ha => ?_⟩
  · rw [State.assertReset, resetWith_of_le h]
  · exact (read_resetWith h a).trans (if_neg (by omega))

/-- With nothing loaded the first cycle is about to run 0x0000 at 0x200 (R276). -/
theorem resetWith_nil_aboutToRun {inp : CycleInput} (rest : List CycleInput) (hquit : inp.quit = false) :
    State.AboutToRun { State.resetWith [] with feed := inp :: rest } 0x0000 := by
  have hreset : State.resetWith [] = State.reset := resetWith_of_le (Nat.zero_le _)
  have hpc : State.reset.pc.toNat ≤ 0xFFE := by decide
  have hword : (State.reset.mem.read State.reset.pc.toNat).toNat * 256 +
      (State.reset.mem.read (State.reset.pc.toNat + 1)).toNat = (0x0000 : Word).toNat := by decide
  rw [hreset]
  exact ⟨rfl, hquit, hpc, hword⟩

/-- Settles O21: an oversized image takes the branch that loads nothing and halts, one that fits takes the other, whose
writes are read back; and the empty image leaves 0x0000 at 0x200, which the decoder refuses. -/
theorem oversizedImageIsALoadFault : Obligations.OversizedImageIsALoadFault := by
  unfold Obligations.OversizedImageIsALoadFault
  refine ⟨fun image h => ?_, fun image h => ?_, fun image h j => read_resetWith_image (Nat.le_of_eq h),
    fun inp rest hquit => ?_⟩
  · rw [resetWith_of_gt h]
    exact ⟨⟨rfl, rfl, rfl, rfl⟩, fun a => rfl, step_halted rfl⟩
  · rw [resetWith_of_le h]
    exact ⟨rfl, rfl⟩
  · have hrefused : decodeWord 0x0000 = .error .family0 := rfl
    exact ⟨_, step_of_decodeWord_error (resetWith_nil_aboutToRun rest hquit) hrefused, rfl, rfl, rfl, rfl⟩

/-- Settles O23: bit `row * 64 + col` is entry `row * 64 + col` of the list of pixels, whose row and column are its
quotient and remainder by 64. -/
theorem framebufferPortIsRowMajor : Obligations.FramebufferPortIsRowMajor := by
  unfold Obligations.FramebufferPortIsRowMajor
  intro s row col
  have hbit : row.val * 64 + col.val < 2048 := by omega
  have hrow : (row.val * 64 + col.val) / 64 = row.val := by omega
  have hcol : (row.val * 64 + col.val) % 64 = col.val := by omega
  have hentry : (List.finRange 2048)[row.val * 64 + col.val]? = some ⟨row.val * 64 + col.val, hbit⟩ := by simp [hbit]
  rw [State.fbO, BitVec.getLsbD_setWidth, decide_eq_true hbit, Bool.true_and, BitVec.getLsbD_ofBoolListLE,
    List.getD_eq_getElem?_getD, List.getElem?_map, hentry]
  simp only [Option.map_some, Option.getD_some, hrow, hcol]

end Sys2Proof.Proofs
end

section
/-! ### Calls, jumps with offset and key skips (40_control_transfer.md R121 to R126, 46_keypad_timers.md R201, R202) -/

namespace Sys2Proof.Proofs
open Sys2Proof Sys2Proof.Machine

/-- An instruction that raises a fault halts the machine with the record of that fault (60_exceptions.md R232). -/
theorem stoppedBy_of_raiseIn {i : Instr} {s : State} {kind : FaultKind} {addr : Option Nat} {w : Word}
    (hexec : exec i s = s.raiseIn i kind addr) (hw : encode i = w) :
    ∃ t, exec i s = .next t ∧ t.StoppedBy ⟨kind, s.pc, some w, addr⟩ :=
  ⟨_, hexec, rfl, by rw [State.raise_fault, hw], rfl, rfl⟩

theorem exec_call_of_lt {s : State} (nnn : Addr12) (h : s.sp.val < 16) :
    exec (.call nnn) s = .next { s with
      stack := s.stack.set s.sp.val s.pc, sp := ⟨s.sp.val + 1, Nat.succ_lt_succ h⟩, pc := BitVec.ofNat 16 nnn.toNat } := by
  rw [← absAddr_eq_ofNat]
  exact execCall_of_lt nnn h

theorem exec_ret_of_pos {s : State} (h : 0 < s.sp.val) :
    exec .ret s = .next { s with
      sp := ⟨s.sp.val - 1, by have := s.sp.isLt; omega⟩
      pc := s.stack[s.sp.val - 1]'(by have := s.sp.isLt; omega) + 2 } :=
  execRet_of_pos h

/-- Settles O25: with room the instruction pushes `PC` and jumps; with 16 entries it raises its fault. -/
theorem callPushesItsOwnAddress : Obligations.CallPushesItsOwnAddress := by
  unfold Obligations.CallPushesItsOwnAddress
  intro s nnn
  refine ⟨decodeWord_call nnn, fun h => ⟨_, exec_call_of_lt nnn h, rfl, rfl⟩, fun h => ?_⟩
  exact stoppedBy_of_raiseIn (execCall_full nnn h) rfl

/-- Settles O26: with an entry the instruction pops it into `PC` and adds 2; with none it raises its fault. -/
theorem returnPopsAndAddsTwo : Obligations.ReturnPopsAndAddsTwo := by
  unfold Obligations.ReturnPopsAndAddsTwo
  refine ⟨decodeWord_ret, fun s => ⟨fun h => ⟨_, exec_ret_of_pos h, Nat.sub_add_cancel h, rfl⟩, fun h => ?_⟩⟩
  exact stoppedBy_of_raiseIn (execRet_empty h) rfl

/-- Settles O27: the entry that `CALL` wrote is the one below the new `SP`, which is the one that `RET` pops. -/
theorem callThenReturnComesBackAfterTheCall : Obligations.CallThenReturnComesBackAfterTheCall := by
  unfold Obligations.CallThenReturnComesBackAfterTheCall
  intro s nnn h
  refine ⟨_, exec_call_of_lt nnn h, Vector.getElem_set_self _, rfl, ?_, fun u hsp hentry => ?_⟩
  · rw [← absAddr_eq_ofNat, absAddr_toNat]
  · have hval : u.sp.val = s.sp.val + 1 := congrArg Fin.val hsp
    have hpop : u.sp.val - 1 = s.sp.val := by omega
    refine ⟨_, exec_ret_of_pos (by omega), Fin.ext hpop, ?_⟩
    simp only [hpop, hentry]

theorem exec_jpV0 (nnn : Addr12) (s : State) :
    exec (.jpV0 nnn) s = .next (s.setPc (offsetOf (s.reg 0) + absAddr nnn)) := rfl

/-- Settles O28: the sum of a byte and a 12-bit address is below 65536, so the addition modulo 65536 is exact. -/
theorem jumpWithOffsetAddsV0 : Obligations.JumpWithOffsetAddsV0 := by
  unfold Obligations.JumpWithOffsetAddsV0
  intro s nnn
  refine ⟨decodeWord_jpV0 nnn, _, exec_jpV0 nnn s, ?_, rfl⟩
  rw [State.setPc_pc, BitVec.toNat_add, offsetOf_toNat, absAddr_toNat]
  omega

theorem exec_skp_of_le {s : State} {x : RegIdx} (h : (s.reg x).toNat ≤ 15) :
    exec (.skp x) s = .next (s.setPc (if s.k.getLsbD (s.reg x).toNat then s.pc + 4 else s.pc + 2)) :=
  (if_neg (Nat.not_lt.mpr h)).trans (congrArg _ (s.skipIf_eq _))

theorem exec_sknp_of_le {s : State} {x : RegIdx} (h : (s.reg x).toNat ≤ 15) :
    exec (.sknp x) s = .next (s.setPc (if s.k.getLsbD (s.reg x).toNat then s.pc + 2 else s.pc + 4)) := by
  refine (if_neg (Nat.not_lt.mpr h)).trans (congrArg _ ((s.skipIf_eq _).trans ?_))
  cases s.k.getLsbD (s.reg x).toNat <;> rfl

theorem exec_skp_of_gt {s : State} {x : RegIdx} (h : 15 < (s.reg x).toNat) :
    exec (.skp x) s = s.raiseIn (.skp x) .keyIndexOutOfRange (some (s.reg x).toNat) :=
  if_pos h

theorem exec_sknp_of_gt {s : State} {x : RegIdx} (h : 15 < (s.reg x).toNat) :
    exec (.sknp x) s = s.raiseIn (.sknp x) .keyIndexOutOfRange (some (s.reg x).toNat) :=
  if_pos h

/-- Settles O51: up to 15 each instruction is one `setPc`, of the two places the level of the key chooses between; above
15 each raises its fault. -/
theorem keySkipsTestTheNamedKey : Obligations.KeySkipsTestTheNamedKey := by
  unfold Obligations.KeySkipsTestTheNamedKey
  intro s x
  refine ⟨decodeWord_skp x, decodeWord_sknp x, fun h => ⟨exec_skp_of_le h, exec_sknp_of_le h⟩, fun h => ⟨?_, ?_⟩⟩
  · exact stoppedBy_of_raiseIn (exec_skp_of_gt h) (wordX_eq_ofNat 0xE x 0x9E)
  · exact stoppedBy_of_raiseIn (exec_sknp_of_gt h) (wordX_eq_ofNat 0xE x 0xA1)

end Sys2Proof.Proofs
end

section
/-! ### Random byte, register copy, sum into the index (42_immediate.md R144, 43_alu.md R151, 44_index_memory.md R173) -/

namespace Sys2Proof.Proofs
open Sys2Proof Sys2Proof.Machine

theorem exec_rnd (x : RegIdx) (nn : Byte) (s : State) :
    exec (.rnd x nn) s = .next (s.setReg x (s.portsIn.rnd &&& nn)).advance := rfl

theorem exec_ldReg (x y : RegIdx) (s : State) : exec (.ldReg x y) s = .next (s.setReg x (s.reg y)).advance := rfl

theorem exec_addI (x : RegIdx) (s : State) :
    exec (.addI x) s = .next (s.setI (s.i + offsetOf (s.reg x))).advance := rfl

/-- Settles O32: the instruction is one register write, whose bits are those of the random byte inside the mask. -/
theorem randomByteIsMasked : Obligations.RandomByteIsMasked := by
  unfold Obligations.RandomByteIsMasked
  intro s x nn
  obtain ⟨t, hexec, hbits, hother, hframe⟩ := next_of_exec_setReg (exec_rnd x nn s) fun _ => BitVec.getLsbD_and
  refine ⟨decodeWord_rnd x nn, t, hexec, hbits, ?_, hother, hframe⟩
  apply BitVec.eq_of_getLsbD_eq
  intro j hj
  rw [BitVec.getLsbD_and, hbits, BitVec.getLsbD_not, decide_eq_true hj, Bool.true_and, Bool.and_assoc,
    Bool.and_not_self, Bool.and_false]
  exact BitVec.getLsbD_zero.symm

/-- Settles O33: the word is format XY of family 0x8, and the instruction is one register write, of the byte in `V[y]`. -/
theorem registerCopy : Obligations.RegisterCopy := by
  unfold Obligations.RegisterCopy
  intro s x y
  refine ⟨decodeWord_ldReg x y, _, exec_ldReg x y s, ?_, fun r hr => ?_, rfl⟩
  · rw [State.reg_advance, State.reg_setReg, if_pos rfl]
  · rw [State.reg_advance, State.reg_setReg, if_neg hr]

/-- Settles O40: the word is format X of family 0xF, and the instruction is one write of `I`, of a 16-bit sum. -/
theorem addToIndexWrapsAt65536 : Obligations.AddToIndexWrapsAt65536 := by
  unfold Obligations.AddToIndexWrapsAt65536
  intro s x
  refine ⟨decodeWord_addI x, next_of_exec_setI (exec_addI x s) ?_⟩
  rw [BitVec.toNat_add, offsetOf_toNat]

end Sys2Proof.Proofs
end

section
/-! ### Stores and loads (20_memory.md R74, 44_index_memory.md R176 to R180) -/

namespace Sys2Proof.Proofs
open Sys2Proof Sys2Proof.Machine

/-- The first address outside memory of an access that starts at `a` and reaches outside (20_memory.md R69). -/
theorem max_memSize_eq (a : Nat) : max a 0x1000 = if 0xFFF < a then a else 0x1000 := by
  split <;> omega

/-! What memory holds after a store. -/

/-- The three digits are at the three addresses, and every other byte is as before (R176). -/
theorem read_writeBytes_bcd (s : State) (x : RegIdx) (a : Nat) :
    ((s.mem.writeBytes s.i.toNat (bcdDigits (s.reg x))).read a).toNat = byteAfterBcd s x a := by
  have digit {n : Nat} (hn : n < 256) : (BitVec.ofNat 8 n).toNat = n := by
    rw [BitVec.toNat_ofNat, Nat.mod_eq_of_lt hn]
  have hlength : (bcdDigits (s.reg x)).length = 3 := rfl
  rw [Memory.read_writeBytes, hlength]
  unfold byteAfterBcd
  split
  case isTrue hin =>
    obtain h | h | h : a = s.i.toNat ∨ a = s.i.toNat + 1 ∨ a = s.i.toNat + 2 := by omega
    · rw [if_pos h, h, Nat.sub_self]
      exact digit (by omega)
    · rw [if_neg (by omega), if_pos h, h, Nat.add_sub_cancel_left]
      exact digit (by omega)
    · rw [if_neg (by omega), if_neg (by omega), if_pos h, h, Nat.add_sub_cancel_left]
      exact digit (by omega)
  case isFalse hout =>
    rw [if_neg (by omega), if_neg (by omega), if_neg (by omega)]

/-- The registers `0` to `x` are at the successive addresses from `I`, and every other byte is as before (R178). -/
theorem read_writeBytes_dump (s : State) (x : RegIdx) (a : Nat) :
    ((s.mem.writeBytes s.i.toNat ((regsUpTo x).map s.reg)).read a).toNat = byteAfterDump s x a := by
  rw [Memory.read_writeBytes, List.length_map, regsUpTo_length]
  unfold byteAfterDump
  by_cases hin : s.i.toNat ≤ a ∧ a ≤ s.i.toNat + x.val
  · have hidx : (Fin.ofNat 16 (a - s.i.toNat)).val = a - s.i.toNat := Nat.mod_eq_of_lt (by omega)
    rw [if_pos hin, if_pos (by omega), ← regsUpTo_map_getD x s.reg (Fin.ofNat 16 (a - s.i.toNat)) (by omega), hidx]
  · rw [if_neg hin, if_neg (by omega)]

/-! The three instructions, by where their accesses lie. -/

theorem exec_ldB_of_le {s : State} {x : RegIdx} (h : s.i.toNat ≤ 0xFFD) :
    exec (.ldB x) s =
      .next { s with mem := s.mem.writeBytes s.i.toNat (bcdDigits (s.reg x)), pc := s.pc + 2 } :=
  (execLdB_eq x s).trans (if_pos h)

theorem exec_ldB_of_gt {s : State} {x : RegIdx} (h : 0xFFD < s.i.toNat) :
    exec (.ldB x) s =
      s.raiseIn (.ldB x) .addressOutOfRange (some (if 0xFFF < s.i.toNat then s.i.toNat else 0x1000)) := by
  rw [← max_memSize_eq]
  exact (execLdB_eq x s).trans (if_neg (by omega))

theorem exec_dump_of_le {s : State} {x : RegIdx} (h : s.i.toNat + x.val ≤ 0xFFF) :
    exec (.dump x) s =
      .next { s with mem := s.mem.writeBytes s.i.toNat ((regsUpTo x).map s.reg)
                     i := s.i + BitVec.ofNat 16 (x.val + 1), pc := s.pc + 2 } :=
  (execDump_eq x s).trans (if_pos h)

theorem exec_dump_of_gt {s : State} {x : RegIdx} (h : 0xFFF < s.i.toNat + x.val) :
    exec (.dump x) s =
      s.raiseIn (.dump x) .addressOutOfRange (some (if 0xFFF < s.i.toNat then s.i.toNat else 0x1000)) := by
  rw [← max_memSize_eq]
  exact (execDump_eq x s).trans (if_neg (by omega))

theorem exec_load_of_le {s : State} {x : RegIdx} (h : s.i.toNat + x.val ≤ 0xFFF) :
    ∃ t, exec (.load x) s = .next t ∧
      t = { s with v := t.v, i := s.i + BitVec.ofNat 16 (x.val + 1), pc := s.pc + 2 } ∧
      ∀ q : RegIdx, t.reg q = if q.val ≤ x.val then s.mem.read (s.i.toNat + q.val) else s.reg q := by
  have hcases := execLoad_cases x s
  rw [if_pos h] at hcases
  exact hcases

theorem exec_load_of_gt {s : State} {x : RegIdx} (h : 0xFFF < s.i.toNat + x.val) :
    exec (.load x) s =
      s.raiseIn (.load x) .addressOutOfRange (some (if 0xFFF < s.i.toNat then s.i.toNat else 0x1000)) := by
  have hcases := execLoad_cases x s
  rw [if_neg (by omega), max_memSize_eq] at hcases
  exact hcases

/-- `I` advanced past the last register, inside memory or right after it, does not wrap (decision D31). -/
theorem index_advance_toNat {a : Word} {x : RegIdx} (h : a.toNat + x.val ≤ 0xFFF) :
    (a + BitVec.ofNat 16 (x.val + 1)).toNat = a.toNat + x.val + 1 := by
  rw [BitVec.toNat_add, BitVec.toNat_ofNat]
  omega

/-- Settles O41: the three digits are written from `I` on and read back; with `I` above 0xFFD the write faults. -/
theorem bcdDigitsAreStored : Obligations.BcdDigitsAreStored := by
  unfold Obligations.BcdDigitsAreStored
  intro s x
  refine ⟨decodeWord_ldB x, fun h => ⟨_, exec_ldB_of_le h, rfl, ?_, ?_, ?_, fun a ha => ?_⟩, fun h => ?_⟩
  · rw [read_writeBytes_bcd, byteAfterBcd, if_pos rfl]
  · rw [read_writeBytes_bcd, byteAfterBcd, if_neg (by omega), if_pos rfl]
  · rw [read_writeBytes_bcd, byteAfterBcd, if_neg (by omega), if_neg (by omega), if_pos rfl]
  · apply BitVec.eq_of_toNat_eq
    rw [read_writeBytes_bcd, byteAfterBcd, if_neg (by omega), if_neg (by omega), if_neg (by omega)]
  · exact stoppedBy_of_raiseIn (exec_ldB_of_gt h) (wordX_eq_ofNat 0xF x 0x33)

/-- Settles O42: the registers are written from `I` on and read back; with the last address outside memory the loop faults
at the first one outside. -/
theorem registerDumpStoresAndAdvancesIndex : Obligations.RegisterDumpStoresAndAdvancesIndex := by
  unfold Obligations.RegisterDumpStoresAndAdvancesIndex
  intro s x
  refine ⟨decodeWord_dump x, fun h => ⟨_, exec_dump_of_le h, index_advance_toNat h, rfl, fun j hj => ?_, fun a ha => ?_⟩,
    fun h => ?_⟩
  · have hidx : Fin.ofNat 16 (s.i.toNat + j.val - s.i.toNat) = j := by
      rw [Nat.add_sub_cancel_left]
      exact Fin.ofNat_val_eq_self j
    apply BitVec.eq_of_toNat_eq
    rw [read_writeBytes_dump, byteAfterDump, if_pos (by omega), hidx]
  · apply BitVec.eq_of_toNat_eq
    rw [read_writeBytes_dump, byteAfterDump, if_neg (by omega)]
  · exact stoppedBy_of_raiseIn (exec_dump_of_gt h) (wordX_eq_ofNat 0xF x 0x55)

/-- Settles O43: the loop reads the registers from `I` on; with the last address outside memory it faults at the first one
outside. -/
theorem registerLoadReadsAndAdvancesIndex : Obligations.RegisterLoadReadsAndAdvancesIndex := by
  unfold Obligations.RegisterLoadReadsAndAdvancesIndex
  intro s x
  refine ⟨decodeWord_load x, fun h => ?_, fun h => ?_⟩
  · obtain ⟨t, hexec, hframe, hreg⟩ := exec_load_of_le h
    have hi : t.i = s.i + BitVec.ofNat 16 (x.val + 1) := by rw [hframe]
    refine ⟨t, hexec, ?_, ?_, hreg⟩
    · rw [hi, index_advance_toNat h]
    · rw [hi]
      exact hframe
  · exact stoppedBy_of_raiseIn (exec_load_of_gt h) (wordX_eq_ofNat 0xF x 0x65)

/-! The next fetch. -/

/-- After the cycle of an instruction that completes and moves `PC` on by 2, the word fetched next is made of the two bytes
at the new `PC` in the memory that the instruction left (20_memory.md R66, R74). -/
theorem next_fetch_of_exec {s u : State} {w : Word} {i : Instr} (hs : s.AboutToRun w) (hw : decodeWord w = .ok i)
    (hle : s.pc.toNat ≤ 0xFFC) (hexec : exec i s.sampleKeys = .next u) (hpc : u.pc = s.pc + 2) (hrun : u.run = .running) :
    ∃ t v, step s = .next t ∧ t.run = .running ∧ t.pc = s.pc + 2 ∧ t.fetch = .ok v ∧
      v.toNat = (u.mem.read (s.pc.toNat + 2)).toNat * 256 + (u.mem.read (s.pc.toNat + 3)).toNat := by
  have hval : u.pc.toNat = s.pc.toNat + 2 := by
    rw [hpc, pc_add_two_toNat]
    omega
  refine ⟨_, _, step_of_exec hs hw hexec, endCycle_run hrun, (endCycle_pc hrun).trans hpc, ?_, wordOfBytes_toNat _ _⟩
  rw [endCycle_fetch hrun, State.fetch_eq, hval, if_pos (by omega)]

/-- Settles O44: the cycle after the store changes neither memory nor `PC`, so the next fetch reads what was stored, or
what was there before. -/
theorem storeIsSeenByTheNextFetch : Obligations.StoreIsSeenByTheNextFetch := by
  unfold Obligations.StoreIsSeenByTheNextFetch
  intro s x hle
  refine ⟨fun hs h => ?_, fun hs h => ?_⟩
  · have hrun : s.run = .running := hs.1
    obtain ⟨t, v, hstep, htrun, hpc, hfetch, hv⟩ :=
      next_fetch_of_exec hs (decodeWord_dump x) hle (exec_dump_of_le (s := s.sampleKeys) h) rfl hrun
    refine ⟨t, v, hstep, htrun, hpc, hfetch, hv.trans ?_⟩
    rw [read_writeBytes_dump, read_writeBytes_dump]
    rfl
  · have hrun : s.run = .running := hs.1
    have hi : s.sampleKeys.i.toNat ≤ 0xFFD := by
      rw [State.sampleKeys_i]
      omega
    obtain ⟨t, v, hstep, htrun, hpc, hfetch, hv⟩ :=
      next_fetch_of_exec hs (decodeWord_ldB x) hle (exec_ldB_of_le hi) rfl hrun
    refine ⟨t, v, hstep, htrun, hpc, hfetch, hv.trans ?_⟩
    rw [read_writeBytes_bcd, read_writeBytes_bcd]
    rfl

end Sys2Proof.Proofs
end

section
/-! ### Drawing (45_display.md R192 to R195) -/

namespace Sys2Proof.Proofs
open Sys2Proof Sys2Proof.Machine

/-! Which rows `DRW` reads: the row base moves by 1 at most, and only while all rows stay on the screen. -/

/-- The row base stays the same during the rows up to `last`, or `VF` holds it and moves it from 0 to 1, where every row is
on the screen (R193). -/
def RowsKeepOnScreen (y : RegIdx) (last : Nat) (s : State) : Prop :=
  y ≠ vf ∨ (s.reg vf = 0 ∨ s.reg vf = 1) ∧ last ≤ 31

/-- The columns of a row leave the rows on the screen that were there. -/
theorem drawCols_onScreen {x y : RegIdx} {row : Fin 32} {b : Byte} {cs : List Nat} {s : State} {last j : Nat}
    (hy : RowsKeepOnScreen y last s) (hj : j < last) :
    spriteTop ((drawCols x row b cs s).reg y) + j < 32 ↔ spriteTop (s.reg y) + j < 32 := by
  by_cases hvf : y = vf
  · obtain hne | ⟨hbit, hlast⟩ := hy
    · exact absurd hvf hne
    · have small {c : Byte} (hc : c = 0 ∨ c = 1) : spriteTop c + j < 32 := by
        have htop : spriteTop c ≤ 1 := by rcases hc with rfl | rfl <;> decide
        omega
      rw [hvf]
      exact iff_of_true (small (drawCols_vf x row b cs s hbit)) (small hbit)
  · rw [drawCols_reg x row b cs s y hvf]

/-- The rows that are on the screen, among the next `k` rows from row `r` on, lie in memory (R192). -/
def RowsReadable (y : RegIdx) (k r : Nat) (s : State) : Prop :=
  ∀ j, r ≤ j → j < r + k → spriteTop (s.reg y) + j < 32 → s.i.toNat + j ≤ 0xFFF

/-- The row loop completes when its on-screen rows lie in memory, and fails at the first address outside when they do not
(R192). -/
theorem drawRows_cases (x y : RegIdx) (k r : Nat) (s : State) (hy : RowsKeepOnScreen y (r + k) s) :
    (RowsReadable y k r s → ∃ t, drawRows x y k r s = .ok t) ∧
      (¬ RowsReadable y k r s → drawRows x y k r s = .error (max (s.i.toNat + r) 0x1000)) := by
  induction k generalizing r s with
  | zero => exact ⟨fun _ => ⟨s, rfl⟩, fun h => absurd (fun j h1 h2 => by omega) h⟩
  | succ k ih =>
    simp only [drawRows, State.memRead_eq]
    by_cases h32 : spriteTop (s.reg y) + r < 32
    · rw [dif_pos h32]
      by_cases hin : s.i.toNat + r ≤ 0xFFF
      · simp only [if_pos hin]
        generalize hs' : drawCols x ⟨spriteTop (s.reg y) + r, h32⟩ (s.mem.read (s.i.toNat + r)) spriteCols s = s'
        have hi : s'.i = s.i := by rw [← hs', drawCols_frame]
        have hscreen (j : Nat) (hj : j < r + (k + 1)) :
            spriteTop (s'.reg y) + j < 32 ↔ spriteTop (s.reg y) + j < 32 := by
          rw [← hs']
          exact drawCols_onScreen hy hj
        have hy' : RowsKeepOnScreen y (r + 1 + k) s' := by
          refine hy.imp_right fun ⟨hbit, hlast⟩ => ⟨?_, by omega⟩
          rw [← hs']
          exact drawCols_vf _ _ _ _ _ hbit
        have hrest := ih (r + 1) s' hy'
        have hsplit : RowsReadable y k (r + 1) s' ↔ RowsReadable y (k + 1) r s := by
          unfold RowsReadable
          rw [hi]
          constructor
          · intro h j h1 h2 h3
            by_cases hjr : j = r
            · rw [hjr]
              exact hin
            · exact h j (by omega) (by omega) ((hscreen j h2).mpr h3)
          · exact fun h j h1 h2 h3 => h j (by omega) (by omega) ((hscreen j (by omega)).mp h3)
        have hmax : max (s.i.toNat + (r + 1)) 0x1000 = max (s.i.toNat + r) 0x1000 := by omega
        rw [hsplit, hi, hmax] at hrest
        exact hrest
      · have hmax : max (s.i.toNat + r) 0x1000 = s.i.toNat + r := by omega
        refine ⟨fun h => absurd (h r (by omega) (by omega) h32) hin, fun _ => ?_⟩
        simp only [if_neg hin, hmax]
    · rw [dif_neg h32]
      exact ⟨fun _ => ⟨s, rfl⟩, fun h => absurd (fun j h1 h2 h3 => by omega) h⟩

/-! `DRW` as its row loop, which starts with `VF` cleared. -/

theorem exec_drw_of_ok {s u : State} {x y : RegIdx} {n : Nat} (h : drawRows x y n 0 (s.setReg vf 0) = .ok u) :
    exec (.drw x y n) s = .next u.markDirty.advance := by
  show execDrw x y n s = _
  rw [execDrw, h]
  rfl

theorem exec_drw_of_error {s : State} {x y : RegIdx} {n a : Nat} (h : drawRows x y n 0 (s.setReg vf 0) = .error a) :
    exec (.drw x y n) s = s.raiseIn (.drw x y n) .addressOutOfRange (some a) := by
  show execDrw x y n s = _
  rw [execDrw, h]
  rfl

/-- A completed `DRW` leaves `VF` at 0 or 1 and changes nothing but `VF`, the framebuffer, `dirty` and `PC`. -/
theorem drawn_frame {s u : State} {x y : RegIdx} {n : Nat} (h : drawRows x y n 0 (s.setReg vf 0) = .ok u) :
    (u.reg vf = 0 ∨ u.reg vf = 1) ∧ (∀ r, r ≠ vf → u.reg r = s.reg r) ∧
      u.markDirty.advance = { s with v := u.v, fb := u.fb, dirty := true, pc := s.pc + 2 } := by
  obtain ⟨hframe, hreg, hvf⟩ := drawRows_ok _ _ _ _ _ _ h
  refine ⟨hvf (.inl ?_), fun r hr => ?_, ?_⟩
  · rw [State.reg_setReg, if_pos rfl]
  · rw [hreg r hr, State.reg_setReg, if_neg hr]
  · rw [hframe]
    rfl

/-! Completing and failing. -/

theorem spriteReadable_iff (s : State) (y : RegIdx) (n : Nat) :
    SpriteReadable s y n ↔ RowsReadable y n 0 s := by
  unfold SpriteReadable RowsReadable spriteTop
  exact ⟨fun h j _ h2 h3 => h j (by omega) (by omega), fun h r h1 h2 => h r (by omega) (by omega) (by omega)⟩

/-- With at most 15 rows, and `VF` cleared, the rows that are on the screen stay there. -/
theorem rowsKeepOnScreen_of_le {n : Nat} (hn : n ≤ 15) (y : RegIdx) (s : State) :
    RowsKeepOnScreen y (0 + n) (s.setReg vf 0) :=
  .inr ⟨.inl (by rw [State.reg_setReg, if_pos rfl]), by omega⟩

theorem drawRows_of_readable (x : RegIdx) {y : RegIdx} {s : State} {n : Nat} (hn : n ≤ 15)
    (hread : SpriteReadable (s.setReg vf 0) y n) : ∃ u, drawRows x y n 0 (s.setReg vf 0) = .ok u :=
  (drawRows_cases x y n 0 _ (rowsKeepOnScreen_of_le hn y s)).1 ((spriteReadable_iff _ _ _).mp hread)

theorem drawRows_of_not_readable (x : RegIdx) {y : RegIdx} {s : State} {n : Nat} (hn : n ≤ 15)
    (hread : ¬ SpriteReadable (s.setReg vf 0) y n) :
    drawRows x y n 0 (s.setReg vf 0) = .error (if 0xFFF < s.i.toNat then s.i.toNat else 0x1000) := by
  rw [← max_memSize_eq]
  exact (drawRows_cases x y n 0 _ (rowsKeepOnScreen_of_le hn y s)).2 fun h => hread ((spriteReadable_iff _ _ _).mpr h)

/-- Settles O48: the row loop completes when its on-screen rows lie in memory, whatever it does to `VF`. -/
theorem drawCompletesOnEveryRegisterChoice : Obligations.DrawCompletesOnEveryRegisterChoice := by
  unfold Obligations.DrawCompletesOnEveryRegisterChoice
  intro s x y n hn hread
  obtain ⟨u, hu⟩ := drawRows_of_readable x hn hread
  exact ⟨_, exec_drw_of_ok hu, drawn_frame hu⟩

/-- Settles O50: the row loop fails at the first address outside when its on-screen rows reach there. -/
theorem drawOutsideMemoryRaises : Obligations.DrawOutsideMemoryRaises := by
  unfold Obligations.DrawOutsideMemoryRaises
  intro s x y n hn hread
  exact ⟨decodeWord_drw x y (by omega), stoppedBy_of_raiseIn (exec_drw_of_error (drawRows_of_not_readable x hn hread)) rfl⟩

/-! The pixels, while the coordinates stay the same. -/

/-- The pixels under the rows of the loop are the set `P` of R194. -/
theorem rowsHit_eq_spritePixel (s : State) (x y : RegIdx) (n : Nat) (row : Fin 32) (col : Fin 64) :
    rowsHit s (spriteTop (s.reg y)) (spriteLeft (s.reg x)) n 0 row col = spritePixel s x y n row col := by
  rw [Bool.eq_iff_iff]
  simp only [rowsHit, rowHits_spriteCols, spritePixel, Bool.and_eq_true, decide_eq_true_eq, and_assoc]
  simp only [spriteTop, spriteLeft, Nat.add_zero]

/-- The set `P` depends on the two coordinates, on `I` and on memory only. -/
theorem spritePixel_congr {s t : State} {x y : RegIdx} (hx : t.reg x = s.reg x) (hy : t.reg y = s.reg y)
    (hi : t.i = s.i) (hmem : t.mem = s.mem) (n : Nat) : spritePixel t x y n = spritePixel s x y n := by
  unfold spritePixel
  rw [hx, hy, hi, hmem]

theorem spriteReadable_congr {s t : State} {y : RegIdx} {n : Nat} (hy : t.reg y = s.reg y) (hi : t.i = s.i) :
    SpriteReadable t y n ↔ SpriteReadable s y n := by
  unfold SpriteReadable
  rw [hy, hi]

/-- `DRW` inverts exactly the pixels of `P` and sets `VF` exactly if one of them was 1, when neither coordinate is in `VF`
or no pixel of `P` is hit (R192, R194). -/
theorem exec_drw_inverts {s : State} {x y : RegIdx} {n : Nat} (hread : SpriteReadable (s.setReg vf 0) y n)
    (hxy : x ≠ vf ∧ y ≠ vf ∨
      ∀ row col, spritePixel (s.setReg vf 0) x y n row col = true → s.pixel row col = false) :
    ∃ t, exec (.drw x y n) s = .next t ∧
      (∀ row col, t.pixel row col = (s.pixel row col != spritePixel (s.setReg vf 0) x y n row col)) ∧
      (t.reg vf = if ∃ row col, spritePixel (s.setReg vf 0) x y n row col = true ∧ s.pixel row col = true then 1 else 0) ∧
      (∀ r, r ≠ vf → t.reg r = s.reg r) ∧ t = { s with v := t.v, fb := t.fb, dirty := true, pc := s.pc + 2 } := by
  have hvf : (s.setReg vf 0).reg vf = 0 := by rw [State.reg_setReg, if_pos rfl]
  have hfixed : (x ≠ vf ∧ y ≠ vf ∨ (s.setReg vf 0).reg vf = 1) ∨ (s.setReg vf 0).reg vf = 0 ∧ ∀ row col,
      rowsHit (s.setReg vf 0) (spriteTop ((s.setReg vf 0).reg y)) (spriteLeft ((s.setReg vf 0).reg x)) n 0 row col = true →
        (s.setReg vf 0).pixel row col = false := by
    simp only [rowsHit_eq_spritePixel]
    exact hxy.imp .inl fun hno => ⟨hvf, hno⟩
  obtain ⟨u, hu, hpixel, hflag⟩ := drawRows_spec x y n 0 _ ((spriteReadable_iff _ _ _).mp hread) hfixed
  simp only [rowsHit_eq_spritePixel, hvf] at hpixel hflag
  obtain ⟨-, hreg, hframe⟩ := drawn_frame hu
  exact ⟨_, exec_drw_of_ok hu, hpixel, hflag, hreg, hframe⟩

/-- With neither `x` nor `y` 15, clearing `VF` first makes no difference to the pixels. -/
theorem exec_drw_inverts_of_ne {s : State} {x y : RegIdx} {n : Nat} (hx : x ≠ 15) (hy : y ≠ 15)
    (hread : SpriteReadable s y n) :
    ∃ t, exec (.drw x y n) s = .next t ∧
      (∀ row col, t.pixel row col = (s.pixel row col != spritePixel s x y n row col)) ∧
      (t.reg 15 = if ∃ row col, spritePixel s x y n row col = true ∧ s.pixel row col = true then 1 else 0) ∧
      (∀ r, r ≠ 15 → t.reg r = s.reg r) ∧ t = { s with v := t.v, fb := t.fb, dirty := true, pc := s.pc + 2 } := by
  have hregx : (s.setReg vf 0).reg x = s.reg x := by rw [State.reg_setReg, if_neg (show x ≠ vf from hx)]
  have hregy : (s.setReg vf 0).reg y = s.reg y := by rw [State.reg_setReg, if_neg (show y ≠ vf from hy)]
  rw [← spritePixel_congr hregx hregy (State.setReg_i ..) (State.setReg_mem ..) n]
  exact exec_drw_inverts ((spriteReadable_congr hregy (State.setReg_i ..)).mpr hread) (.inl ⟨hx, hy⟩)

/-- A flag that says whether `p` holds is 1 exactly when it does. -/
theorem flag_eq_one_iff {b : Byte} {p : Prop} [Decidable p] (h : b = if p then 1 else 0) : b = 1 ↔ p := by
  rw [h]
  split
  case isTrue hp => exact iff_of_true rfl hp
  case isFalse hp => exact iff_of_false (by decide) hp

theorem flag_eq_zero_or_one {b : Byte} {p : Prop} [Decidable p] (h : b = if p then 1 else 0) : b = 0 ∨ b = 1 := by
  rw [h]
  split
  · exact .inr rfl
  · exact .inl rfl

/-- Settles O46: neither coordinate is in `VF`, so the sprite stays in one place while it is drawn. -/
theorem drawInvertsExactlyTheSpritePixels : Obligations.DrawInvertsExactlyTheSpritePixels := by
  unfold Obligations.DrawInvertsExactlyTheSpritePixels
  intro s x y n hx hy hread
  obtain ⟨t, hexec, hpixel, hflag, hreg, hframe⟩ := exec_drw_inverts_of_ne hx hy hread
  exact ⟨t, hexec, hpixel, flag_eq_zero_or_one hflag, flag_eq_one_iff hflag, hreg, hframe⟩

/-- Settles O47: the first draw changes neither coordinate, nor `I`, nor memory, so the second inverts the same pixels
again, and hits a pixel exactly where the first set one. -/
theorem drawingTwiceRestoresTheFramebuffer : Obligations.DrawingTwiceRestoresTheFramebuffer := by
  unfold Obligations.DrawingTwiceRestoresTheFramebuffer
  intro s t x y n hx hy hread hexec
  obtain ⟨t', hexec', hpixel, -, hreg, hframe⟩ := exec_drw_inverts_of_ne hx hy hread
  obtain rfl : t' = t := Host.Outcome.next.inj (hexec'.symm.trans hexec)
  have hi : t'.i = s.i := by rw [hframe]
  have hmem : t'.mem = s.mem := by rw [hframe]
  obtain ⟨u, hexec2, hpixel2, hflag2, -, -⟩ :=
    exec_drw_inverts_of_ne hx hy ((spriteReadable_congr (hreg y hy) hi).mpr hread)
  rw [spritePixel_congr (hreg x hx) (hreg y hy) hi hmem] at hpixel2 hflag2
  refine ⟨u, hexec2, State.fb_ext fun row col => ?_, (flag_eq_one_iff hflag2).trans ?_⟩
  · rw [hpixel2, hpixel]
    cases spritePixel s x y n row col <;> simp
  · refine exists_congr fun row => exists_congr fun col => and_congr_right fun hp => ?_
    rw [hpixel, hp, Bool.bne_true, Bool.not_eq_true']

/-! The pixels when one is hit. -/

theorem mem_spriteCols {c : Nat} : c ∈ spriteCols ↔ c ≤ 7 := by
  simp only [spriteCols, List.mem_cons, List.not_mem_nil, or_false]
  omega

/-- The base of a coordinate around the first hit is what the loop reads then, `VF` being 0 before it and 1 after it. -/
theorem baseAround_eq (s : State) (q : RegIdx) {size : Nat} (hsize : 1 < size) (later : Prop) [Decidable later] :
    baseAround s q size (decide later) = ((s.setReg vf 0).regAround q later).toNat % size := by
  unfold baseAround State.regAround
  by_cases hq : q = vf
  · rw [if_pos (show q = 15 from hq), if_pos hq]
    by_cases hlater : later
    · simp [hlater, Nat.mod_eq_of_lt hsize]
    · simp [hlater]
  · rw [if_neg (show q ≠ 15 from hq), if_neg hq, State.reg_setReg, if_neg hq]

/-- Where a dot falls, in the terms of the loops. -/
theorem dotFallsOn_iff (s : State) (x y : RegIdx) (p q : Prop) [Decidable p] [Decidable q] (r c : Nat) (row : Fin 32)
    (col : Fin 64) :
    DotFallsOn s x y (decide p) (decide q) r c row col ↔
      spriteBit ((s.setReg vf 0).mem.read ((s.setReg vf 0).i.toNat + r)) c = true ∧
        row.val = spriteTop ((s.setReg vf 0).regAround y p) + r ∧
        col.val = spriteLeft ((s.setReg vf 0).regAround x q) + c := by
  unfold DotFallsOn
  rw [baseAround_eq s y (by decide) p, baseAround_eq s x (by decide) q]
  exact Iff.rfl

theorem drawnAroundHit_iff (s : State) (x y : RegIdx) (n r0 c0 : Nat) (row : Fin 32) (col : Fin 64) :
    DrawnAroundHit s x y n r0 c0 row col ↔ DotsAround (s.setReg vf 0) x y r0 c0 n 0 row col := by
  unfold DrawnAroundHit DotsAround
  simp only [dotFallsOn_iff]
  constructor
  · rintro ⟨r, c, hr, hc, hdot⟩
    exact ⟨r, by omega, by omega, c, mem_spriteCols.mpr hc, hdot⟩
  · rintro ⟨r, -, hr, c, hc, hdot⟩
    exact ⟨r, c, by omega, mem_spriteCols.mp hc, hdot⟩

/-- Settles O49: while nothing is hit the coordinates stay the same (`exec_drw_inverts`); from the first hit on `VF` is 1,
and a coordinate in `VF` moves (`drawRows_firstHit`). -/
theorem drawReadsTheFlagRegisterAfterClearingIt : Obligations.DrawReadsTheFlagRegisterAfterClearingIt := by
  unfold Obligations.DrawReadsTheFlagRegisterAfterClearingIt
  intro s x y n hn hread
  refine ⟨fun hno => ?_, fun r0 c0 hfirst => ?_⟩
  · obtain ⟨t, hexec, hpixel, hflag, -, -⟩ := exec_drw_inverts hread (.inr hno)
    refine ⟨t, hexec, hflag.trans (if_neg ?_), hpixel⟩
    rintro ⟨row, col, hp, hlit⟩
    simp [hno row col hp] at hlit
  · obtain ⟨hr0, hc0, ⟨hitRow, hitCol, hdot, hlit⟩, hdark⟩ := hfirst
    have hvf : (s.setReg vf 0).reg vf = 0 := by rw [State.reg_setReg, if_pos rfl]
    have hbefore (q : RegIdx) : (s.setReg vf 0).regAround q False = (s.setReg vf 0).reg q :=
      State.regAround_before hvf not_false
    have hdots (r c : Nat) (row : Fin 32) (col : Fin 64) := dotFallsOn_iff s x y False False r c row col
    simp only [hbefore] at hdots
    obtain ⟨hbit, hrow, hcol⟩ := (hdots _ _ _ _).mp hdot
    obtain ⟨u, hu, hflag, hpixel⟩ := drawRows_firstHit x y r0 c0 n 0 (s.setReg vf 0) hitRow hitCol hvf (by omega)
      (by omega) (by omega) ((spriteReadable_iff _ _ _).mp hread) (mem_spriteCols.mpr hc0) hbit hrow hcol hlit
      fun q _ c hc hlt hb row col h1 h2 => hdark q c row col hlt (mem_spriteCols.mp hc) ((hdots _ _ _ _).mpr ⟨hb, h1, h2⟩)
    simp only [← drawnAroundHit_iff] at hpixel
    obtain ⟨-, hreg, hframe⟩ := drawn_frame hu
    exact ⟨_, exec_drw_of_ok hu, hflag, hreg, hframe, hpixel⟩

end Sys2Proof.Proofs
end
